-- ==== Sys2Proof/Word.lean ====
section
/-! DEFINITION. The widths of the machine: a byte of a row's byte stream (R45), a cell of the plane (R20) and
a descriptor word (R77). -/

namespace Sys2Proof

/-- Half of a cell: one byte of the byte stream of a row (R45). -/
abbrev Byte := BitVec 8

/-- One 16-bit addressable unit of video memory (R14, R20). -/
abbrev Cell := BitVec 16

/-- One word of an operation descriptor (R77). -/
abbrev Word32 := BitVec 32

end Sys2Proof
end

