-- ==== Sys2Proof/Syntax.lean ====
section
/-! DEFINITION. The operand records (R12, R29 to R38), the result records of the display (R200), and the operations as syntax: one
constructor of `Instr` per row of the opcode table (R88). -/

namespace Sys2Proof

/-- A pair of unsigned 16-bit components naming a cell or an origin (R29). -/
structure Coord where
  x : BitVec 16
  y : BitVec 16
  deriving DecidableEq, Repr, Inhabited

/-- The size of a transfer rectangle (in cells) or of a display region (in output pixels) (R37). -/
structure Size where
  w : BitVec 16
  h : BitVec 16
  deriving DecidableEq, Repr, Inhabited

/-- A texel coordinate of a descriptor: unsigned 16-bit integers counted in texels (R79). -/
structure TexCoord where
  u : BitVec 16
  v : BitVec 16
  deriving DecidableEq, Repr, Inhabited

/-- A shading colour of a descriptor: three 8-bit integers, s meaning s/255 (R80). -/
structure Rgb where
  r : Byte
  g : Byte
  b : Byte
  deriving DecidableEq, Repr, Inhabited

/-- The depth of a texture (R32). -/
inductive DepthMode where
  | bpp16
  | bpp8
  | bpp4
  deriving DecidableEq, Repr, Inhabited

/-- How a texel combines with the shading colour (R33). -/
inductive BlendMode where
  | noTexture
  | rawTexture
  | textureBlend
  deriving DecidableEq, Repr, Inhabited

/-- The shape of a primitive (R35). -/
inductive PrimKind where
  | polygon
  | line
  | rectangle
  deriving DecidableEq, Repr, Inhabited

/-- A vertex of a primitive: a signed position, a shading colour, a texel coordinate (R35, R86). -/
structure Vertex where
  vx : BitVec 16
  vy : BitVec 16
  colour : Rgb
  tex : TexCoord
  deriving DecidableEq, Repr, Inhabited

/-- The pass selector and the two flags of a fragment or a primitive (R34, R36). `pass` is false for the opaque pass 0 and true for the
semi-transparent pass 1. -/
structure DrawFlags where
  pass : Bool
  semi : Bool
  dither : Bool
  deriving DecidableEq, Repr, Inhabited

/-- The five operand words of a FRAG descriptor (R85). -/
structure FragArgs where
  target : Coord
  shade : Rgb
  tex : TexCoord
  page : Coord
  clut : Coord
  deriving DecidableEq, Repr, Inhabited

/-- The operand words of a DRAW descriptor (R86). -/
structure DrawArgs where
  kind : PrimKind
  page : Coord
  clut : Coord
  verts : List Vertex
  deriving DecidableEq, Repr, Inhabited

/-- The operations (R88). `dshift` of the two FLAT forms is the don't-care field of R91, kept as it stands in the descriptor. -/
inductive Instr where
  | vwr (cell : Coord) (value : Cell)
  | vrd (cell : Coord)
  | upld (origin : Coord) (size : Size) (buf : List Cell)
  | dnld (origin : Coord) (size : Size)
  | fragFlat (fl : DrawFlags) (dshift : BitVec 2) (args : FragArgs)
  | fragRaw (fl : DrawFlags) (depth : DepthMode) (args : FragArgs)
  | fragMod (fl : DrawFlags) (depth : DepthMode) (args : FragArgs)
  | drawFlat (fl : DrawFlags) (dshift : BitVec 2) (args : DrawArgs)
  | drawRaw (fl : DrawFlags) (depth : DepthMode) (args : DrawArgs)
  | drawMod (fl : DrawFlags) (depth : DepthMode) (args : DrawArgs)
  | disp15 (origin : Coord) (size : Size) (fade : Byte)
  | disp24 (origin : Coord) (size : Size) (fade : Byte)
  deriving DecidableEq, Repr

/-- A normalized colour: red, green, blue and the alpha/mask channel, exact rationals (R10, R12). -/
structure Colour where
  r : ℚ
  g : ℚ
  b : ℚ
  a : ℚ
  deriving DecidableEq, Repr, Inhabited

/-- A shading colour: three exact rationals (R34). -/
structure Shade where
  r : ℚ
  g : ℚ
  b : ℚ
  deriving DecidableEq, Repr, Inhabited

/-- One pixel of a displayed image (R200). -/
structure Pixel where
  r : ℚ
  g : ℚ
  b : ℚ
  alpha : ℚ
  deriving DecidableEq, Repr, Inhabited

/-- A primitive as the rasterizer receives it (R35). -/
structure Primitive where
  kind : PrimKind
  verts : List Vertex
  page : Coord
  clut : Coord
  depth : DepthMode
  blend : BlendMode
  dither : Bool
  semi : Bool
  deriving DecidableEq, Repr, Inhabited

/-- One covered pixel with its attributes (R34). Its position may lie outside the plane. -/
structure Fragment where
  x : Int
  y : Int
  shade : Shade
  tx : ℚ
  ty : ℚ
  page : Coord
  clut : Coord
  depth : DepthMode
  blend : BlendMode
  dither : Bool
  semi : Bool
  deriving DecidableEq, Repr, Inhabited

end Sys2Proof
end

