-- ==== Sys2Proof/WellFormed.lean ====
section
/-! DEFINITION. Which operations a descriptor can carry: the buffer of an upload has w × h elements (R83) and a primitive has 1 to 15
vertices (R35, R86). Every other field is limited by its type. -/

namespace Sys2Proof

/-- The external buffer has one element per cell of the rectangle (R83, R183). -/
def bufferFits (size : Size) (buf : List Cell) : Bool :=
  buf.length == size.w.toNat * size.h.toNat

/-- A primitive has 1 to 15 vertices (R35). -/
def vertexCountOk (verts : List Vertex) : Bool :=
  1 ≤ verts.length && verts.length ≤ 15

/-- The operations that have a descriptor. -/
def Instr.wf : Instr → Bool
  | .vwr _ _ => true
  | .vrd _ => true
  | .upld _ size buf => bufferFits size buf
  | .dnld _ _ => true
  | .fragFlat _ _ _ => true
  | .fragRaw _ _ _ => true
  | .fragMod _ _ _ => true
  | .drawFlat _ _ args => vertexCountOk args.verts
  | .drawRaw _ _ args => vertexCountOk args.verts
  | .drawMod _ _ args => vertexCountOk args.verts
  | .disp15 _ _ _ => true
  | .disp24 _ _ _ => true

end Sys2Proof
end

