-- ==== Sys2Proof/Decode.lean ====
section
/-! DEFINITION. The descriptor encoding (R77 to R92): the decoder, total on any list of words, and the encoder. The header word is read
first (R89), then the number of words, then the operand words; what R90 reserves is answered by name with the offending word. -/

namespace Sys2Proof

/-! ### Header word -/

/-- What the header word `W0` says (R78, R85, R86, R87). -/
inductive Header where
  | vwr
  | vrd
  | upld
  | dnld
  | fragFlat (fl : DrawFlags) (dshift : BitVec 2)
  | fragRaw (fl : DrawFlags) (depth : DepthMode)
  | fragMod (fl : DrawFlags) (depth : DepthMode)
  | drawFlat (fl : DrawFlags) (dshift : BitVec 2) (kind : PrimKind) (nv : BitVec 4)
  | drawRaw (fl : DrawFlags) (depth : DepthMode) (kind : PrimKind) (nv : BitVec 4)
  | drawMod (fl : DrawFlags) (depth : DepthMode) (kind : PrimKind) (nv : BitVec 4)
  | disp15 (fade : Byte)
  | disp24 (fade : Byte)
  deriving DecidableEq, Repr

/-- `DSHIFT` of a textured operation: 3 is reserved (R32, R85, R90). -/
def depthOfShift (d : BitVec 2) : Option DepthMode :=
  match d.toNat with
  | 0 => some .bpp16
  | 1 => some .bpp8
  | 2 => some .bpp4
  | _ => none

/-- `KIND` of a DRAW: 3 is reserved (R35, R86, R90). -/
def kindOfField (k : BitVec 2) : Option PrimKind :=
  match k.toNat with
  | 0 => some .polygon
  | 1 => some .line
  | 2 => some .rectangle
  | _ => none

/-- `PASS`, `SEMI`, `DITHER`: bits 0, 1 and 2 of the header of FRAG and DRAW (R85, R86). -/
def flagsOfHeader (w0 : Word32) : DrawFlags :=
  { pass := w0.getLsbD 0, semi := w0.getLsbD 1, dither := w0.getLsbD 2 }

/-- The header of FRAG, its zero bits checked (R85, R90). -/
def decodeFragHeader (w0 : Word32) : Option Header :=
  if w0.extractLsb' 7 21 = 0#21 then
    let fl := flagsOfHeader w0
    let dshift := w0.extractLsb' 5 2
    match (w0.extractLsb' 3 2).toNat with
    | 0 => some (.fragFlat fl dshift)
    | 1 => (depthOfShift dshift).map (.fragRaw fl)
    | 2 => (depthOfShift dshift).map (.fragMod fl)
    | _ => none
  else none

/-- The header of DRAW, its zero bits, `NV` and `KIND` checked (R86, R90). -/
def decodeDrawHeader (w0 : Word32) : Option Header :=
  if w0.extractLsb' 13 15 = 0#15 then
    let fl := flagsOfHeader w0
    let dshift := w0.extractLsb' 5 2
    let nv := w0.extractLsb' 9 4
    match kindOfField (w0.extractLsb' 7 2) with
    | none => none
    | some kind =>
      if nv = 0#4 then none
      else
        match (w0.extractLsb' 3 2).toNat with
        | 0 => some (.drawFlat fl dshift kind nv)
        | 1 => (depthOfShift dshift).map fun d => .drawRaw fl d kind nv
        | 2 => (depthOfShift dshift).map fun d => .drawMod fl d kind nv
        | _ => none
  else none

/-- The header of DISP, its zero bits checked (R87, R90). -/
def decodeDispHeader (w0 : Word32) : Option Header :=
  if w0.extractLsb' 16 12 = 0#12 ∧ w0.extractLsb' 1 7 = 0#7 then
    if w0.getLsbD 0 then some (.disp24 (w0.extractLsb' 8 8)) else some (.disp15 (w0.extractLsb' 8 8))
  else none

/-- A header with no fields: bits 27:0 are zero (R81 to R84, R90). -/
def decodePlainHeader (w0 : Word32) (h : Header) : Option Header :=
  if w0.extractLsb' 0 28 = 0#28 then some h else none

/-- The header word, by its opcode (R78, R88); `none` where R90 reserves it. -/
def decodeHeader (w0 : Word32) : Option Header :=
  match (w0.extractLsb' 28 4).toNat with
  | 1 => decodePlainHeader w0 .vwr
  | 2 => decodePlainHeader w0 .vrd
  | 3 => decodePlainHeader w0 .upld
  | 4 => decodePlainHeader w0 .dnld
  | 5 => decodeFragHeader w0
  | 6 => decodeDrawHeader w0
  | 7 => decodeDispHeader w0
  | _ => none

/-! ### Operand words -/

/-- Coordinate word `XY` (R79). -/
def coordOfWord (w : Word32) : Coord :=
  { x := w.extractLsb' 0 16, y := w.extractLsb' 16 16 }

/-- Size word `WH` (R79). -/
def sizeOfWord (w : Word32) : Size :=
  { w := w.extractLsb' 0 16, h := w.extractLsb' 16 16 }

/-- Texel-coordinate word `TXY` (R79). -/
def texOfWord (w : Word32) : TexCoord :=
  { u := w.extractLsb' 0 16, v := w.extractLsb' 16 16 }

/-- Cell data word `CW` (R79); bits 31:16 are reserved (R90). -/
def cellOfWord (w : Word32) : Option Cell :=
  if w.extractLsb' 16 16 = 0#16 then some (w.extractLsb' 0 16) else none

/-- Colour word `RGB` (R80); bits 31:24 are reserved (R90). -/
def rgbOfWord (w : Word32) : Option Rgb :=
  if w.extractLsb' 24 8 = 0#8 then
    some { r := w.extractLsb' 0 8, g := w.extractLsb' 8 8, b := w.extractLsb' 16 8 }
  else none

/-- The data words of UPLD, in order; the first reserved word is the answer where there is one (R83, R90). -/
def cellsOfWords : List Word32 → Except Word32 (List Cell)
  | [] => .ok []
  | w :: ws =>
    match cellOfWord w with
    | none => .error w
    | some c =>
      match cellsOfWords ws with
      | .error e => .error e
      | .ok cs => .ok (c :: cs)

/-- The three words of each vertex of DRAW, in order; the first reserved word is the answer where there is one (R86, R90). -/
def vertsOfWords : List Word32 → Except Word32 (List Vertex)
  | p :: c :: t :: ws =>
    match rgbOfWord c with
    | none => .error c
    | some colour =>
      match vertsOfWords ws with
      | .error e => .error e
      | .ok vs => .ok ({ vx := p.extractLsb' 0 16, vy := p.extractLsb' 16 16, colour := colour, tex := texOfWord t } :: vs)
  | _ => .ok []

/-! ### Descriptors -/

/-- The number of words of a descriptor, from `W0`, and for UPLD from `W2` (R89); `none` for an opcode R88 reserves or for no word at all. A
missing `W2` counts as zero. -/
def descriptorLength (ws : List Word32) : Option Nat :=
  match ws with
  | [] => none
  | w0 :: _ =>
    match (w0.extractLsb' 28 4).toNat with
    | 1 => some 3
    | 2 => some 2
    | 3 =>
      let size := sizeOfWord (ws.getD 2 0#32)
      some (3 + size.w.toNat * size.h.toNat)
    | 4 => some 3
    | 5 => some 6
    | 6 => some (3 + 3 * (w0.extractLsb' 9 4).toNat)
    | 7 => some 3
    | _ => none

/-- What the decoder answers for a list of words. -/
inductive Decoded where
  /-- The words are the descriptor of this operation. -/
  | instr (i : Instr)
  /-- The words hold this reserved word (R90). -/
  | reserved (w : Word32)
  /-- The header is defined, but the number of words is not the one R89 gives: no descriptor of the spec. -/
  | wrongLength
  deriving DecidableEq, Repr

/-- The operands of FRAG, and the operation made of them (R85). -/
def decodeFragBody (mk : FragArgs → Instr) : List Word32 → Decoded
  | [xy, rgb, txy, page, clut] =>
    match rgbOfWord rgb with
    | none => .reserved rgb
    | some shade =>
      .instr (mk { target := coordOfWord xy, shade := shade, tex := texOfWord txy, page := coordOfWord page, clut := coordOfWord clut })
  | _ => .wrongLength

/-- The operands of DRAW, and the operation made of them (R86). -/
def decodeDrawBody (mk : DrawArgs → Instr) (kind : PrimKind) (nv : BitVec 4) : List Word32 → Decoded
  | page :: clut :: ws =>
    if ws.length = 3 * nv.toNat then
      match vertsOfWords ws with
      | .error w => .reserved w
      | .ok verts => .instr (mk { kind := kind, page := coordOfWord page, clut := coordOfWord clut, verts := verts })
    else .wrongLength
  | _ => .wrongLength

/-- The operands of VWR (R81). -/
def decodeVwrBody : List Word32 → Decoded
  | [xy, cw] =>
    match cellOfWord cw with
    | none => .reserved cw
    | some value => .instr (.vwr (coordOfWord xy) value)
  | _ => .wrongLength

/-- The operand of VRD (R82). -/
def decodeVrdBody : List Word32 → Decoded
  | [xy] => .instr (.vrd (coordOfWord xy))
  | _ => .wrongLength

/-- The operands of UPLD (R83). -/
def decodeUpldBody : List Word32 → Decoded
  | xy :: wh :: ws =>
    if ws.length = (sizeOfWord wh).w.toNat * (sizeOfWord wh).h.toNat then
      match cellsOfWords ws with
      | .error w => .reserved w
      | .ok buf => .instr (.upld (coordOfWord xy) (sizeOfWord wh) buf)
    else .wrongLength
  | _ => .wrongLength

/-- The two operand words `XY` and `WH` of DNLD and DISP (R84, R87). -/
def decodeRegionBody (mk : Coord → Size → Instr) : List Word32 → Decoded
  | [xy, wh] => .instr (mk (coordOfWord xy) (sizeOfWord wh))
  | _ => .wrongLength

/-- The words after the header. -/
def decodeBody (h : Header) (ws : List Word32) : Decoded :=
  match h with
  | .vwr => decodeVwrBody ws
  | .vrd => decodeVrdBody ws
  | .upld => decodeUpldBody ws
  | .dnld => decodeRegionBody .dnld ws
  | .fragFlat fl dshift => decodeFragBody (.fragFlat fl dshift) ws
  | .fragRaw fl depth => decodeFragBody (.fragRaw fl depth) ws
  | .fragMod fl depth => decodeFragBody (.fragMod fl depth) ws
  | .drawFlat fl dshift kind nv => decodeDrawBody (.drawFlat fl dshift) kind nv ws
  | .drawRaw fl depth kind nv => decodeDrawBody (.drawRaw fl depth) kind nv ws
  | .drawMod fl depth kind nv => decodeDrawBody (.drawMod fl depth) kind nv ws
  | .disp15 fade => decodeRegionBody (fun o z => .disp15 o z fade) ws
  | .disp24 fade => decodeRegionBody (fun o z => .disp24 o z fade) ws

/-- The decoder: the operation a submitted list of words is the descriptor of (R77, R89, R90). -/
def decode (ws : List Word32) : Decoded :=
  match ws with
  | [] => .wrongLength
  | w0 :: rest =>
    match decodeHeader w0 with
    | none => .reserved w0
    | some h => decodeBody h rest

/-! ### Encoder -/

/-- `DSHIFT` of a depth mode (R32). -/
def shiftOfDepth : DepthMode → BitVec 2
  | .bpp16 => 0#2
  | .bpp8 => 1#2
  | .bpp4 => 2#2

/-- `KIND` of a shape (R35). -/
def fieldOfKind : PrimKind → BitVec 2
  | .polygon => 0#2
  | .line => 1#2
  | .rectangle => 2#2

/-- The header word of FRAG (R85): OP, zeros, DSHIFT, BLEND, DITHER, SEMI, PASS. -/
def fragHeaderWord (fl : DrawFlags) (dshift blend : BitVec 2) : Word32 :=
  0x5#4 ++ 0#21 ++ dshift ++ blend ++ BitVec.ofBool fl.dither ++ BitVec.ofBool fl.semi ++ BitVec.ofBool fl.pass

/-- The header word of DRAW (R86): OP, zeros, NV, KIND, DSHIFT, BLEND, DITHER, SEMI, PASS. -/
def drawHeaderWord (fl : DrawFlags) (nv : BitVec 4) (kind dshift blend : BitVec 2) : Word32 :=
  0x6#4 ++ 0#15 ++ nv ++ kind ++ dshift ++ blend ++ BitVec.ofBool fl.dither ++ BitVec.ofBool fl.semi ++ BitVec.ofBool fl.pass

/-- The header word of DISP (R87): OP, zeros, FADE, zeros, MODE. -/
def dispHeaderWord (fade : Byte) (mode : BitVec 1) : Word32 :=
  0x7#4 ++ 0#12 ++ fade ++ 0#7 ++ mode

/-- The word `XY` (R79). -/
def wordOfCoord (c : Coord) : Word32 := c.y ++ c.x

/-- The word `WH` (R79). -/
def wordOfSize (z : Size) : Word32 := z.h ++ z.w

/-- The word `TXY` (R79). -/
def wordOfTex (t : TexCoord) : Word32 := t.v ++ t.u

/-- The word `CW` (R79). -/
def wordOfCell (c : Cell) : Word32 := 0#16 ++ c

/-- The word `RGB` (R80). -/
def wordOfRgb (c : Rgb) : Word32 := 0#8 ++ c.b ++ c.g ++ c.r

/-- The three words of a vertex (R86). -/
def wordsOfVertex (v : Vertex) : List Word32 := [v.vy ++ v.vx, wordOfRgb v.colour, wordOfTex v.tex]

/-- A FRAG descriptor (R85). -/
def encodeFrag (w0 : Word32) (a : FragArgs) : List Word32 :=
  [w0, wordOfCoord a.target, wordOfRgb a.shade, wordOfTex a.tex, wordOfCoord a.page, wordOfCoord a.clut]

/-- A DRAW descriptor (R86). -/
def encodeDraw (fl : DrawFlags) (dshift blend : BitVec 2) (a : DrawArgs) : List Word32 :=
  drawHeaderWord fl (BitVec.ofNat 4 a.verts.length) (fieldOfKind a.kind) dshift blend :: wordOfCoord a.page :: wordOfCoord a.clut ::
    a.verts.flatMap wordsOfVertex

/-- The encoder: the descriptor of a well-formed operation (R81 to R87). -/
def encode : Instr → List Word32
  | .vwr cell value => [0x10000000#32, wordOfCoord cell, wordOfCell value]
  | .vrd cell => [0x20000000#32, wordOfCoord cell]
  | .upld origin size buf => 0x30000000#32 :: wordOfCoord origin :: wordOfSize size :: buf.map wordOfCell
  | .dnld origin size => [0x40000000#32, wordOfCoord origin, wordOfSize size]
  | .fragFlat fl dshift args => encodeFrag (fragHeaderWord fl dshift 0#2) args
  | .fragRaw fl depth args => encodeFrag (fragHeaderWord fl (shiftOfDepth depth) 1#2) args
  | .fragMod fl depth args => encodeFrag (fragHeaderWord fl (shiftOfDepth depth) 2#2) args
  | .drawFlat fl dshift args => encodeDraw fl dshift 0#2 args
  | .drawRaw fl depth args => encodeDraw fl (shiftOfDepth depth) 1#2 args
  | .drawMod fl depth args => encodeDraw fl (shiftOfDepth depth) 2#2 args
  | .disp15 origin size fade => [dispHeaderWord fade 0#1, wordOfCoord origin, wordOfSize size]
  | .disp24 origin size fade => [dispHeaderWord fade 1#1, wordOfCoord origin, wordOfSize size]

/-! ### The pseudo-operation SWEEP2 -/

/-- The operation with the given pass selector; only FRAG and DRAW carry one (R36). -/
def Instr.withPass (p : Bool) : Instr → Instr
  | .fragFlat fl dshift args => .fragFlat { fl with pass := p } dshift args
  | .fragRaw fl depth args => .fragRaw { fl with pass := p } depth args
  | .fragMod fl depth args => .fragMod { fl with pass := p } depth args
  | .drawFlat fl dshift args => .drawFlat { fl with pass := p } dshift args
  | .drawRaw fl depth args => .drawRaw { fl with pass := p } depth args
  | .drawMod fl depth args => .drawMod { fl with pass := p } depth args
  | .vwr cell value => .vwr cell value
  | .vrd cell => .vrd cell
  | .upld origin size buf => .upld origin size buf
  | .dnld origin size => .dnld origin size
  | .disp15 origin size fade => .disp15 origin size fade
  | .disp24 origin size fade => .disp24 origin size fade

/-- `SWEEP2`: the whole list with pass 0, then the whole list with pass 1, never line by line (R94, R249). -/
def sweep2 (ops : List Instr) : List Instr :=
  ops.map (Instr.withPass false) ++ ops.map (Instr.withPass true)

/-! ### A word of the opcode table as a descriptor -/

/-- The first `n` 32-bit words of a number whose bit 0 is bit 0 of the first word. -/
def wordsOfNat (n w : Nat) : List Word32 :=
  (List.range n).map fun (k : Nat) => BitVec.ofNat 32 (w >>> (32 * k))

/-- The descriptor whose first `nbits` bits are those of `w` and whose remaining words, up to the length of R89, are zero. -/
def tableDescriptor (nbits w : Nat) : List Word32 :=
  let ws := wordsOfNat ((nbits + 31) / 32) (w % 2 ^ nbits)
  ws ++ List.replicate ((descriptorLength ws).getD 0 - ws.length) 0#32

/-- The operation the decoder reads from that descriptor. -/
def decodeTableWord (nbits w : Nat) : Option Instr :=
  match decode (tableDescriptor nbits w) with
  | .instr i => some i
  | .reserved _ => none
  | .wrongLength => none

end Sys2Proof
end

