-- ==== Sys2Proof/Config.lean ====
section
/-! DEFINITION. The implementation parameters of R8. `Params` is what the units take as an argument, so that a statement can be made for
every value of it; `Config.params` is the one set the machine runs with. What the spec leaves OPEN is an opaque constant: nothing can
evaluate it or prove a value of it. -/

namespace Sys2Proof

/-- The three admissible treatments of an address outside the plane (R49, D4). -/
inductive OobPolicy where
  | fault
  | wrap
  | clamp
  deriving DecidableEq, Repr, Inhabited

/-- The direction of a rounding tie (R10, D3). -/
inductive RoundTie where
  | halfUp
  | halfEven
  deriving DecidableEq, Repr, Inhabited

/-- The parameters of R8. -/
structure Params where
  /-- `OOB_POLICY` (R49). -/
  oobPolicy : OobPolicy
  /-- `ROUND_TIE` (R10). -/
  roundTie : RoundTie
  /-- `FLAT_ALPHA` (R142): true for 1. -/
  flatAlpha : Bool
  /-- `SEMI_BLEND` (R153): of the destination cell and the fragment's colour only. -/
  semiBlend : Cell → Colour → Cell
  /-- `COVER` (R159 (a)): of the kind and the vertex positions only. -/
  cover : PrimKind → List (Int × Int) → List (Int × Int)
  /-- `INTERP`, the shading colour at a covered position, before the limits of R159 (b) and (c). -/
  interpShade : Primitive → Int × Int → Shade
  /-- `INTERP`, the texel coordinate at a covered position (R159). -/
  interpTexel : Primitive → Int × Int → ℚ × ℚ
  /-- `PIXEL_ORDER` (R60): the rank of a covered position in the given DRAW; any order is some choice of ranks. -/
  pixelRank : Nat → Primitive → Bool → Int × Int → Nat
  /-- `INIT_VRAM` (R240): the byte at an address of the plane after the given reset. -/
  initVram : Nat → Nat → Byte

/-- `OOB_POLICY`: OPEN (D4). -/
opaque Config.oobPolicy : OobPolicy

/-- `SEMI_BLEND`: OPEN (D11). -/
opaque Config.semiBlend : Cell → Colour → Cell

/-- `COVER`: OPEN (D15). -/
opaque Config.cover : PrimKind → List (Int × Int) → List (Int × Int)

/-- `INTERP`, shading colour: OPEN (D15). -/
opaque Config.interpShade : Primitive → Int × Int → Shade

/-- `INTERP`, texel coordinate: OPEN (D15). -/
opaque Config.interpTexel : Primitive → Int × Int → ℚ × ℚ

/-- `PIXEL_ORDER`: OPEN, every order (D16). -/
opaque Config.pixelRank : Nat → Primitive → Bool → Int × Int → Nat

/-- `INIT_VRAM`: OPEN, any contents (D8). -/
opaque Config.initVram : Nat → Nat → Byte

/-- The parameters of the machine: the open ones opaque, `ROUND_TIE` and `FLAT_ALPHA` at the value the spec chose for them (R8, D3, D9). -/
def Config.params : Params where
  oobPolicy := Config.oobPolicy
  roundTie := .halfUp
  flatAlpha := true
  semiBlend := Config.semiBlend
  cover := Config.cover
  interpShade := Config.interpShade
  interpTexel := Config.interpTexel
  pixelRank := Config.pixelRank
  initVram := Config.initVram

end Sys2Proof
end

