-- ==== Sys2Proof/Machine/State.lean ====
section
/-! DEFINITION. The state of the block (R16, R20, R25), the model's own fields beside it, the reasons a step can stop, and the state after
reset (R28, R240). -/

namespace Sys2Proof.Machine

/-- The stored bytes of the plane: pairs of a byte address and a byte, addresses strictly rising (`Memory.wf` in Ops.lean). A byte is listed
exactly when an operation has written it since the last reset. An unlisted byte has no stored value: it reads as the free value
`INIT_VRAM` (R240), log entry 1. -/
abbrev Memory := List Host.Cell

/-- The video-memory plane `V` (R20): its stored bytes, and the number of resets so far, which makes the contents after each reset free
again (R240, log entry 2). -/
structure Plane where
  mem : Memory
  epoch : Nat
  deriving DecidableEq, Repr

/-- A cell of the plane: column and row (R13, R40). -/
structure CellAddr where
  x : Fin 1024
  y : Fin 512
  deriving DecidableEq, Repr

/-- The kind of a plane access, kept with a violation (R223). -/
inductive Access where
  | target
  | texel
  | clut
  | transfer
  | display
  deriving DecidableEq, Repr

/-- A contract violation with its cause and argument (R223). -/
inductive Violation where
  /-- Cause 1: an addressed cell lies outside the plane under `OOB_POLICY` = fault. -/
  | outOfBounds (kind : Access) (x y : Int)
  /-- Cause 2: a descriptor holds this reserved word (R90). -/
  | reservedEncoding (word : Word32)
  deriving DecidableEq, Repr

/-- What an operation returns to the submitter (R257). -/
inductive Output where
  /-- The value of a VRD. -/
  | value (v : Cell)
  /-- The buffer of a DNLD, row-major (R183). -/
  | buffer (b : List Cell)
  /-- The image of a DISP15 or DISP24: rows of pixels (R200). -/
  | image (rows : List (List Pixel))
  deriving DecidableEq, Repr

/-- What the outside world does to the block (R255). -/
inductive Input where
  /-- Submit one operation, as a descriptor (R77). -/
  | descriptor (words : List Word32)
  /-- Reset the block. -/
  | reset
  deriving DecidableEq, Repr

/-- The state. `plane` and `fault` are the spec's; the others are the model's own. -/
structure State where
  /-- The video-memory plane `V` (R20). -/
  plane : Plane
  /-- The fault latch `FAULT` (R25, R221). -/
  fault : Bool
  /-- The last contract violation, which a model may keep (R223), log entry 4. -/
  lastViolation : Option Violation
  /-- What is still to be submitted, oldest first (R23, R257), log entry 3. -/
  pending : List Input
  /-- What has been returned in this run, oldest first (R257), log entry 3. -/
  outputs : List Output
  /-- How many DRAW operations have run: the argument of the free pixel order (R60), log entry 9. -/
  drawCount : Nat
  deriving DecidableEq, Repr

/-- Why the machine stops. -/
inductive Fault where
  /-- Raised by `step`: the header of the submitted words is defined, but their number is not the length R89 gives, so they are no
  descriptor and the spec says nothing of them. Safe: no statement about a run past this point can be proved. Log entry 5. -/
  | notADescriptor
  deriving DecidableEq, Repr

/-- Why the machine has no meaning for an instruction. -/
inductive Refusal where
  /-- Raised by `exec`'s arm of an instruction without a meaning. Safe. No arm raises it: every instruction has its meaning. -/
  | notModelled (mnemonic : String)
  /-- Raised by the meanings of UPLD and DRAW on a record no descriptor encodes (a buffer that does not fit the rectangle, no vertex or
  more than 15), as R223 and U10 say. The decoder never yields such a record. Safe. Log entry 6. -/
  | illFormedRecord
  deriving DecidableEq, Repr

/-- The state right after reset (R28, R240): the plane unspecified (nothing stored), `FAULT` = 0, nothing submitted or returned. -/
def State.reset : State where
  plane := { mem := [], epoch := 0 }
  fault := false
  lastViolation := none
  pending := []
  outputs := []
  drawCount := 0

end Sys2Proof.Machine
end

