-- ==== Sys2Proof/Machine/Ops.lean ====
section
/-! DEFINITION. The named operations over the plane and the state: bytes and cells of the plane, `Addr`, `MemRead` and `MemWrite` (R11,
R43, R45, R49), the loops over several cells, the contract violation (R221, R222), the delivery of a result (R257), and reset (R240). -/

namespace Sys2Proof.Machine

/-! ### Stored bytes -/

/-- The stored byte at an address, if there is one. -/
def Memory.find : Memory → Nat → Option Byte
  | [], _ => none
  | (k, b) :: m, a => if k = a then some b else Memory.find m a

/-- Store a byte, keeping the addresses strictly rising. -/
def Memory.put : Memory → Nat → Byte → Memory
  | [], a, b => [(a, b)]
  | (k, c) :: m, a, b =>
    if a < k then (a, b) :: (k, c) :: m
    else if a = k then (a, b) :: m
    else (k, c) :: Memory.put m a b

/-- The number of bytes of the plane: two per cell of 1024 × 512 (R20). -/
def planeBytes : Nat := 1048576

/-- Every address of the list is at least the bound and below the end of the plane, and they rise strictly. -/
def Memory.risesFrom : Nat → Memory → Bool
  | _, [] => true
  | lo, (k, _) :: m => lo ≤ k && k < planeBytes && Memory.risesFrom (k + 1) m

/-- The canonical form: byte addresses of the plane, strictly rising. An unlisted byte has no stored value, so no entry can equal it. -/
def Memory.wf (m : Memory) : Bool := Memory.risesFrom 0 m

/-! ### Bytes and cells of the plane -/

/-- What an unlisted byte reads as: the free value `INIT_VRAM` of this reset (R240). -/
def unlistedByte (P : Params) (epoch a : Nat) : Byte := P.initVram epoch a

/-- The byte at a byte address of the plane. -/
def readByte (P : Params) (V : Plane) (a : Nat) : Byte :=
  (Memory.find V.mem a).getD (unlistedByte P V.epoch a)

/-- The plane with one byte stored. -/
def writeByte (V : Plane) (a : Nat) (b : Byte) : Plane :=
  { V with mem := Memory.put V.mem a b }

/-- The address of the low byte of a cell: byte 2x of row y (R45). -/
def byteAddr (c : CellAddr) : Nat := 2048 * c.y.val + 2 * c.x.val

/-- One whole cell (R43), its low byte first (R45). -/
def readCell (P : Params) (V : Plane) (c : CellAddr) : Cell :=
  readByte P V (byteAddr c + 1) ++ readByte P V (byteAddr c)

/-- The plane with one whole cell written (R43), its low byte first (R45). -/
def writeCell (V : Plane) (c : CellAddr) (v : Cell) : Plane :=
  writeByte (writeByte V (byteAddr c) (v.extractLsb' 0 8)) (byteAddr c + 1) (v.extractLsb' 8 8)

/-! ### Addresses -/

/-- `a` brought into `0 .. n - 1` by `mod` (R10). -/
def wrapTo (n : Nat) (h : 0 < n) (a : Int) : Fin n :=
  ⟨(a % (n : Int)).toNat, by
    have h1 := Int.emod_nonneg a (show (n : Int) ≠ 0 by omega)
    have h2 := Int.emod_lt_of_pos a (show (0 : Int) < n by omega)
    omega⟩

/-- `a` brought into `0 .. n - 1` by the nearest end. -/
def clampTo (n : Nat) (h : 0 < n) (a : Int) : Fin n :=
  ⟨(min ((n : Int) - 1) (max 0 a)).toNat, by omega⟩

/-- `Addr(x, y)` under the given policy (R49). -/
def addr (p : OobPolicy) (kind : Access) (x y : Int) : Except Violation CellAddr :=
  if 0 ≤ x ∧ x < 1024 ∧ 0 ≤ y ∧ y < 512 then
    .ok { x := clampTo 1024 (by decide) x, y := clampTo 512 (by decide) y }
  else
    match p with
    | .fault => .error (.outOfBounds kind x y)
    | .wrap => .ok { x := wrapTo 1024 (by decide) x, y := wrapTo 512 (by decide) y }
    | .clamp => .ok { x := clampTo 1024 (by decide) x, y := clampTo 512 (by decide) y }

/-- `MemRead(x, y)` (R11). -/
def memRead (P : Params) (V : Plane) (kind : Access) (x y : Int) : Except Violation Cell :=
  match addr P.oobPolicy kind x y with
  | .error v => .error v
  | .ok c => .ok (readCell P V c)

/-- `MemWrite(x, y, v)` (R11). -/
def memWrite (P : Params) (V : Plane) (kind : Access) (x y : Int) (v : Cell) : Except Violation Plane :=
  match addr P.oobPolicy kind x y with
  | .error e => .error e
  | .ok c => .ok (writeCell V c v)

/-! ### Loops over cells -/

/-- The results of `f` over a list, in order; the first violation met is the answer (R224). -/
def readEach {α β : Type} (f : α → Except Violation β) : List α → Except Violation (List β)
  | [] => .ok []
  | a :: l =>
    match f a with
    | .error v => .error v
    | .ok b =>
      match readEach f l with
      | .error v => .error v
      | .ok bs => .ok (b :: bs)

/-- The plane after `f` for each element in order. The first violation met stops the loop, and what was written before it stays (R222). -/
def writeEach {α : Type} (f : Plane → α → Except Violation Plane) : Plane → List α → Plane × Option Violation
  | V, [] => (V, none)
  | V, a :: l =>
    match f V a with
    | .error v => (V, some v)
    | .ok V' => writeEach f V' l

/-! ### Updates of the state -/

/-- The state with the given plane. -/
def State.setPlane (s : State) (V : Plane) : State := { s with plane := V }

/-- The state with the given list of what is still to be submitted. -/
def State.setPending (s : State) (l : List Input) : State := { s with pending := l }

/-- The state with one more result returned (R257). -/
def State.deliver (s : State) (o : Output) : State := { s with outputs := s.outputs ++ [o] }

/-- The state with one more DRAW counted. -/
def State.countDraw (s : State) : State := { s with drawCount := s.drawCount + 1 }

/-- `raise ContractViolation(cause)` (R221): the block's only exception, taken. `FAULT` becomes 1, no result is returned, no other state is
saved and control goes nowhere (R228); the cause is kept as R223 allows. There is no return from it (R229): only reset clears `FAULT`. -/
def State.raise (s : State) (v : Violation) : State := { s with fault := true, lastViolation := some v }

/-- The numeric code of a cause (R223). -/
def causeCode : Violation → Nat
  | .outOfBounds _ _ _ => 1
  | .reservedEncoding _ => 2

/-- The end of an operation that returns a result: the result is returned, or the violation is raised and nothing is returned (R221). -/
def State.finishRead (s : State) (r : Except Violation Output) : State :=
  match r with
  | .ok o => s.deliver o
  | .error v => s.raise v

/-- The end of an operation that writes: the plane as far as it was written, and the violation if one was met (R222). -/
def State.finishWrite (s : State) (r : Plane × Option Violation) : State :=
  match r.2 with
  | none => s.setPlane r.1
  | some v => (s.setPlane r.1).raise v

/-- The end of an operation that writes all or nothing. -/
def State.finishWhole (s : State) (r : Except Violation Plane) : State :=
  match r with
  | .ok V => s.setPlane V
  | .error v => s.raise v

/-- Reset, given from outside (R240, R242, R255): the plane is unspecified anew, `FAULT` is 0, and a new run begins (R257). What is still to be
submitted stays the submitter's. -/
def State.resetAgain (s : State) : State :=
  { s with plane := { mem := [], epoch := s.plane.epoch + 1 }, fault := false, lastViolation := none, outputs := [] }

end Sys2Proof.Machine
end

