-- ==== Sys2Proof/Machine/Operands.lean ====
section
/-! DEFINITION. The operands assembled from an operation's fields (R76): arithmetic on rationals (R10), shading colours, the cells of a
rectangle (R183), fragments and primitives (R34, R35), and the fields that are present but not read (R91). -/

namespace Sys2Proof.Machine

/-! ### Rational arithmetic (R10) -/

/-- `clamp01` (R10). -/
def clamp01 (q : ℚ) : ℚ := min 1 (max 0 q)

/-- `round` under the given direction of a tie (R10). -/
def roundQ (t : RoundTie) (q : ℚ) : Int :=
  match t with
  | .halfUp => ⌊q + 1 / 2⌋
  | .halfEven =>
    if Int.fract q = 1 / 2 then (if ⌊q⌋ % 2 = 0 then ⌊q⌋ else ⌊q⌋ + 1)
    else ⌊q + 1 / 2⌋

/-! ### Colours and coordinates of a descriptor -/

/-- An 8-bit channel s as s/255 (R80, D14). -/
def channelOfByte (s : Byte) : ℚ := (s.toNat : ℚ) / 255

/-- The shading colour an `RGB` word denotes (R80). -/
def shadeOfRgb (c : Rgb) : Shade :=
  { r := channelOfByte c.r, g := channelOfByte c.g, b := channelOfByte c.b }

/-- The position of a vertex, sign-extended (R76, R86). -/
def vertexPos (v : Vertex) : Int × Int := (v.vx.toInt, v.vy.toInt)

/-- The cells of a rectangle in row-major order: element k is row k div w, column k mod w (R183). -/
def rectCells (origin : Coord) (size : Size) : List (Int × Int) :=
  (List.range size.h.toNat).flatMap fun (j : Nat) =>
    (List.range size.w.toNat).map fun (i : Nat) => ((origin.x.toNat : Int) + (i : Int), (origin.y.toNat : Int) + (j : Int))

/-- The rows of a display region, each the list of its pixels' columns with the row (R200). -/
def regionRows (size : Size) : List (List (Nat × Nat)) :=
  (List.range size.h.toNat).map fun (j : Nat) => (List.range size.w.toNat).map fun (i : Nat) => (i, j)

/-- The buffer elements of a byte-oriented producer: byte 2k is bits 7:0 of element k, byte 2k + 1 is bits 15:8 (R190). R190
does not say what becomes of a lone last byte of a stream of odd length; DESIGN CHOICE: it gives no element (log entry 25). -/
def cellsOfBytes : List Byte → List Cell
  | lo :: hi :: bs => (hi ++ lo) :: cellsOfBytes bs
  | _ => []

/-! ### Fragments and primitives -/

/-- The depth mode of an untextured operation, which nothing reads (R91). -/
def depthUnread : DepthMode := .bpp16

/-- The fragment of a FRAG operation (R34, R85). -/
def fragmentOf (fl : DrawFlags) (blend : BlendMode) (depth : DepthMode) (a : FragArgs) : Fragment :=
  { x := (a.target.x.toNat : Int), y := (a.target.y.toNat : Int), shade := shadeOfRgb a.shade, tx := (a.tex.u.toNat : ℚ),
    ty := (a.tex.v.toNat : ℚ), page := a.page, clut := a.clut, depth := depth, blend := blend, dither := fl.dither, semi := fl.semi }

/-- The vertex with its texel coordinate cleared: an untextured primitive does not read it (R91). -/
def vertexUntextured (v : Vertex) : Vertex := { v with tex := { u := 0#16, v := 0#16 } }

/-- The origin (0, 0), which stands for an origin that is not read (R91). -/
def coordUnread : Coord := { x := 0#16, y := 0#16 }

/-- The vertices as far as the blend mode has them read (R91). -/
def vertsRead : BlendMode → List Vertex → List Vertex
  | .noTexture, verts => verts.map vertexUntextured
  | .rawTexture, verts => verts
  | .textureBlend, verts => verts

/-- The texture page as far as the blend mode has it read (R91). -/
def pageRead : BlendMode → Coord → Coord
  | .noTexture, _ => coordUnread
  | .rawTexture, page => page
  | .textureBlend, page => page

/-- The CLUT origin at a depth: not read at 16 bits per pixel (R91). -/
def clutAtDepth : DepthMode → Coord → Coord
  | .bpp16, _ => coordUnread
  | .bpp8, clut => clut
  | .bpp4, clut => clut

/-- The CLUT origin as far as the blend mode and the depth have it read (R91). -/
def clutRead : BlendMode → DepthMode → Coord → Coord
  | .noTexture, _, _ => coordUnread
  | .rawTexture, depth, clut => clutAtDepth depth clut
  | .textureBlend, depth, clut => clutAtDepth depth clut

/-- The primitive of a DRAW operation (R35, R86), the fields R91 says are not read cleared, so that nothing open can depend on them. -/
def primitiveOf (fl : DrawFlags) (blend : BlendMode) (depth : DepthMode) (a : DrawArgs) : Primitive :=
  { kind := a.kind, verts := vertsRead blend a.verts, page := pageRead blend a.page, clut := clutRead blend depth a.clut, depth := depth
    blend := blend, dither := fl.dither, semi := fl.semi }

end Sys2Proof.Machine
end

