-- ==== Sys2Proof/Machine/Flags.lean ====
section
/-! DEFINITION. The one-bit values of the block. It has no condition codes (R25); the bits an operation computes are the mask bit of a
cell (R70), the sentinel test (R71, R144) and the effective semi-transparency that is compared with the pass (R143, R146). The latch
`FAULT` is set in `State.raise` alone. -/

namespace Sys2Proof.Machine

/-- The mask/alpha bit of a cell: bit 15 (R70). -/
def maskBit (v : Cell) : Bool := v.getLsbD 15

/-- The resolved texel is the transparent sentinel (R71, R144): all 16 bits are compared. -/
def isSentinel (t : Cell) : Bool := t == 0x0000#16

/-- The effective semi-transparency of an untextured fragment (R143). -/
def effFlat (semi : Bool) : Bool := semi

/-- The effective semi-transparency of a textured fragment with the given resolved texel (R146). -/
def effTextured (semi : Bool) (t : Cell) : Bool := maskBit t && semi

/-- A bit as the alpha channel of a colour (R101, R142). -/
def alphaOfBit (b : Bool) : ℚ := if b then 1 else 0

end Sys2Proof.Machine
end

