-- ==== Sys2Proof/Machine/Codec.lean ====
section
/-! DEFINITION. The colour codec (R100 to R111): UNPACK and PACK between a cell in format CELL1555 (R70) and a normalized colour. -/

namespace Sys2Proof.Machine

/-- The red level of a cell: bits 4:0 (R70). -/
def redLevel (v : Cell) : BitVec 5 := v.extractLsb' 0 5

/-- The green level of a cell: bits 9:5 (R70). -/
def greenLevel (v : Cell) : BitVec 5 := v.extractLsb' 5 5

/-- The blue level of a cell: bits 14:10 (R70). -/
def blueLevel (v : Cell) : BitVec 5 := v.extractLsb' 10 5

/-- A 5-bit level n as n/31 (R101). -/
def channelOfLevel (n : BitVec 5) : ℚ := (n.toNat : ℚ) / 31

/-- `UNPACK` (R101). -/
def unpack (v : Cell) : Colour :=
  { r := channelOfLevel (redLevel v), g := channelOfLevel (greenLevel v), b := channelOfLevel (blueLevel v), a := alphaOfBit (maskBit v) }

/-- The 5-bit level of a channel: round(31 × c), c clamped to [0, 1] (R103, R104). -/
def levelOf (t : RoundTie) (c : ℚ) : BitVec 5 := BitVec.ofInt 5 (roundQ t (31 * clamp01 c))

/-- The mask bit of an alpha channel: round(a), a clamped to [0, 1] (R103, R104). -/
def maskOf (t : RoundTie) (a : ℚ) : BitVec 1 := BitVec.ofInt 1 (roundQ t (clamp01 a))

/-- `PACK` (R103), made total by clamping (R104). -/
def pack (t : RoundTie) (c : Colour) : Cell :=
  maskOf t c.a ++ levelOf t c.b ++ levelOf t c.g ++ levelOf t c.r

end Sys2Proof.Machine
end

