-- ==== Sys2Proof/Machine/Display.lean ====
section
/-! DEFINITION. The display output stage (R200 to R210): it reads the plane and never writes it. -/

namespace Sys2Proof.Machine

/-- A pixel of the 15-bit mode from its cell: UNPACK, the mask bit dropped, the alpha from FADE (R201, R203). -/
def pixelOfCell (fade : Byte) (v : Cell) : Pixel :=
  { r := (unpack v).r, g := (unpack v).g, b := (unpack v).b, alpha := channelOfByte fade }

/-- Output pixel (i, j) of the 15-bit mode (R202). -/
def pixel15 (P : Params) (V : Plane) (origin : Coord) (fade : Byte) (ij : Nat × Nat) : Except Violation Pixel :=
  match memRead P V .display ((origin.x.toNat : Int) + ij.1) ((origin.y.toNat : Int) + ij.2) with
  | .error v => .error v
  | .ok c => .ok (pixelOfCell fade c)

/-- `x16 = (x24 * 3) div 2` (R205). -/
def firstColumn (x24 : Nat) : Nat := x24 * 3 / 2

/-- The recombined value of two cells, shifted right by 8 for an odd pixel (R206). -/
def recombine (x24 : Nat) (cell0 cell1 : Cell) : BitVec 32 :=
  ((cell1.setWidth 32 <<< 16) ||| cell0.setWidth 32) >>> (8 * (x24 % 2))

/-- A pixel of the 24-bit mode from the shifted value: lowest byte red, then green, then blue (R206, D18). -/
def pixelOfBits (fade : Byte) (v : BitVec 32) : Pixel :=
  { r := channelOfByte (v.extractLsb' 0 8), g := channelOfByte (v.extractLsb' 8 8), b := channelOfByte (v.extractLsb' 16 8)
    alpha := channelOfByte fade }

/-- Output pixel (x24, j) of the 24-bit mode: both cells are fetched for every pixel (R205, R206). -/
def pixel24 (P : Params) (V : Plane) (origin : Coord) (fade : Byte) (ij : Nat × Nat) : Except Violation Pixel :=
  let x16 : Int := (origin.x.toNat : Int) + firstColumn ij.1
  let y : Int := (origin.y.toNat : Int) + ij.2
  match memRead P V .display x16 y with
  | .error v => .error v
  | .ok cell0 =>
    match memRead P V .display (x16 + 1) y with
    | .error v => .error v
    | .ok cell1 => .ok (pixelOfBits fade (recombine ij.1 cell0 cell1))

/-- The image of a region, its pixels in row-major loop order; no partial image is returned (R203, R207). -/
def imageOf (pixel : Nat × Nat → Except Violation Pixel) (size : Size) : Except Violation (List (List Pixel)) :=
  readEach (readEach pixel) (regionRows size)

/-- `DISP15` on the plane (R203). -/
def display15 (P : Params) (V : Plane) (origin : Coord) (size : Size) (fade : Byte) : Except Violation (List (List Pixel)) :=
  imageOf (pixel15 P V origin fade) size

/-- `DISP24` on the plane (R207). -/
def display24 (P : Params) (V : Plane) (origin : Coord) (size : Size) (fade : Byte) : Except Violation (List (List Pixel)) :=
  imageOf (pixel24 P V origin fade) size

/-- DISP15 (R87, R203). -/
def execDisp15 (origin : Coord) (size : Size) (fade : Byte) (s : State) : Host.Outcome State Fault Refusal :=
  .next (s.finishRead ((display15 Config.params s.plane origin size fade).map .image))

/-- DISP24 (R87, R207). -/
def execDisp24 (origin : Coord) (size : Size) (fade : Byte) (s : State) : Host.Outcome State Fault Refusal :=
  .next (s.finishRead ((display24 Config.params s.plane origin size fade).map .image))

end Sys2Proof.Machine
end

