-- ==== Sys2Proof/Machine/Dither.lean ====
section
/-! DEFINITION. The dithering unit (R170 to R176): a fixed table keyed by the position of the target cell. -/

namespace Sys2Proof.Machine

/-- The table `DITHER[0..15]` (R171). -/
def ditherTable : List Int := [-4, 0, -3, 1, 2, -2, 3, -1, -3, 1, -4, 0, 3, -1, 2, -2]

/-- `Dither(x, y)` (R172). -/
def dither (x y : Int) : Int := ditherTable.getD ((y % 4) * 4 + x % 4).toNat 0

/-- The increment added to each colour channel: the table's entry over 255 times the dither flag, so zero when the flag is 0 (R149, R176). -/
def ditherStep (flag : Bool) (x y : Int) : ℚ := ((dither x y * (if flag then 1 else 0) : Int) : ℚ) / 255

end Sys2Proof.Machine
end

