-- ==== Sys2Proof/Machine/Texture.lean ====
section
/-! DEFINITION. The texture/CLUT addressing unit (R120 to R134). It reads the plane and writes nothing. -/

namespace Sys2Proof.Machine

/-- `depth_shift` (R32). -/
def depthShift : DepthMode → Nat
  | .bpp16 => 0
  | .bpp8 => 1
  | .bpp4 => 2

/-- Texels per cell (R121). -/
def tpc (d : DepthMode) : Nat := 1 <<< depthShift d

/-- Bits per palette index (R121). -/
def bpi (d : DepthMode) : Nat := 16 / tpc d

/-- `cell_x_float = tx / tpc` (R122). -/
def cellX (d : DepthMode) (tx : ℚ) : ℚ := tx / (tpc d : ℚ)

/-- The page-relative offset in x, in cells (R122). -/
def offsetX (d : DepthMode) (tx : ℚ) : Int := ⌊cellX d tx⌋ % 256

/-- The page-relative offset in y (R122). -/
def offsetY (ty : ℚ) : Int := ⌊ty⌋ % 256

/-- `TexCell`: the page origin is added after the wrap (R123, C1). -/
def texCell (page : Coord) (d : DepthMode) (tx ty : ℚ) : Int × Int :=
  ((page.x.toNat : Int) + offsetX d tx, (page.y.toNat : Int) + offsetY ty)

/-- The place of a texel within its cell (R126). -/
def texelAlign (d : DepthMode) (tx : ℚ) : Nat := ⌊Int.fract (cellX d tx) * (tpc d : ℚ)⌋.toNat

/-- The palette index: a field of the raw cell, low-order first (R46, R126). -/
def paletteIndex (d : DepthMode) (raw : Cell) (align : Nat) : Nat :=
  (raw.toNat >>> (align * bpi d)) &&& ((1 <<< bpi d) - 1)

/-- `ClutCell` (R128). -/
def clutCell (clut : Coord) (index : Nat) : Int × Int :=
  ((clut.x.toNat : Int) + index, (clut.y.toNat : Int))

/-- `ResolveTexel(V, f)` (R129). -/
def resolveTexel (P : Params) (V : Plane) (f : Fragment) : Except Violation Cell :=
  let tc := texCell f.page f.depth f.tx f.ty
  match memRead P V .texel tc.1 tc.2 with
  | .error v => .error v
  | .ok raw =>
    match f.depth with
    | .bpp16 => .ok raw
    | .bpp8 =>
      let cc := clutCell f.clut (paletteIndex .bpp8 raw (texelAlign .bpp8 f.tx))
      memRead P V .clut cc.1 cc.2
    | .bpp4 =>
      let cc := clutCell f.clut (paletteIndex .bpp4 raw (texelAlign .bpp4 f.tx))
      memRead P V .clut cc.1 cc.2

end Sys2Proof.Machine
end

