-- ==== Sys2Proof/Machine/Raster.lean ====
section
/-! DEFINITION. The primitive rasterizer (R140 to R164): the per-pixel state machine, the write of its result, FRAG and DRAW. -/

namespace Sys2Proof.Machine

/-! ### The per-pixel state machine -/

/-- The colour of an untextured fragment before dithering (R142). -/
def flatColour (P : Params) (f : Fragment) : Colour :=
  { r := f.shade.r, g := f.shade.g, b := f.shade.b, a := alphaOfBit P.flatAlpha }

/-- The modulated channel: shade × 2 × texel, clamped (R148). -/
def modulate (shade texel : ℚ) : ℚ := clamp01 (2 * shade * texel)

/-- The colour of a textured fragment before dithering, from its texel's colour (R147, R148). -/
def texturedColour (f : Fragment) (c : Colour) : Colour :=
  match f.blend with
  | .textureBlend => { r := modulate f.shade.r c.r, g := modulate f.shade.g c.g, b := modulate f.shade.b c.b, a := c.a }
  | .rawTexture => c
  | .noTexture => c

/-- Dithering and the output clamp; the alpha channel is left as it is (R149, R150). -/
def ditherColour (f : Fragment) (c : Colour) : Colour :=
  let d := ditherStep f.dither f.x f.y
  { r := clamp01 (c.r + d), g := clamp01 (c.g + d), b := clamp01 (c.b + d), a := c.a }

/-- The two states of an untextured fragment (R142, R143). -/
def fragUntextured (P : Params) (f : Fragment) (pass : Bool) : Option Colour :=
  if effFlat f.semi = pass then some (ditherColour f (flatColour P f)) else none

/-- The states of a textured fragment after its texel is resolved: sentinel test, pass test, blend mode, dither (R144 to R150). -/
def fragTextured (f : Fragment) (t : Cell) (pass : Bool) : Option Colour :=
  if isSentinel t then none
  else if effTextured f.semi t = pass then some (ditherColour f (texturedColour f (unpack t)))
  else none

/-- `Frag(V, f, pass)` (R151): `none` is a discard. -/
def frag (P : Params) (V : Plane) (f : Fragment) (pass : Bool) : Except Violation (Option Colour) :=
  match f.blend with
  | .noTexture => .ok (fragUntextured P f pass)
  | .rawTexture =>
    match resolveTexel P V f with
    | .error v => .error v
    | .ok t => .ok (fragTextured f t pass)
  | .textureBlend =>
    match resolveTexel P V f with
    | .error v => .error v
    | .ok t => .ok (fragTextured f t pass)

/-! ### Writing the result -/

/-- `WriteBack(V, x, y, out, pass)` (R152, R153). -/
def writeBack (P : Params) (V : Plane) (x y : Int) (out : Colour) (pass : Bool) : Except Violation Plane :=
  if pass then
    match memRead P V .target x y with
    | .error v => .error v
    | .ok old => memWrite P V .target x y (P.semiBlend old out)
  else memWrite P V .target x y (pack P.roundTie out)

/-- `FRAG(V, f, pass)` (R154): the target is checked first, also for a fragment that will be discarded (R224). -/
def fragOp (P : Params) (pass : Bool) (V : Plane) (f : Fragment) : Except Violation Plane :=
  match addr P.oobPolicy .target f.x f.y with
  | .error v => .error v
  | .ok _ =>
    match frag P V f pass with
    | .error v => .error v
    | .ok none => .ok V
    | .ok (some out) => writeBack P V f.x f.y out pass

/-! ### Coverage, interpolation and pixel order -/

/-- `COVER(p)`: a finite set of positions, of the kind and the vertex positions only (R159 (a)). -/
def coverOf (P : Params) (p : Primitive) : List (Int × Int) :=
  (P.cover p.kind (p.verts.map vertexPos)).dedup

/-- The colour all vertices carry, if they carry one (R35, R159 (b)). -/
def commonColour : List Vertex → Option Rgb
  | [] => none
  | v :: vs => if vs.all (fun w => w.colour == v.colour) then some v.colour else none

/-- The shading colour of `INTERP` (R159): the common colour of a flat-shaded primitive exactly, otherwise an open colour with channels in
[0, 1]. -/
def interpShade (P : Params) (p : Primitive) (xy : Int × Int) : Shade :=
  match commonColour p.verts with
  | some c => shadeOfRgb c
  | none =>
    let s := P.interpShade p xy
    { r := clamp01 s.r, g := clamp01 s.g, b := clamp01 s.b }

/-- The covered positions in the order in which this DRAW processes them (R158): any order, by the free ranks (R60). -/
def pixelOrder (P : Params) (n : Nat) (p : Primitive) (pass : Bool) : List (Int × Int) :=
  (coverOf P p).insertionSort fun a b => P.pixelRank n p pass a ≤ P.pixelRank n p pass b

/-- The fragment of a covered position (R158). -/
def fragmentAt (P : Params) (p : Primitive) (xy : Int × Int) : Fragment :=
  { x := xy.1, y := xy.2, shade := interpShade P p xy, tx := (P.interpTexel p xy).1, ty := (P.interpTexel p xy).2, page := p.page,
    clut := p.clut, depth := p.depth, blend := p.blend, dither := p.dither, semi := p.semi }

/-- `DRAW(V, p, pass)` over the covered positions in the given order (R158): each as one FRAG against the plane the earlier ones left. -/
def drawPixels (P : Params) (p : Primitive) (pass : Bool) (V : Plane) (order : List (Int × Int)) : Plane × Option Violation :=
  writeEach (fragOp P pass) V (order.map (fragmentAt P p))

/-! ### The meanings -/

/-- FRAG on the state (R154). -/
def fragState (P : Params) (f : Fragment) (pass : Bool) (s : State) : State :=
  s.finishWhole (fragOp P pass s.plane f)

/-- DRAW on the state (R158): the order is drawn from the free ranks of this DRAW. -/
def drawState (P : Params) (p : Primitive) (pass : Bool) (s : State) : State :=
  s.countDraw.finishWrite (drawPixels P p pass s.plane (pixelOrder P s.drawCount p pass))

/-- DRAW of a record, refused if no descriptor encodes it (R35, R223). -/
def drawRecord (P : Params) (fl : DrawFlags) (blend : BlendMode) (depth : DepthMode) (a : DrawArgs) (s : State) :
    Host.Outcome State Fault Refusal :=
  if vertexCountOk a.verts then .next (drawState P (primitiveOf fl blend depth a) fl.pass s) else .refused .illFormedRecord

/-- FRAG.FLAT (R85, R154): `DSHIFT` is not read (R91). -/
def execFragFlat (fl : DrawFlags) (_dshift : BitVec 2) (args : FragArgs) (s : State) : Host.Outcome State Fault Refusal :=
  .next (fragState Config.params (fragmentOf fl .noTexture depthUnread args) fl.pass s)

/-- FRAG.RAW (R85, R154). -/
def execFragRaw (fl : DrawFlags) (depth : DepthMode) (args : FragArgs) (s : State) : Host.Outcome State Fault Refusal :=
  .next (fragState Config.params (fragmentOf fl .rawTexture depth args) fl.pass s)

/-- FRAG.MOD (R85, R154). -/
def execFragMod (fl : DrawFlags) (depth : DepthMode) (args : FragArgs) (s : State) : Host.Outcome State Fault Refusal :=
  .next (fragState Config.params (fragmentOf fl .textureBlend depth args) fl.pass s)

/-- DRAW.FLAT (R86, R158): `DSHIFT` is not read (R91). -/
def execDrawFlat (fl : DrawFlags) (_dshift : BitVec 2) (args : DrawArgs) (s : State) : Host.Outcome State Fault Refusal :=
  drawRecord Config.params fl .noTexture depthUnread args s

/-- DRAW.RAW (R86, R158). -/
def execDrawRaw (fl : DrawFlags) (depth : DepthMode) (args : DrawArgs) (s : State) : Host.Outcome State Fault Refusal :=
  drawRecord Config.params fl .rawTexture depth args s

/-- DRAW.MOD (R86, R158). -/
def execDrawMod (fl : DrawFlags) (depth : DepthMode) (args : DrawArgs) (s : State) : Host.Outcome State Fault Refusal :=
  drawRecord Config.params fl .textureBlend depth args s

end Sys2Proof.Machine
end

