-- ==== Sys2Proof/Machine/Transfer.lean ====
section
/-! DEFINITION. The image transfer path and point access (R180 to R190): raw 16-bit cells, no codec, no sentinel, no pass, no dither. -/

namespace Sys2Proof.Machine

/-- `VWR` on the plane (R181). -/
def pointWrite (P : Params) (V : Plane) (cell : Coord) (value : Cell) : Except Violation Plane :=
  memWrite P V .transfer cell.x.toNat cell.y.toNat value

/-- `VRD` on the plane (R182). -/
def pointRead (P : Params) (V : Plane) (cell : Coord) : Except Violation Cell :=
  memRead P V .transfer cell.x.toNat cell.y.toNat

/-- One step of an upload: one cell, one buffer element (R184). -/
def uploadCell (P : Params) (V : Plane) (e : (Int × Int) × Cell) : Except Violation Plane :=
  memWrite P V .transfer e.1.1 e.1.2 e.2

/-- `UPLD` on the plane: the elements in row-major order (R184). -/
def blockUpload (P : Params) (V : Plane) (origin : Coord) (size : Size) (buf : List Cell) : Plane × Option Violation :=
  writeEach (uploadCell P) V ((rectCells origin size).zip buf)

/-- `DNLD` on the plane: the cells in row-major order (R186). -/
def blockDownload (P : Params) (V : Plane) (origin : Coord) (size : Size) : Except Violation (List Cell) :=
  readEach (fun xy => memRead P V .transfer xy.1 xy.2) (rectCells origin size)

/-- VWR (R81, R181). -/
def execVwr (cell : Coord) (value : Cell) (s : State) : Host.Outcome State Fault Refusal :=
  .next (s.finishWhole (pointWrite Config.params s.plane cell value))

/-- VRD (R82, R182). -/
def execVrd (cell : Coord) (s : State) : Host.Outcome State Fault Refusal :=
  .next (s.finishRead ((pointRead Config.params s.plane cell).map .value))

/-- UPLD (R83, R184); a buffer that does not fit the rectangle is no descriptor's and is refused (R223). -/
def execUpld (origin : Coord) (size : Size) (buf : List Cell) (s : State) : Host.Outcome State Fault Refusal :=
  if bufferFits size buf then .next (s.finishWrite (blockUpload Config.params s.plane origin size buf)) else .refused .illFormedRecord

/-- DNLD (R84, R186). -/
def execDnld (origin : Coord) (size : Size) (s : State) : Host.Outcome State Fault Refusal :=
  .next (s.finishRead ((blockDownload Config.params s.plane origin size).map .buffer))

end Sys2Proof.Machine
end

