-- ==== Sys2Proof/Machine/Dispatch.lean ====
section
/-! DEFINITION. One arm per operation of the opcode table (R88). -/

namespace Sys2Proof.Machine

def exec (i : Instr) (s : State) : Host.Outcome State Fault Refusal :=
  match i with
  | .vwr cell value => Sys2Proof.Machine.execVwr cell value s
  | .vrd cell => Sys2Proof.Machine.execVrd cell s
  | .upld origin size buf => Sys2Proof.Machine.execUpld origin size buf s
  | .dnld origin size => Sys2Proof.Machine.execDnld origin size s
  | .fragFlat fl dshift args => Sys2Proof.Machine.execFragFlat fl dshift args s
  | .fragRaw fl depth args => Sys2Proof.Machine.execFragRaw fl depth args s
  | .fragMod fl depth args => Sys2Proof.Machine.execFragMod fl depth args s
  | .drawFlat fl dshift args => Sys2Proof.Machine.execDrawFlat fl dshift args s
  | .drawRaw fl depth args => Sys2Proof.Machine.execDrawRaw fl depth args s
  | .drawMod fl depth args => Sys2Proof.Machine.execDrawMod fl depth args s
  | .disp15 origin size fade => Sys2Proof.Machine.execDisp15 origin size fade s
  | .disp24 origin size fade => Sys2Proof.Machine.execDisp24 origin size fade s

end Sys2Proof.Machine
end

