-- ==== Sys2Proof/Machine/Step.lean ====
section
/-! DEFINITION. One step of the machine: the next thing the outside world does to the block (R246, R255), one whole operation (R15). -/

namespace Sys2Proof.Machine

/-- One submitted descriptor: the operation it encodes runs; a reserved word raises a contract violation and changes nothing else (R90);
words that are no descriptor stop the machine. -/
def stepWords (ws : List Word32) (s : State) : Host.Outcome State Fault Refusal :=
  match decode ws with
  | .instr i => exec i s
  | .reserved w => .next (s.raise (.reservedEncoding w))
  | .wrongLength => .fault .notADescriptor

/-- One step. With nothing submitted the block waits, unchanged (R241, R257). -/
def step (s : State) : Host.Outcome State Fault Refusal :=
  match s.pending with
  | [] => .next s
  | .descriptor ws :: rest => stepWords ws (s.setPending rest)
  | .reset :: rest => .next (s.setPending rest).resetAgain

/-- The state with the descriptor of a table word submitted next (R77): what `step` then runs. It stands for the submitter. -/
def State.withFetchWord (s : State) (nbits w : Nat) : State :=
  s.setPending (.descriptor (tableDescriptor nbits w) :: s.pending)

/-- The state with a list of operations submitted next, in order (R23, R257). -/
def State.withOps (s : State) (ops : List Instr) : State :=
  s.setPending (ops.map (fun i => .descriptor (encode i)) ++ s.pending)

end Sys2Proof.Machine
end

