-- ==== Sys2Proof/Safety.lean ====
section
/-! DEFINITION. What claims about this machine speak of: a run without a contract violation (R257), the invariant of the state, which cells of
the plane an operation may write (R51, R155), and the single-pass reference of R156. -/

namespace Sys2Proof.Machine

/-- The premise of a claim about a run: no contract violation since reset (R229, R257). -/
def State.clean (s : State) : Bool := !s.fault

/-- Each channel of a delivered pixel is in [0, 1] (R200). -/
def pixelInRange (p : Pixel) : Bool :=
  0 ≤ p.r && p.r ≤ 1 && 0 ≤ p.g && p.g ≤ 1 && 0 ≤ p.b && p.b ≤ 1 && 0 ≤ p.alpha && p.alpha ≤ 1

/-- An image returned by the display has all its pixels in range (R200). -/
def outputInRange : Output → Bool
  | .value _ => true
  | .buffer _ => true
  | .image rows => rows.all fun row => row.all pixelInRange

/-- The invariant: the stored bytes are in canonical form, `FAULT` is set exactly when a violation is recorded, and every image returned is an
image of R200. -/
def State.inv (s : State) : Bool :=
  Memory.wf s.plane.mem && (s.fault == s.lastViolation.isSome) && s.outputs.all outputInRange

/-- The cell of the plane that the byte address belongs to is the given one (R45). -/
def byteOfCell (c : CellAddr) (a : Nat) : Bool := a == byteAddr c || a == byteAddr c + 1

/-- The position (x, y) is the given cell of the plane (R13). -/
def isCell (x y : Int) (c : CellAddr) : Bool := x == c.x.val && y == c.y.val

/-- The position (x, y) lies in the plane (R40). -/
def insidePlane (x y : Int) : Bool := 0 ≤ x && x < 1024 && 0 ≤ y && y < 512

/-- The rectangle lies in the plane (R187). -/
def rectInside (origin : Coord) (size : Size) : Bool :=
  origin.x.toNat + size.w.toNat ≤ 1024 && origin.y.toNat + size.h.toNat ≤ 512

/-- The cell lies in the rectangle (R183). -/
def cellInRect (origin : Coord) (size : Size) (c : CellAddr) : Bool :=
  origin.x.toNat ≤ c.x.val && c.x.val < origin.x.toNat + size.w.toNat && origin.y.toNat ≤ c.y.val &&
    c.y.val < origin.y.toNat + size.h.toNat

/-- The operations that may write the plane: the rasterizer and the image-transfer path (R27). -/
def writesPlane : Instr → Bool
  | .vwr _ _ => true
  | .vrd _ => false
  | .upld _ _ _ => true
  | .dnld _ _ => false
  | .fragFlat _ _ _ => true
  | .fragRaw _ _ _ => true
  | .fragMod _ _ _ => true
  | .drawFlat _ _ _ => true
  | .drawRaw _ _ _ => true
  | .drawMod _ _ _ => true
  | .disp15 _ _ _ => false
  | .disp24 _ _ _ => false

/-- The operations of a list one after another (R23, R257). -/
def runOps : List Instr → State → Host.Outcome State Fault Refusal
  | [], s => .next s
  | i :: ops, s =>
    match exec i s with
    | .next t => runOps ops t
    | .fault r => .fault r
    | .refused r => .refused r

/-- The reserved header words, as R90 lists them, in numbers. -/
def reservedHeader (w0 : Word32) : Bool :=
  let n := w0.toNat
  let op := n / 2 ^ 28
  let low := n % 2 ^ 28
  let blend := n / 2 ^ 3 % 4
  let dshift := n / 2 ^ 5 % 4
  let kind := n / 2 ^ 7 % 4
  let nv := n / 2 ^ 9 % 16
  op == 0 || 8 ≤ op ||
    ((op == 1 || op == 2 || op == 3 || op == 4) && low != 0) ||
    (op == 5 && (low / 2 ^ 7 != 0 || blend == 3 || (blend != 0 && dshift == 3))) ||
    (op == 6 && (low / 2 ^ 13 != 0 || blend == 3 || (blend != 0 && dshift == 3) || kind == 3 || nv == 0)) ||
    (op == 7 && (low / 2 ^ 16 != 0 || n / 2 % 2 ^ 7 != 0))

/-- The number of words of an operation's descriptor (R88, R89). -/
def wordCount : Instr → Nat
  | .vwr _ _ => 3
  | .vrd _ => 2
  | .upld _ size _ => 3 + size.w.toNat * size.h.toNat
  | .dnld _ _ => 3
  | .fragFlat _ _ _ => 6
  | .fragRaw _ _ _ => 6
  | .fragMod _ _ _ => 6
  | .drawFlat _ _ args => 3 + 3 * args.verts.length
  | .drawRaw _ _ args => 3 + 3 * args.verts.length
  | .drawMod _ _ args => 3 + 3 * args.verts.length
  | .disp15 _ _ _ => 3
  | .disp24 _ _ _ => 3

/-- The cells `ResolveTexel` reads for a fragment (R155): the texel cell, and at the paletted depths the CLUT cell. -/
def texelReads (P : Params) (V : Plane) (f : Fragment) : List CellAddr :=
  match addr P.oobPolicy .texel (texCell f.page f.depth f.tx f.ty).1 (texCell f.page f.depth f.tx f.ty).2 with
  | .error _ => []
  | .ok tc =>
    match f.depth with
    | .bpp16 => [tc]
    | .bpp8 =>
      let cc := clutCell f.clut (paletteIndex .bpp8 (readCell P V tc) (texelAlign .bpp8 f.tx))
      match addr P.oobPolicy .clut cc.1 cc.2 with
      | .error _ => [tc]
      | .ok c => [tc, c]
    | .bpp4 =>
      let cc := clutCell f.clut (paletteIndex .bpp4 (readCell P V tc) (texelAlign .bpp4 f.tx))
      match addr P.oobPolicy .clut cc.1 cc.2 with
      | .error _ => [tc]
      | .ok c => [tc, c]

/-- The single-pass reference of R156: the per-pixel state machine with the two pass tests removed, and with the effective semi-transparency
it computes on the way (R143, R146). -/
def fragSinglePass (P : Params) (V : Plane) (f : Fragment) : Except Violation (Option (Bool × Colour)) :=
  match f.blend with
  | .noTexture => .ok (some (effFlat f.semi, ditherColour f (flatColour P f)))
  | .rawTexture =>
    match resolveTexel P V f with
    | .error v => .error v
    | .ok t => .ok (if isSentinel t then none else some (effTextured f.semi t, ditherColour f (texturedColour f (unpack t))))
  | .textureBlend =>
    match resolveTexel P V f with
    | .error v => .error v
    | .ok t => .ok (if isSentinel t then none else some (effTextured f.semi t, ditherColour f (texturedColour f (unpack t))))

end Sys2Proof.Machine
end

