-- ==== Sys2Proof/Certificates/Slice0/Obligations.lean ====
section
/-! DEFINITION. The statements about the machine, from the spec's numbered rules. Each says in its docstring which rule it formalises, and
which of its clauses, if any, is the model's own. -/

open Sys2Proof Sys2Proof.Machine

/-! ### Reset, the step, the fault latch -/

/-- After reset `FAULT` is 0 and no cell has a stored value: every byte reads as the free value of reset 0 (R240; the free value and the empty lists
are the model's, log entries 1, 2 and 3). Rests on the spec's decisions D5 and D8 and on log entries 1 to 4. -/
def Obligations.ResetLeavesThePlaneFreeAndFaultClear : Prop :=
  State.reset.fault = false ∧ State.reset.lastViolation = none ∧ State.reset.pending = [] ∧ State.reset.outputs = [] ∧
    ∀ a, readByte Config.params State.reset.plane a = Config.initVram 0 a

/-- The invariant holds right after reset. The canonical form and the recorded violation are the model's own (log entries 1 and 4). -/
def Obligations.ResetMeetsTheInvariant : Prop := State.reset.inv = true

/-- Every step from a state that meets the invariant gives a state that meets it: the stored bytes stay canonical, `FAULT` is set exactly when a
violation is recorded, and every returned image has channels in [0, 1] (R200). The canonical form and the recorded violation are the model's own (log
entries 1 and 4); the range of a pixel is decision D19. -/
def Obligations.EveryStepKeepsTheInvariant : Prop :=
  ∀ s s' : State, s.inv = true → step s = .next s' → s'.inv = true

/-- "Reset is the only event that clears `FAULT` and the only event, other than the writing operations, that changes the plane" (R242); the writing
operations are those of R27. Rests on decisions D5 and D8 (log entries 2 and 14). -/
def Obligations.OnlyResetClearsFaultAndOnlyWritersChangeThePlane : Prop :=
  ∀ s s' : State, step s = .next s' →
    (s.fault = true → s'.fault = false → ∃ rest, s.pending = .reset :: rest) ∧
    (s'.plane ≠ s.plane → (∃ rest, s.pending = .reset :: rest) ∨
      ∃ ws rest i, s.pending = .descriptor ws :: rest ∧ decode ws = .instr i ∧ writesPlane i = true)

/-- A reset given from outside: `FAULT` is 0 and every byte of the plane is a fresh free value (R240). That the list of results starts anew and that
the draw counter goes on is the model's (log entries 2, 3 and 9). Rests on decisions D5 and D8. -/
def Obligations.ResetEventFreesThePlaneAndClearsFault : Prop :=
  ∀ (s : State) (rest : List Input), s.pending = .reset :: rest →
    ∃ t, step s = .next t ∧ t.fault = false ∧ t.lastViolation = none ∧ t.outputs = [] ∧ t.pending = rest ∧ t.drawCount = s.drawCount ∧
      ∀ a, readByte Config.params t.plane a = Config.initVram (s.plane.epoch + 1) a

/-- With nothing submitted the block waits and nothing changes (R241; that waiting is a step is the model's, log entry 3). -/
def Obligations.NothingSubmittedNothingChanges : Prop :=
  ∀ s : State, s.pending = [] → step s = .next s

/-- A step runs the decoded operation: when the next submission is the descriptor of i, the step is `exec` of i on the state with that submission
taken off the list. Rests on decisions D1 and D29; the list of submissions is the model's (log entry 3). -/
def Obligations.StepRunsTheDecodedInstruction : Prop :=
  ∀ (s : State) (ws : List Word32) (rest : List Input) (i : Instr),
    s.pending = .descriptor ws :: rest → decode ws = .instr i → step s = exec i (s.setPending rest)

/-- A descriptor with a reserved word raises and changes nothing else (R90, R221): `FAULT` is set, the plane and the results stay. Rests on decisions
D5 and D21 (log entries 14 and 16). -/
def Obligations.ReservedWordRaisesAndChangesNothingElse : Prop :=
  ∀ (s : State) (ws : List Word32) (rest : List Input) (w : Word32),
    s.pending = .descriptor ws :: rest → decode ws = .reserved w →
      step s = .next { s with pending := rest, fault := true, lastViolation := some (.reservedEncoding w) }

/-- A list of operations submitted from any state runs as the operations one after another, each on the state the one before left, and completes (R23,
R257). Rests on decisions D20 and D29; the list of submissions is the model's (log entry 3). -/
def Obligations.RunIsSequentialExecution : Prop :=
  ∀ (ops : List Instr) (s : State), (∀ i ∈ ops, i.wf = true) →
    ∃ t, Host.Core.run Sys2Proof.core ops.length (s.withOps ops) = .next t ∧ runOps ops s = .next t

/-- After a violation the block still executes operations by their rules (R229): what an operation does to the plane and what it returns do not depend
on the latch or the recorded violation. Rests on decision D5 (log entry 14). -/
def Obligations.ExecutionDoesNotDependOnTheLatch : Prop :=
  ∀ (i : Instr) (s t : State) (b : Bool) (v : Option Violation), exec i s = .next t →
    ∃ t', exec i { s with fault := b, lastViolation := v } = .next t' ∧ t'.plane = t.plane ∧ t'.outputs = t.outputs ∧
      t'.drawCount = t.drawCount ∧ t'.pending = t.pending

/-! ### Encoding -/

/-- Decoding the encoding of any well-formed operation gives it back, every field at every value. The encoding is decision D20 (log entry 16). -/
def Obligations.DecodeOfEncodeIsTheInstruction : Prop :=
  ∀ i : Instr, i.wf = true → decode (encode i) = .instr i

/-- Every list of words that decodes is the encoding of what it decodes to, and what it decodes to is well formed: no bit is dropped, and every
operation has one descriptor. The encoding is decision D20 (log entry 16). -/
def Obligations.EncodeOfDecodeIsTheWords : Prop :=
  ∀ (ws : List Word32) (i : Instr), decode ws = .instr i → encode i = ws ∧ i.wf = true

/-- A descriptor has the number of words R89 gives its operation, and the length function agrees. The encoding is decision D20 (log entry 16). -/
def Obligations.DescriptorsHaveTheirLength : Prop :=
  ∀ (ws : List Word32) (i : Instr), decode ws = .instr i → ws.length = wordCount i ∧ descriptorLength ws = some ws.length

/-- The decoder rejects exactly the header words R90 lists. The list is decision D21 (log entry 16). -/
def Obligations.ReservedHeadersAreTheListedOnes : Prop :=
  ∀ w0 : Word32, decodeHeader w0 = none ↔ reservedHeader w0 = true

/-- A non-zero bit in 31:16 of a `CW` word or in 31:24 of an `RGB` word is reserved (R90), in every descriptor that holds such a word and whose header
is not reserved: in VWR, at any element of an UPLD, in any form of FRAG, and at any vertex of any form of DRAW with any number of vertices. That the
word answered is the first such word is the model's choice (log entry 5). Decision D21 (log entry 16). -/
def Obligations.ReservedDataWordsAreRejected : Prop :=
  (∀ xy cw : Word32, 2 ^ 16 ≤ cw.toNat → decode [0x10000000#32, xy, cw] = .reserved cw) ∧
  (∀ (xy wh cw : Word32) (before after : List Word32), (∀ w ∈ before, w.toNat < 2 ^ 16) → 2 ^ 16 ≤ cw.toNat →
    before.length + 1 + after.length = (sizeOfWord wh).w.toNat * (sizeOfWord wh).h.toNat →
      decode (0x30000000#32 :: xy :: wh :: (before ++ cw :: after)) = .reserved cw) ∧
  (∀ w0 xy rgb txy page clut : Word32, reservedHeader w0 = false → w0.toNat / 2 ^ 28 = 5 → 2 ^ 24 ≤ rgb.toNat →
    decode [w0, xy, rgb, txy, page, clut] = .reserved rgb) ∧
  (∀ (w0 page clut pos rgb txy : Word32) (before : List (Word32 × Word32 × Word32)) (after : List Word32),
    reservedHeader w0 = false → w0.toNat / 2 ^ 28 = 6 → (∀ v ∈ before, v.2.1.toNat < 2 ^ 24) → 2 ^ 24 ≤ rgb.toNat →
    3 * before.length + 3 + after.length = 3 * (w0.toNat / 2 ^ 9 % 16) →
      decode (w0 :: page :: clut :: (before.flatMap (fun v => [v.1, v.2.1, v.2.2]) ++ pos :: rgb :: txy :: after)) = .reserved rgb)

/-- Descriptors of section 2.8 of the test vectors decode to the operations they are written for. The encoding is decision D20 (log entry 16). -/
def Obligations.SampleDescriptorsDecode : Prop :=
  decode [0x10000000#32, 0x01020283#32, 0x0000ABCD#32] = .instr (.vwr { x := 643, y := 258 } 0xABCD#16) ∧
  decode [0x20000000#32, 0x01E0000C#32] = .instr (.vrd { x := 12, y := 480 }) ∧
  decode [0x40000000#32, 0x00320064#32, 0x00010004#32] = .instr (.dnld { x := 100, y := 50 } { w := 4, h := 1 }) ∧
  decode [0x5000004B#32, 0x00320064#32, 0#32, 0x0002000C#32, 0x01000280#32, 0x01E00000#32] =
    .instr (.fragRaw { pass := true, semi := true, dither := false } .bpp4
      { target := { x := 100, y := 50 }, shade := { r := 0, g := 0, b := 0 }, tex := { u := 12, v := 2 }, page := { x := 640, y := 256 },
        clut := { x := 0, y := 480 } }) ∧
  decode [0x7000FF01#32, 0#32, 0x00010004#32] = .instr (.disp24 { x := 0, y := 0 } { w := 4, h := 1 } 255)

/-- Fields that are present but not read have no effect (R91): any two operations that differ only in such fields do the same to every state. The
don't-care fields are decision D20 (log entries 13 and 16). -/
def Obligations.UnreadFieldsHaveNoEffect : Prop :=
  (∀ (fl : DrawFlags) (d d' : BitVec 2) (target : Coord) (shade : Rgb) (t t' : TexCoord) (p p' c c' : Coord) (s : State),
    exec (.fragFlat fl d ⟨target, shade, t, p, c⟩) s = exec (.fragFlat fl d' ⟨target, shade, t', p', c'⟩) s) ∧
  (∀ (fl : DrawFlags) (a : FragArgs) (c : Coord) (s : State),
    exec (.fragRaw fl .bpp16 a) s = exec (.fragRaw fl .bpp16 { a with clut := c }) s ∧
    exec (.fragMod fl .bpp16 a) s = exec (.fragMod fl .bpp16 { a with clut := c }) s) ∧
  (∀ (fl : DrawFlags) (d d' : BitVec 2) (a : DrawArgs) (p c : Coord) (verts : List Vertex) (s : State),
    verts.map vertexUntextured = a.verts.map vertexUntextured →
      exec (.drawFlat fl d a) s = exec (.drawFlat fl d' ⟨a.kind, p, c, verts⟩) s) ∧
  (∀ (fl : DrawFlags) (a : DrawArgs) (c : Coord) (s : State),
    exec (.drawRaw fl .bpp16 a) s = exec (.drawRaw fl .bpp16 { a with clut := c }) s ∧
    exec (.drawMod fl .bpp16 a) s = exec (.drawMod fl .bpp16 { a with clut := c }) s)

/-- Records that no descriptor encodes are refused (R223): an upload whose buffer does not fit, a primitive without vertices or with more than
fifteen. Decisions D6 and D20 (log entry 6). -/
def Obligations.IllFormedRecordsAreRefused : Prop :=
  ∀ (i : Instr) (s : State), i.wf = false → exec i s = .refused .illFormedRecord

/-! ### Addresses, point access, block transfer -/

/-- `Addr` (R49): inside the plane the cell itself under every policy; outside it a violation, the remainder, or the nearest cell. The three policies
are decision D4 (log entry 7). -/
def Obligations.AddrFollowsThePolicy : Prop :=
  ∀ (p : OobPolicy) (kind : Access) (x y : Int),
    if insidePlane x y then ∃ c, addr p kind x y = .ok c ∧ isCell x y c = true
    else
      match p with
      | .fault => addr p kind x y = .error (.outOfBounds kind x y)
      | .wrap => ∃ c, addr p kind x y = .ok c ∧ isCell (x % 1024) (y % 512) c = true
      | .clamp => ∃ c, addr p kind x y = .ok c ∧ isCell (min 1023 (max 0 x)) (min 511 (max 0 y)) c = true

/-- VWR inside the plane (R181): the cell holds the value, every byte outside the cell and every other part of the state is as before. The bytes a
cell is made of are the model's form of the plane (log entry 1). -/
def Obligations.VwrWritesItsCellOnly : Prop :=
  ∀ (cell : Coord) (value : Cell) (s : State) (c : CellAddr), isCell cell.x.toNat cell.y.toNat c = true →
    ∃ V, exec (.vwr cell value) s = .next { s with plane := V } ∧ V.epoch = s.plane.epoch ∧ readCell Config.params V c = value ∧
      ∀ a, byteOfCell c a = false → readByte Config.params V a = readByte Config.params s.plane a

/-- VRD inside the plane (R182): the value of the cell is returned and nothing else changes. That a result joins the list of outputs is the model's
(log entry 3). -/
def Obligations.VrdReturnsItsCell : Prop :=
  ∀ (cell : Coord) (s : State) (c : CellAddr), isCell cell.x.toNat cell.y.toNat c = true →
    exec (.vrd cell) s = .next { s with outputs := s.outputs ++ [.value (readCell Config.params s.plane c)] }

/-- Point access outside the plane, under each policy (R49, R181, R182): a violation with the plane unchanged and nothing returned, or the access of
the wrapped or the clamped cell. Decisions D4 and D5 (log entries 7 and 14). -/
def Obligations.PointAccessOutsideThePlane : Prop :=
  ∀ (cell : Coord) (value : Cell) (s : State), insidePlane cell.x.toNat cell.y.toNat = false →
    match Config.oobPolicy with
    | .fault =>
      let t := { s with fault := true, lastViolation := some (.outOfBounds .transfer cell.x.toNat cell.y.toNat) }
      exec (.vwr cell value) s = .next t ∧ exec (.vrd cell) s = .next t
    | .wrap => ∃ c, isCell (cell.x.toNat % 1024) (cell.y.toNat % 512) c = true ∧
        exec (.vwr cell value) s = .next { s with plane := writeCell s.plane c value } ∧
        exec (.vrd cell) s = .next { s with outputs := s.outputs ++ [.value (readCell Config.params s.plane c)] }
    | .clamp => ∃ c, isCell (min 1023 cell.x.toNat) (min 511 cell.y.toNat) c = true ∧
        exec (.vwr cell value) s = .next { s with plane := writeCell s.plane c value } ∧
        exec (.vrd cell) s = .next { s with outputs := s.outputs ++ [.value (readCell Config.params s.plane c)] }

/-- UPLD of a rectangle inside the plane (R184): cell (i, j) of the rectangle holds element j × w + i, every byte outside the rectangle and every
other part of the state is as before. The row-major order is decision D17 (log entry 20). -/
def Obligations.UpldWritesTheRectangleOnly : Prop :=
  ∀ (origin : Coord) (size : Size) (buf : List Cell) (s : State), bufferFits size buf = true → rectInside origin size = true →
    ∃ V, exec (.upld origin size buf) s = .next { s with plane := V } ∧ V.epoch = s.plane.epoch ∧
      (∀ (i j : Nat) (c : CellAddr), i < size.w.toNat → j < size.h.toNat →
        isCell (origin.x.toNat + i) (origin.y.toNat + j) c = true → some (readCell Config.params V c) = buf[j * size.w.toNat + i]?) ∧
      ∀ a, (∀ c, cellInRect origin size c = true → byteOfCell c a = false) →
        readByte Config.params V a = readByte Config.params s.plane a

/-- DNLD of a rectangle inside the plane (R186): element j × w + i of the returned buffer is cell (i, j), and nothing else changes. The row-major
order is decision D17 (log entry 20). -/
def Obligations.DnldReturnsTheRectangle : Prop :=
  ∀ (origin : Coord) (size : Size) (s : State), rectInside origin size = true →
    ∃ buf, exec (.dnld origin size) s = .next { s with outputs := s.outputs ++ [.buffer buf] } ∧
      buf.length = size.w.toNat * size.h.toNat ∧
      ∀ (i j : Nat) (c : CellAddr), i < size.w.toNat → j < size.h.toNat →
        isCell (origin.x.toNat + i) (origin.y.toNat + j) c = true → buf[j * size.w.toNat + i]? = some (readCell Config.params s.plane c)

/-- An upload followed by a download of the same rectangle inside the plane returns the buffer, element for element (R187). Derived in the spec
itself. -/
def Obligations.UploadThenDownloadReturnsTheBuffer : Prop :=
  ∀ (origin : Coord) (size : Size) (buf : List Cell) (s : State), bufferFits size buf = true → rectInside origin size = true →
    ∃ t, runOps [.upld origin size buf, .dnld origin size] s = .next t ∧ t.outputs = s.outputs ++ [.buffer buf]

/-- Transfers and display pulls with w = 0 or h = 0 touch no cell and raise nothing, wherever the origin (R188, R203, R207): nothing changes but that
the empty buffer, or the image without a pixel, is returned. Decision D28 (log entry 20). -/
def Obligations.EmptyRegionsTouchNothing : Prop :=
  ∀ (origin : Coord) (size : Size) (fade : Byte) (s : State), size.w = 0#16 ∨ size.h = 0#16 →
    exec (.upld origin size []) s = .next s ∧
    exec (.dnld origin size) s = .next { s with outputs := s.outputs ++ [.buffer []] } ∧
    ∃ rows, (∀ row ∈ rows, row = []) ∧
      exec (.disp15 origin size fade) s = .next { s with outputs := s.outputs ++ [.image rows] } ∧
      exec (.disp24 origin size fade) s = .next { s with outputs := s.outputs ++ [.image rows] }

/-- Under the policy `fault` an upload stops at the first cell outside the plane, in row-major order: the elements before it stay written, nothing
after it is (R184, R222). Decisions D5, D7 and D17 (log entries 14 and 20). -/
def Obligations.UploadStopsAtTheFirstCellOutside : Prop :=
  ∀ (P : Params) (V : Plane) (origin : Coord) (size : Size) (buf : List Cell) (k : Nat), P.oobPolicy = .fault → bufferFits size buf = true →
    k < size.w.toNat * size.h.toNat →
    (∀ m, m < k → insidePlane (origin.x.toNat + m % size.w.toNat) (origin.y.toNat + m / size.w.toNat) = true) →
    insidePlane (origin.x.toNat + k % size.w.toNat) (origin.y.toNat + k / size.w.toNat) = false →
      (blockUpload P V origin size buf).2 =
        some (.outOfBounds .transfer (origin.x.toNat + k % size.w.toNat) (origin.y.toNat + k / size.w.toNat)) ∧
      (∀ (m : Nat) (c : CellAddr), m < k → isCell (origin.x.toNat + m % size.w.toNat) (origin.y.toNat + m / size.w.toNat) c = true →
        some (readCell P (blockUpload P V origin size buf).1 c) = buf[m]?) ∧
      ∀ a, (∀ (m : Nat) (c : CellAddr), m < k →
          isCell (origin.x.toNat + m % size.w.toNat) (origin.y.toNat + m / size.w.toNat) c = true → byteOfCell c a = false) →
        readByte P (blockUpload P V origin size buf).1 a = readByte P V a

/-- What an upload leaves unchanged, on every path: every byte outside the cells its rectangle addresses, the number of resets, the returned results,
the list of submissions and the draw counter; and `FAULT`, unless it raises. Decisions D4 and D5 (log entries 7 and 14). -/
def Obligations.UpldFrame : Prop :=
  ∀ (origin : Coord) (size : Size) (buf : List Cell) (s t : State), exec (.upld origin size buf) s = .next t →
    t.plane.epoch = s.plane.epoch ∧ t.outputs = s.outputs ∧ t.pending = s.pending ∧ t.drawCount = s.drawCount ∧
    (t.fault = s.fault ∨ t.fault = true) ∧
    ∀ a, (∀ xy ∈ rectCells origin size, ∀ c, addr Config.params.oobPolicy .transfer xy.1 xy.2 = .ok c → byteOfCell c a = false) →
      readByte Config.params t.plane a = readByte Config.params s.plane a

/-- The reading operations leave the plane as it was on every path (R53), and end either with one more result and nothing else changed, or with a
violation and no result (R221). Decision D5 (log entry 14). -/
def Obligations.ReadersReturnOneResultOrRaise : Prop :=
  ∀ (i : Instr) (s : State), writesPlane i = false →
    (∃ o, exec i s = .next { s with outputs := s.outputs ++ [o] }) ∨
    (∃ v, exec i s = .next { s with fault := true, lastViolation := some v })

/-- No address has a side effect on read (R53): a reading operation leaves every cell as it was, and may be repeated or left out: whatever operation
follows leaves the same plane and returns the same results as it would without it. -/
def Obligations.ReadsMayBeRepeatedOrLeftOut : Prop :=
  ∀ (i j : Instr) (s t u : State), writesPlane i = false → exec i s = .next t → exec j s = .next u →
    (∀ c, readCell Config.params t.plane c = readCell Config.params s.plane c) ∧
    ∃ u' returned, exec j t = .next u' ∧ u'.plane = u.plane ∧ u.outputs = s.outputs ++ returned ∧ u'.outputs = t.outputs ++ returned

/-- Under the policy `fault` a download with a cell outside the plane returns nothing and sets `FAULT` (R186, R221). Decisions D4 and D5 (log entries
7 and 14). -/
def Obligations.DownloadOutsideThePlaneReturnsNothing : Prop :=
  ∀ (P : Params) (origin : Coord) (size : Size) (s : State), P.oobPolicy = .fault →
    (∃ xy ∈ rectCells origin size, insidePlane xy.1 xy.2 = false) →
      ∃ x y, insidePlane x y = false ∧
        s.finishRead ((blockDownload P s.plane origin size).map .buffer) =
          { s with fault := true, lastViolation := some (.outOfBounds .transfer x y) }

/-! ### Colour codec -/

/-- For every cell value, under either direction of a tie, packing its unpacked colour gives it back (R108). -/
def Obligations.PackUndoesUnpack : Prop :=
  ∀ (t : RoundTie) (v : Cell), pack t (unpack v) = v

/-- `PACK` of a colour of the unit cube (R103): the cell whose bits 4:0, 9:5 and 14:10 are the channels times 31, rounded, and whose bit 15 is the
rounded alpha; `round` gives a nearest integer, the only one unless two are equally near (R10). -/
def Obligations.PackRoundsEachChannel : Prop :=
  ∀ (t : RoundTie) (c : Colour), 0 ≤ c.r → c.r ≤ 1 → 0 ≤ c.g → c.g ≤ 1 → 0 ≤ c.b → c.b ≤ 1 → 0 ≤ c.a → c.a ≤ 1 →
    ((pack t c).toNat : Int) = 32768 * roundQ t c.a + 1024 * roundQ t (31 * c.b) + 32 * roundQ t (31 * c.g) + roundQ t (31 * c.r) ∧
    ∀ q : ℚ, |(roundQ t q : ℚ) - q| ≤ 1 / 2

/-- The level thresholds (R105): under half_up, a channel in [0, 1] packs to level n exactly between (2n − 1)/62 and (2n + 1)/62, the lower bound
included; under half_even the boundary goes to the even neighbour. Derived in the spec itself; half_up is decision D3 (log entry 8). -/
def Obligations.LevelThresholds : Prop :=
  ∀ (c : ℚ) (n : Nat), 0 ≤ c → c ≤ 1 → n ≤ 31 →
    ((levelOf .halfUp c).toNat = n ↔ (2 * (n : ℚ) - 1) / 62 ≤ c ∧ c < (2 * (n : ℚ) + 1) / 62) ∧
    ((levelOf .halfEven c).toNat = n ↔
      ((2 * (n : ℚ) - 1) / 62 < c ∨ c = (2 * (n : ℚ) - 1) / 62 ∧ n % 2 = 0) ∧
      (c < (2 * (n : ℚ) + 1) / 62 ∨ c = (2 * (n : ℚ) + 1) / 62 ∧ n % 2 = 0))

/-- Packing then unpacking a colour of the unit cube gives the colour back exactly when its channels are multiples of 1/31 and its alpha is 0 or 1,
and otherwise a nearest such colour, channel by channel (R109). Derived in the spec itself. -/
def Obligations.UnpackOfPackIsTheNearestColour : Prop :=
  ∀ (t : RoundTie) (c : Colour), 0 ≤ c.r → c.r ≤ 1 → 0 ≤ c.g → c.g ≤ 1 → 0 ≤ c.b → c.b ≤ 1 → 0 ≤ c.a → c.a ≤ 1 →
    (unpack (pack t c) = c ↔ ∃ v, unpack v = c) ∧
    |(unpack (pack t c)).r - c.r| ≤ 1 / 62 ∧ |(unpack (pack t c)).g - c.g| ≤ 1 / 62 ∧ |(unpack (pack t c)).b - c.b| ≤ 1 / 62 ∧
    |(unpack (pack t c)).a - c.a| ≤ 1 / 2

/-- The integer form for channels of 8-bit origin (R107), under either direction of a tie (R106). Derived in the spec itself; s/255 is decision D14
(log entry 17). -/
def Obligations.EightBitChannelLevels : Prop :=
  ∀ (t : RoundTie) (k : Nat), k ≤ 255 → (levelOf t ((k : ℚ) / 255)).toNat = (62 * k + 255) / 510

/-- For every FRAG descriptor the direction of a tie cannot be seen (R106), whatever the other parameters. Derived in the spec itself (log entry 8).
-/
def Obligations.TieDirectionIsUnobservableInFrag : Prop :=
  ∀ (P : Params) (V : Plane) (fl : DrawFlags) (blend : BlendMode) (depth : DepthMode) (a : FragArgs),
    fragOp { P with roundTie := .halfUp } fl.pass V (fragmentOf fl blend depth a) =
      fragOp { P with roundTie := .halfEven } fl.pass V (fragmentOf fl blend depth a)

/-! ### Texture unit and dither -/

/-- The closed form (R127): only the floors of the texel coordinates matter. Derived in the spec itself. -/
def Obligations.OffsetAndAlignClosedForm : Prop :=
  ∀ (d : DepthMode) (tx ty : ℚ),
    offsetX d tx = ⌊tx⌋ / (tpc d : Int) % 256 ∧ offsetY ty = ⌊ty⌋ % 256 ∧ (texelAlign d tx : Int) = ⌊tx⌋ % (tpc d : Int)

/-- Page wraparound (R130): the texel cell lies in the 256 × 256 square of the page, and 256 rows or 256 × tpc texels further the same texel is
resolved. Derived in the spec itself; it follows conflicts C1 and C2 (log entry 19). -/
def Obligations.TexturePageWrapsAt256 : Prop :=
  ∀ (P : Params) (V : Plane) (f : Fragment),
    ((f.page.x.toNat : Int) ≤ (texCell f.page f.depth f.tx f.ty).1 ∧ (texCell f.page f.depth f.tx f.ty).1 < f.page.x.toNat + 256 ∧
      (f.page.y.toNat : Int) ≤ (texCell f.page f.depth f.tx f.ty).2 ∧ (texCell f.page f.depth f.tx f.ty).2 < f.page.y.toNat + 256) ∧
    resolveTexel P V { f with ty := f.ty + 256 } = resolveTexel P V f ∧
    resolveTexel P V { f with tx := f.tx + 256 * (tpc f.depth : ℚ) } = resolveTexel P V f

/-- The palette index of the texel at place k of a cell, low-order first: the two bytes of format TEX8 (R72), the four nibbles of format TEX4 (R73),
the source's own example among them. -/
def Obligations.PaletteIndexIsLowOrderFirst : Prop :=
  (∀ raw : Cell, paletteIndex .bpp8 raw 0 = (raw.extractLsb' 0 8).toNat ∧ paletteIndex .bpp8 raw 1 = (raw.extractLsb' 8 8).toNat ∧
    paletteIndex .bpp4 raw 0 = (raw.extractLsb' 0 4).toNat ∧ paletteIndex .bpp4 raw 1 = (raw.extractLsb' 4 4).toNat ∧
    paletteIndex .bpp4 raw 2 = (raw.extractLsb' 8 4).toNat ∧ paletteIndex .bpp4 raw 3 = (raw.extractLsb' 12 4).toNat) ∧
  paletteIndex .bpp4 0xABCD#16 0 = 0xD ∧ paletteIndex .bpp4 0xABCD#16 3 = 0xA

/-- The table of the dithering unit, row by row, for every position in the plane and outside it (R171, R172); the increment is the entry over 255, and
zero when the flag is 0 (R172, R176); the entry depends on the position modulo four only (R174). -/
def Obligations.DitherIsTheFixedTable : Prop :=
  (∀ (x y : Int) (i j : Nat), x % 4 = i → y % 4 = j →
    ([[-4, 0, -3, 1], [2, -2, 3, -1], [-3, 1, -4, 0], [3, -1, 2, -2]] : List (List Int))[j]?.bind (fun row => row[i]?) = some (dither x y)) ∧
  ∀ x y : Int, ditherStep true x y = (dither x y : ℚ) / 255 ∧ ditherStep false x y = 0 ∧
    dither (x + 4) y = dither x y ∧ dither x (y + 4) = dither x y

/-! ### Fragments -/

/-- FRAG.FLAT on a cell of the plane (R142, R143, R154): written in the pass its flag names, otherwise nothing changes. In pass 0 the cell becomes the
packed colour, alpha 1; in pass 1 the open `SEMI_BLEND` of the old cell and the colour. Rests on decisions D3, D9, D10, D11 and D12 (log entries 8,
10, 11, 15, 18). -/
def Obligations.FragFlatWritesItsPixel : Prop :=
  ∀ (fl : DrawFlags) (dshift : BitVec 2) (a : FragArgs) (s : State) (c : CellAddr), isCell a.target.x.toNat a.target.y.toNat c = true →
    let d : ℚ := if fl.dither then (dither c.x.val c.y.val : ℚ) / 255 else 0
    let out : Colour :=
      { r := clamp01 ((a.shade.r.toNat : ℚ) / 255 + d), g := clamp01 ((a.shade.g.toNat : ℚ) / 255 + d)
        b := clamp01 ((a.shade.b.toNat : ℚ) / 255 + d), a := 1 }
    exec (.fragFlat fl dshift a) s = .next
      (if fl.semi ≠ fl.pass then s
       else if fl.pass then { s with plane := writeCell s.plane c (Config.semiBlend (readCell Config.params s.plane c) out) }
       else { s with plane := writeCell s.plane c (pack .halfUp out) })

/-- FRAG.RAW whose target, texel cell and (at the paletted depths) CLUT cell are cells of the plane (R129, R144, R146, R147, R154): the sentinel and
the wrong pass change nothing; in pass 0 the cell becomes exactly the resolved texel, whatever the dither flag (R162); in pass 1 the open `SEMI_BLEND`
of the old cell and the dithered texel colour. Rests on decisions D10, D11, D12 and D25 (log entries 11, 15, 18, 19). -/
def Obligations.FragRawWritesTheTexel : Prop :=
  ∀ (fl : DrawFlags) (depth : DepthMode) (a : FragArgs) (s : State) (c tc cc : CellAddr),
    isCell a.target.x.toNat a.target.y.toNat c = true →
    isCell (a.page.x.toNat + a.tex.u.toNat / tpc depth % 256 : Nat) (a.page.y.toNat + a.tex.v.toNat % 256 : Nat) tc = true →
    (depth ≠ .bpp16 → isCell (a.clut.x.toNat + paletteIndex depth (readCell Config.params s.plane tc) (a.tex.u.toNat % tpc depth) : Nat)
      a.clut.y.toNat cc = true) →
    let t : Cell := if depth = .bpp16 then readCell Config.params s.plane tc else readCell Config.params s.plane cc
    let d : ℚ := if fl.dither then (dither c.x.val c.y.val : ℚ) / 255 else 0
    let out : Colour :=
      { r := clamp01 (((redLevel t).toNat : ℚ) / 31 + d), g := clamp01 (((greenLevel t).toNat : ℚ) / 31 + d)
        b := clamp01 (((blueLevel t).toNat : ℚ) / 31 + d), a := if maskBit t then 1 else 0 }
    exec (.fragRaw fl depth a) s = .next
      (if t = 0x0000#16 then s
       else if (maskBit t && fl.semi) ≠ fl.pass then s
       else if fl.pass then { s with plane := writeCell s.plane c (Config.semiBlend (readCell Config.params s.plane c) out) }
       else { s with plane := writeCell s.plane c t })

/-- FRAG.MOD whose target, texel cell and (at the paletted depths) CLUT cell are cells of the plane (R129, R144, R146, R148, R154): as FRAG.RAW, with
each channel of the texel multiplied by twice the shading channel and clamped before the dither. Rests on decisions D3, D10, D11, D12 and D25 (log
entries 8, 11, 15, 18, 19). -/
def Obligations.FragModWritesTheModulatedTexel : Prop :=
  ∀ (fl : DrawFlags) (depth : DepthMode) (a : FragArgs) (s : State) (c tc cc : CellAddr),
    isCell a.target.x.toNat a.target.y.toNat c = true →
    isCell (a.page.x.toNat + a.tex.u.toNat / tpc depth % 256 : Nat) (a.page.y.toNat + a.tex.v.toNat % 256 : Nat) tc = true →
    (depth ≠ .bpp16 → isCell (a.clut.x.toNat + paletteIndex depth (readCell Config.params s.plane tc) (a.tex.u.toNat % tpc depth) : Nat)
      a.clut.y.toNat cc = true) →
    let t : Cell := if depth = .bpp16 then readCell Config.params s.plane tc else readCell Config.params s.plane cc
    let d : ℚ := if fl.dither then (dither c.x.val c.y.val : ℚ) / 255 else 0
    let channel (shade : Byte) (level : BitVec 5) : ℚ :=
      clamp01 (clamp01 (2 * ((shade.toNat : ℚ) / 255) * ((level.toNat : ℚ) / 31)) + d)
    let out : Colour :=
      { r := channel a.shade.r (redLevel t), g := channel a.shade.g (greenLevel t), b := channel a.shade.b (blueLevel t)
        a := if maskBit t then 1 else 0 }
    exec (.fragMod fl depth a) s = .next
      (if t = 0x0000#16 then s
       else if (maskBit t && fl.semi) ≠ fl.pass then s
       else if fl.pass then { s with plane := writeCell s.plane c (Config.semiBlend (readCell Config.params s.plane c) out) }
       else { s with plane := writeCell s.plane c (pack .halfUp out) })

/-- What FRAG leaves unchanged, on every path (R54, R155, R222): every byte outside the target cell, the number of resets, the results, the
submissions and the draw counter; and it raises only with the plane unchanged. Rests on decisions D4, D5 and D7 (log entries 7 and 14). -/
def Obligations.FragFrame : Prop :=
  ∀ (i : Instr) (a : FragArgs) (s t : State),
    (∃ fl, (∃ d, i = .fragFlat fl d a) ∨ (∃ d, i = .fragRaw fl d a) ∨ (∃ d, i = .fragMod fl d a)) → exec i s = .next t →
      t.plane.epoch = s.plane.epoch ∧ t.outputs = s.outputs ∧ t.pending = s.pending ∧ t.drawCount = s.drawCount ∧
      (t.fault = s.fault ∧ t.lastViolation = s.lastViolation ∨ t.fault = true ∧ t.plane = s.plane) ∧
      ∀ b, (∀ c, addr Config.params.oobPolicy .target a.target.x.toNat a.target.y.toNat = .ok c → byteOfCell c b = false) →
        readByte Config.params t.plane b = readByte Config.params s.plane b

/-- Which pass draws a fragment (R143, R144, R146). Without texture: the pass its flag names, and not the other. With texture, t its resolved texel:
if t is 0x0000, neither pass; for every other value, 0x8000 among them, the pass equal to the mask bit of t AND the flag, and not the other. -/
def Obligations.FragIsDrawnInItsPassOnly : Prop :=
  ∀ (P : Params) (V : Plane) (f : Fragment),
    (f.blend = .noTexture → ∃ out, frag P V f f.semi = .ok (some out) ∧ frag P V f (!f.semi) = .ok none) ∧
    ∀ t : Cell, f.blend ≠ .noTexture → resolveTexel P V f = .ok t →
      (t = 0x0000#16 → ∀ pass, frag P V f pass = .ok none) ∧
      (t ≠ 0x0000#16 → ∃ out, frag P V f (t.getLsbD 15 && f.semi) = .ok (some out) ∧ frag P V f (!(t.getLsbD 15 && f.semi)) = .ok none)

/-- Two-pass exclusivity (R156): each pass draws exactly the pixels of the single-pass reference whose effective semi-transparency is that pass, with
the reference's colour. Derived in the spec itself. -/
def Obligations.PassesPartitionTheSinglePass : Prop :=
  ∀ (P : Params) (V : Plane) (f : Fragment),
    match fragSinglePass P V f with
    | .error v => ∀ pass, frag P V f pass = .error v
    | .ok none => ∀ pass, frag P V f pass = .ok none
    | .ok (some (eff, out)) => frag P V f eff = .ok (some out) ∧ frag P V f (!eff) = .ok none

/-- `Frag` returns a normalized colour: channels in [0, 1], alpha 0 or 1 (R140, R150). Rests on decision D10 (log entry 15). -/
def Obligations.FragColourIsNormalized : Prop :=
  ∀ (P : Params) (V : Plane) (f : Fragment) (pass : Bool) (c : Colour), frag P V f pass = .ok (some c) →
    0 ≤ c.r ∧ c.r ≤ 1 ∧ 0 ≤ c.g ∧ c.g ≤ 1 ∧ 0 ≤ c.b ∧ c.b ≤ 1 ∧ (c.a = 0 ∨ c.a = 1)

/-- The clamp at the modulation cannot be seen in a packed level (R161): a modulated channel packs to the same level with and without it, at every
entry of the dither table. Derived in the spec itself. -/
def Obligations.InnerClampIsInvisibleInThePackedLevel : Prop :=
  ∀ (t : RoundTie) (shade : Byte) (level : BitVec 5) (x y : Int) (flag : Bool),
    levelOf t (modulate (channelOfByte shade) (channelOfLevel level) + ditherStep flag x y) =
      levelOf t (2 * channelOfByte shade * channelOfLevel level + ditherStep flag x y)

/-- Where FRAG raises under the policy `fault` (R154, R224): at its target, before any read and whether or not the fragment would be discarded; with
its target in the plane and a texture, at its texel cell; with the texel cell in the plane and a palette, at its CLUT cell. Each time `FAULT` is set
and nothing else changes but the recorded violation. The addresses are those of the pseudocode of R129. Rests on decisions D4, D5, D7 and D25 and on
conflicts C1 and C2 (log entries 7, 14, 19). -/
def Obligations.FragChecksItsTargetFirst : Prop :=
  ∀ (P : Params) (pass : Bool) (s : State) (f : Fragment), P.oobPolicy = .fault →
    let raises (v : Violation) : Prop :=
      fragOp P pass s.plane f = .error v ∧ fragState P f pass s = { s with fault := true, lastViolation := some v }
    let tpcQ : ℚ := (tpc f.depth : ℚ)
    let texelX : Int := f.page.x.toNat + ⌊f.tx / tpcQ⌋ % 256
    let texelY : Int := f.page.y.toNat + ⌊f.ty⌋ % 256
    (insidePlane f.x f.y = false → raises (.outOfBounds .target f.x f.y)) ∧
    (insidePlane f.x f.y = true → f.blend ≠ .noTexture → insidePlane texelX texelY = false → raises (.outOfBounds .texel texelX texelY)) ∧
    ∀ tc : CellAddr, insidePlane f.x f.y = true → f.blend ≠ .noTexture → f.depth ≠ .bpp16 → isCell texelX texelY tc = true →
      let index := paletteIndex f.depth (readCell P s.plane tc) ⌊Int.fract (f.tx / tpcQ) * tpcQ⌋.toNat
      insidePlane (f.clut.x.toNat + index : Nat) f.clut.y.toNat = false →
        raises (.outOfBounds .clut (f.clut.x.toNat + index : Nat) f.clut.y.toNat)

/-! ### Primitives -/

/-- DRAW, in its three forms (R158): each covered position is processed once, as one FRAG, in some order, against the plane the earlier ones left; a
violation stops it and what was written stays (R222). The order is free (log entry 9). Rests on decisions D5, D15 and D16 (log entries 9, 12, 13, 14).
-/
def Obligations.DrawRunsFragOncePerCoveredPixel : Prop :=
  ∀ (fl : DrawFlags) (dshift : BitVec 2) (depth : DepthMode) (a : DrawArgs) (s : State), 1 ≤ a.verts.length → a.verts.length ≤ 15 →
    ∀ (i : Instr) (p : Primitive),
      (i = .drawFlat fl dshift a ∧ p = primitiveOf fl .noTexture depthUnread a ∨
        i = .drawRaw fl depth a ∧ p = primitiveOf fl .rawTexture depth a ∨
        i = .drawMod fl depth a ∧ p = primitiveOf fl .textureBlend depth a) →
      ∃ order : List (Int × Int), order.Nodup ∧ (∀ xy, xy ∈ order ↔ xy ∈ Config.cover a.kind (a.verts.map vertexPos)) ∧
        ∃ V e, writeEach (fragOp Config.params fl.pass) s.plane (order.map (fragmentAt Config.params p)) = (V, e) ∧
          exec i s = .next { s with plane := V, drawCount := s.drawCount + 1, fault := s.fault || e.isSome,
                                    lastViolation := e.or s.lastViolation }

/-- What DRAW leaves unchanged, on every path: every byte outside the covered cells, the number of resets, the results and the submissions; and
`FAULT`, unless it raises. Rests on decisions D4, D5 and D15 (log entries 7, 12, 14). -/
def Obligations.DrawFrame : Prop :=
  ∀ (i : Instr) (a : DrawArgs) (s t : State),
    (∃ fl, (∃ d, i = .drawFlat fl d a) ∨ (∃ d, i = .drawRaw fl d a) ∨ (∃ d, i = .drawMod fl d a)) → exec i s = .next t →
      t.plane.epoch = s.plane.epoch ∧ t.outputs = s.outputs ∧ t.pending = s.pending ∧ t.drawCount = s.drawCount + 1 ∧
      (t.fault = s.fault ∨ t.fault = true) ∧
      ∀ b, (∀ xy ∈ Config.cover a.kind (a.verts.map vertexPos), ∀ c, addr Config.params.oobPolicy .target xy.1 xy.2 = .ok c →
          byteOfCell c b = false) →
        readByte Config.params t.plane b = readByte Config.params s.plane b

/-- A flat-shaded untextured primitive whose covered positions lie in the plane, drawn in pass 0, whatever the cover and the order: every covered cell
holds the packed dithered colour, every other byte is as before, and nothing is raised (R142, R152, R158, R159). Rests on decisions D9, D10, D12 and
D15 (log entries 10, 12, 13, 15, 18). -/
def Obligations.FlatPrimitiveFillsItsCover : Prop :=
  ∀ (P : Params) (fl : DrawFlags) (a : DrawArgs) (col : Rgb) (s : State), fl.pass = false → fl.semi = false →
    a.verts ≠ [] → (∀ v ∈ a.verts, v.colour = col) →
    (∀ xy ∈ P.cover a.kind (a.verts.map vertexPos), insidePlane xy.1 xy.2 = true) →
    ∃ V, drawState P (primitiveOf fl .noTexture depthUnread a) fl.pass s = { s with plane := V, drawCount := s.drawCount + 1 } ∧
      (∀ xy ∈ P.cover a.kind (a.verts.map vertexPos), ∀ c, isCell xy.1 xy.2 c = true →
        readCell P V c = pack P.roundTie
          { r := clamp01 (channelOfByte col.r + ditherStep fl.dither xy.1 xy.2)
            g := clamp01 (channelOfByte col.g + ditherStep fl.dither xy.1 xy.2)
            b := clamp01 (channelOfByte col.b + ditherStep fl.dither xy.1 xy.2), a := alphaOfBit P.flatAlpha }) ∧
      ∀ b, (∀ xy ∈ P.cover a.kind (a.verts.map vertexPos), ∀ c, isCell xy.1 xy.2 c = true → byteOfCell c b = false) →
        readByte P V b = readByte P s.plane b

/-- If no covered cell of a primitive is also a texel or CLUT cell it reads, every order of its pixels gives the same final plane (R60): stated for
positions in the plane and texels that resolve, since elsewhere a violation stops the primitive or two positions share a cell. The free order is
decision D16 (log entry 9). -/
def Obligations.PixelOrderIsUnobservableWithoutOverlap : Prop :=
  ∀ (P : Params) (p : Primitive) (pass : Bool) (V : Plane) (l₁ l₂ : List (Int × Int)), l₁.Nodup → l₁.Perm l₂ →
    (∀ xy ∈ l₁, insidePlane xy.1 xy.2 = true) →
    (p.blend ≠ .noTexture → ∀ xy ∈ l₁, (∃ t, resolveTexel P V (fragmentAt P p xy) = .ok t) ∧
      ∀ c ∈ texelReads P V (fragmentAt P p xy), ∀ xy' ∈ l₁, isCell xy'.1 xy'.2 c = false) →
    (drawPixels P p pass V l₁).2 = none ∧ (drawPixels P p pass V l₂).2 = none ∧
      ∀ c, readCell P (drawPixels P p pass V l₁).1 c = readCell P (drawPixels P p pass V l₂).1 c

/-- The pixel order is free (R60, D16): every arrangement of the covered positions is the order for some choice of ranks, and no choice gives anything
else. Log entry 9. -/
def Obligations.EveryPixelOrderIsPossible : Prop :=
  ∀ (P : Params) (n : Nat) (p : Primitive) (pass : Bool),
    (∀ l : List (Int × Int), l.Perm (coverOf P p) → ∃ rank, pixelOrder { P with pixelRank := rank } n p pass = l) ∧
    ∀ rank, (pixelOrder { P with pixelRank := rank } n p pass).Perm (coverOf P p)

/-- The requirements R159 puts on `COVER` and `INTERP`, whatever the open parameters: (a) the cover depends on the kind and the vertex positions only;
(b) a primitive whose vertices all carry one colour has that shading colour at every position; (c) every shade channel is in [0, 1]. Decision D15 (log
entries 12 and 13). -/
def Obligations.CoverAndInterpMeetTheirRequirements : Prop :=
  ∀ (P : Params) (p q : Primitive) (xy : Int × Int),
    (p.kind = q.kind → p.verts.map vertexPos = q.verts.map vertexPos → coverOf P p = coverOf P q) ∧
    (∀ col, p.verts ≠ [] → (∀ v ∈ p.verts, v.colour = col) → interpShade P p xy = shadeOfRgb col) ∧
    (0 ≤ (interpShade P p xy).r ∧ (interpShade P p xy).r ≤ 1 ∧ 0 ≤ (interpShade P p xy).g ∧ (interpShade P p xy).g ≤ 1 ∧
      0 ≤ (interpShade P p xy).b ∧ (interpShade P p xy).b ≤ 1)

/-! ### Display -/

/-- DISP15 of a region inside the plane (R202, R203): h rows of w pixels, pixel (i, j) the three levels of its cell over 31 and the fade over 255;
nothing else changes. Rests on decision D19 (log entry 21). -/
def Obligations.Disp15ReturnsTheRegion : Prop :=
  ∀ (origin : Coord) (size : Size) (fade : Byte) (s : State), rectInside origin size = true →
    ∃ rows, exec (.disp15 origin size fade) s = .next { s with outputs := s.outputs ++ [.image rows] } ∧
      rows.length = size.h.toNat ∧ (∀ row ∈ rows, row.length = size.w.toNat) ∧
      ∀ (i j : Nat) (c : CellAddr), i < size.w.toNat → j < size.h.toNat → isCell (origin.x.toNat + i) (origin.y.toNat + j) c = true →
        rows[j]?.bind (fun row => row[i]?) = some
          { r := ((redLevel (readCell Config.params s.plane c)).toNat : ℚ) / 31
            g := ((greenLevel (readCell Config.params s.plane c)).toNat : ℚ) / 31
            b := ((blueLevel (readCell Config.params s.plane c)).toNat : ℚ) / 31, alpha := (fade.toNat : ℚ) / 255 }

/-- DISP24 of a region whose cells lie in the plane (R207, R208, R209): h rows of w pixels, pixel x24 of row j the bytes 3 × x24, 3 × x24 + 1 and 3 ×
x24 + 2 of the region row over 255 and the fade over 255; nothing else changes. The row of w pixels needs ((w − 1) × 3) div 2 + 2 cells. Rests on
decisions D18 and D19 (log entry 21). -/
def Obligations.Disp24ReturnsTheByteStream : Prop :=
  ∀ (origin : Coord) (size : Size) (fade : Byte) (s : State), size.w ≠ 0#16 →
    origin.x.toNat + ((size.w.toNat - 1) * 3 / 2 + 2) ≤ 1024 → origin.y.toNat + size.h.toNat ≤ 512 →
    ∃ rows, exec (.disp24 origin size fade) s = .next { s with outputs := s.outputs ++ [.image rows] } ∧
      rows.length = size.h.toNat ∧ (∀ row ∈ rows, row.length = size.w.toNat) ∧
      ∀ i j : Nat, i < size.w.toNat → j < size.h.toNat →
        let at0 := 2048 * (origin.y.toNat + j) + 2 * origin.x.toNat + 3 * i
        rows[j]?.bind (fun row => row[i]?) = some
          { r := ((readByte Config.params s.plane at0).toNat : ℚ) / 255
            g := ((readByte Config.params s.plane (at0 + 1)).toNat : ℚ) / 255
            b := ((readByte Config.params s.plane (at0 + 2)).toNat : ℚ) / 255, alpha := (fade.toNat : ℚ) / 255 }

/-- The 15-bit display ignores the mask bit (R202, R203): from two states whose cells differ at most in bit 15 it returns the same image, or raises in
both. Rests on decision D19 (log entry 21). -/
def Obligations.Disp15IgnoresTheMaskBit : Prop :=
  ∀ (origin : Coord) (size : Size) (fade : Byte) (s s' : State),
    (∀ c, (readCell Config.params s.plane c).extractLsb' 0 15 = (readCell Config.params s'.plane c).extractLsb' 0 15) →
      display15 Config.params s.plane origin size fade = display15 Config.params s'.plane origin size fade ∧
      ∀ t t', exec (.disp15 origin size fade) s = .next t → exec (.disp15 origin size fade) s' = .next t' → s.outputs = s'.outputs →
        t.outputs = t'.outputs

/-- When the display raises under the policy `fault` (R203, R207, R221): when some cell it reads lies outside the plane. It returns nothing, sets
`FAULT`, and the violation recorded is that of the first such cell in loop order, in the 24-bit mode the first cell of a pixel before the second
(R224). Rests on decisions D4, D5, D7 and D19 (log entries 7, 14, 21). -/
def Obligations.DisplayOutsideThePlaneReturnsNothing : Prop :=
  ∀ (P : Params) (origin : Coord) (size : Size) (fade : Byte) (s : State), P.oobPolicy = .fault →
    let col (k : Nat) : Int := (origin.x.toNat + k : Nat)
    let row (j : Nat) : Int := (origin.y.toNat + j : Nat)
    let raised (x y : Int) : State := { s with fault := true, lastViolation := some (.outOfBounds .display x y) }
    ((∃ i j, i < size.w.toNat ∧ j < size.h.toNat ∧ insidePlane (col i) (row j) = false) →
      ∃ i j, i < size.w.toNat ∧ j < size.h.toNat ∧ insidePlane (col i) (row j) = false ∧
        (∀ i' j', i' < size.w.toNat → j' < j ∨ j' = j ∧ i' < i → insidePlane (col i') (row j') = true) ∧
        s.finishRead ((display15 P s.plane origin size fade).map .image) = raised (col i) (row j)) ∧
    ((∃ i j, i < size.w.toNat ∧ j < size.h.toNat ∧
        (insidePlane (col (i * 3 / 2)) (row j) = false ∨ insidePlane (col (i * 3 / 2 + 1)) (row j) = false)) →
      ∃ i j k, i < size.w.toNat ∧ j < size.h.toNat ∧ insidePlane (col k) (row j) = false ∧
        (k = i * 3 / 2 ∨ k = i * 3 / 2 + 1 ∧ insidePlane (col (i * 3 / 2)) (row j) = true) ∧
        (∀ i' j', i' < size.w.toNat → j' < j ∨ j' = j ∧ i' < i →
          insidePlane (col (i' * 3 / 2)) (row j') = true ∧ insidePlane (col (i' * 3 / 2 + 1)) (row j') = true) ∧
        s.finishRead ((display24 P s.plane origin size fade).map .image) = raised (col k) (row j))
end

