-- ==== Sys2Proof/Laws/Codec.lean ====
section
/-! SUPPORT. The laws of the rational arithmetic (R10), the colour codec (R101 to R111) and the dither table (R171 to R174). -/

namespace Sys2Proof.Machine

/-! ### clamp01 and round -/

theorem clamp01_nonneg (q : ℚ) : 0 ≤ clamp01 q := by
  simp [clamp01]

theorem clamp01_le_one (q : ℚ) : clamp01 q ≤ 1 := by
  simp [clamp01]

/-- A channel already in [0, 1] is left as it is. -/
theorem clamp01_of_mem {q : ℚ} (h0 : 0 ≤ q) (h1 : q ≤ 1) : clamp01 q = q := by
  simp [clamp01, h0, h1]

theorem clamp01_of_nonpos {q : ℚ} (h : q ≤ 0) : clamp01 q = 0 := by
  simp [clamp01, h]

theorem clamp01_of_one_le {q : ℚ} (h : 1 ≤ q) : clamp01 q = 1 := by
  have h0 : (0 : ℚ) ≤ q := le_trans zero_le_one h
  simp [clamp01, h0, h]

@[simp] theorem clamp01_clamp01 (q : ℚ) : clamp01 (clamp01 q) = clamp01 q :=
  clamp01_of_mem (clamp01_nonneg q) (clamp01_le_one q)

/-- An integer rounds to itself, in either direction of a tie. -/
theorem roundQ_intCast (t : RoundTie) (n : Int) : roundQ t (n : ℚ) = n := by
  have h : ⌊(n : ℚ) + 1 / 2⌋ = n := by
    rw [Int.floor_eq_iff]
    constructor <;> linarith
  cases t
  · exact h
  · have hf : Int.fract (n : ℚ) ≠ 1 / 2 := by
      rw [Int.fract_intCast]
      norm_num
    simp only [roundQ, if_neg hf]
    exact h

/-- Every result of `round` is at most one half away (R10). -/
theorem roundQ_near (t : RoundTie) (q : ℚ) : |(roundQ t q : ℚ) - q| ≤ 1 / 2 := by
  have h1 := Int.floor_le (q + 1 / 2)
  have h2 := Int.lt_floor_add_one (q + 1 / 2)
  have h3 := Int.floor_add_fract q
  have key : |((⌊q + 1 / 2⌋ : Int) : ℚ) - q| ≤ 1 / 2 := by
    rw [abs_le]
    constructor <;> linarith
  cases t
  · exact key
  · simp only [roundQ]
    split
    · rename_i hf
      split
      · rw [abs_le]
        constructor <;> linarith
      · push_cast
        rw [abs_le]
        constructor <;> linarith
    · exact key

/-- If the nearest integer is unique, `round` answers it in either direction of a tie. -/
theorem roundQ_unique (t : RoundTie) {q : ℚ} {n : Int} (h : |q - n| < 1 / 2) : roundQ t q = n := by
  have h1 := roundQ_near t q
  rw [abs_lt] at h
  rw [abs_le] at h1
  have h2 : ((roundQ t q : Int) : ℚ) < (n : ℚ) + 1 := by linarith
  have h3 : (n : ℚ) < ((roundQ t q : Int) : ℚ) + 1 := by linarith
  have h4 : roundQ t q < n + 1 := by exact_mod_cast h2
  have h5 : n < roundQ t q + 1 := by exact_mod_cast h3
  omega

/-- Away from a tie the direction of a tie does not matter (R10). -/
theorem roundQ_tie_irrelevant {q : ℚ} (h : Int.fract q ≠ 1 / 2) (t t' : RoundTie) : roundQ t q = roundQ t' q := by
  cases t <;> cases t' <;> simp_all [roundQ]

theorem roundQ_mem {t : RoundTie} {q : ℚ} {n : Nat} (h0 : 0 ≤ q) (h1 : q ≤ n) : 0 ≤ roundQ t q ∧ roundQ t q ≤ n := by
  have h := roundQ_near t q
  rw [abs_le] at h
  constructor
  · have : (-1 : ℚ) < ((roundQ t q : Int) : ℚ) := by linarith
    have h' : (-1 : Int) < roundQ t q := by exact_mod_cast this
    omega
  · have : ((roundQ t q : Int) : ℚ) < (n : ℚ) + 1 := by linarith
    have h' : roundQ t q < (n : Int) + 1 := by exact_mod_cast this
    omega

/-! ### Levels -/

/-- The level of a channel as a number: what `round` answers, which fits 5 bits (R103). -/
theorem levelOf_toNat (t : RoundTie) (c : ℚ) : ((levelOf t c).toNat : Int) = roundQ t (31 * clamp01 c) := by
  have h0 := clamp01_nonneg c
  have h1 := clamp01_le_one c
  have hm := roundQ_mem (t := t) (q := 31 * clamp01 c) (n := 31) (by linarith) (by push_cast; linarith)
  simp only [levelOf, BitVec.toNat_ofInt]
  omega

theorem maskOf_alphaOfBit (t : RoundTie) (b : Bool) : maskOf t (alphaOfBit b) = BitVec.ofBool b := by
  cases b
  · have : clamp01 (alphaOfBit false) = ((0 : Int) : ℚ) := by simp [alphaOfBit, clamp01]
    rw [maskOf, this, roundQ_intCast]
    rfl
  · have : clamp01 (alphaOfBit true) = ((1 : Int) : ℚ) := by simp [alphaOfBit, clamp01]
    rw [maskOf, this, roundQ_intCast]
    rfl

theorem channelOfLevel_mem (n : BitVec 5) : 0 ≤ channelOfLevel n ∧ channelOfLevel n ≤ 1 := by
  have h : (n.toNat : ℚ) ≤ 31 := by exact_mod_cast Nat.le_of_lt_succ n.isLt
  have h0 : (0 : ℚ) ≤ n.toNat := by positivity
  unfold channelOfLevel
  constructor
  · positivity
  · rw [div_le_one (by norm_num)]
    exact h

theorem channelOfByte_mem (s : Byte) : 0 ≤ channelOfByte s ∧ channelOfByte s ≤ 1 := by
  have h : (s.toNat : ℚ) ≤ 255 := by exact_mod_cast Nat.le_of_lt_succ s.isLt
  unfold channelOfByte
  constructor
  · positivity
  · rw [div_le_one (by norm_num)]
    exact h

/-- A channel less than half a level away from a level packs to it, clamped or not (R103). -/
theorem levelOf_near (t : RoundTie) {c : ℚ} {n : BitVec 5} (h : |31 * c - n.toNat| < 1 / 2) : levelOf t c = n := by
  apply BitVec.eq_of_toNat_eq
  have hn : (n.toNat : ℚ) ≤ 31 := by exact_mod_cast Nat.le_of_lt_succ n.isLt
  have hn0 : (0 : ℚ) ≤ n.toNat := by positivity
  have key : |31 * clamp01 c - ((n.toNat : Int) : ℚ)| < 1 / 2 := by
    rw [abs_lt] at h ⊢
    push_cast
    rcases le_total c 0 with h0 | h0
    · rw [clamp01_of_nonpos h0]
      constructor <;> linarith [h.1, h.2]
    · rcases le_total c 1 with h1 | h1
      · rw [clamp01_of_mem h0 h1]
        exact h
      · rw [clamp01_of_one_le h1]
        constructor <;> linarith [h.1, h.2]
  have := levelOf_toNat t c
  rw [roundQ_unique t key] at this
  exact_mod_cast this

theorem levelOf_channelOfLevel (t : RoundTie) (n : BitVec 5) : levelOf t (channelOfLevel n) = n := by
  apply levelOf_near
  have : 31 * channelOfLevel n - n.toNat = 0 := by
    unfold channelOfLevel
    ring
  rw [this]
  norm_num

/-- Clamping a channel does not change its level (R104). -/
theorem levelOf_clamp01 (t : RoundTie) (c : ℚ) : levelOf t (clamp01 c) = levelOf t c := by
  simp [levelOf]

/-- A channel that is an integer over 255 × 31, or lies outside [0, 1], has no tie (R106). -/
theorem levelOf_tie_irrelevant {c : ℚ} {n : Int} (h : 31 * c = (n : ℚ) / 255) (t t' : RoundTie) : levelOf t c = levelOf t' c := by
  have noTie : ∀ m : Int, Int.fract ((m : ℚ) / 255) ≠ 1 / 2 := by
    intro m hm
    have hf := Int.floor_add_fract ((m : ℚ) / 255)
    rw [hm] at hf
    have h1 : (2 : ℚ) * m = 255 * (2 * ⌊(m : ℚ) / 255⌋ + 1) := by linarith
    have h2 : (2 : Int) * m = 255 * (2 * ⌊(m : ℚ) / 255⌋ + 1) := by exact_mod_cast h1
    omega
  have hr : roundQ t (31 * clamp01 c) = roundQ t' (31 * clamp01 c) := by
    apply roundQ_tie_irrelevant
    rcases le_total c 0 with h0 | h0
    · rw [clamp01_of_nonpos h0]
      simp
    · rcases le_total c 1 with h1 | h1
      · rw [clamp01_of_mem h0 h1, h]
        exact noTie n
      · rw [clamp01_of_one_le h1]
        have := noTie (31 * 255)
        push_cast at this
        norm_num at this ⊢
  apply BitVec.eq_of_toNat_eq
  have e1 := levelOf_toNat t c
  have e2 := levelOf_toNat t' c
  omega

/-! ### Cells from their fields -/

/-- A cell is its mask bit and its three levels (R70). -/
theorem cell_of_fields (v : Cell) : BitVec.ofBool (maskBit v) ++ blueLevel v ++ greenLevel v ++ redLevel v = v := by
  apply BitVec.eq_of_getLsbD_eq
  intro i hi
  simp only [maskBit, blueLevel, greenLevel, redLevel, BitVec.getLsbD_append, BitVec.getLsbD_extractLsb', BitVec.getLsbD_ofBool]
  have : i < 5 ∨ (5 ≤ i ∧ i < 10) ∨ (10 ≤ i ∧ i < 15) ∨ i = 15 := by omega
  rcases this with h | h | h | h
  · simp [h]
  · have e : 5 + (i - 5) = i := by omega
    have h1 : ¬ i < 5 := by omega
    have h2 : i - 5 < 5 := by omega
    simp [h1, h2, e]
  · have e : 10 + (i - 5 - 5) = i := by omega
    have h1 : ¬ i < 5 := by omega
    have h2 : ¬ i - 5 < 5 := by omega
    have h3 : i - 5 - 5 < 5 := by omega
    simp [h1, h2, h3, e]
  · subst h
    simp

/-- The colour of a cell, moved by less than half a level in each channel, packs to the cell. -/
theorem pack_near_unpack (t : RoundTie) (v : Cell) (c : Colour) (hr : |31 * c.r - (redLevel v).toNat| < 1 / 2)
    (hg : |31 * c.g - (greenLevel v).toNat| < 1 / 2) (hb : |31 * c.b - (blueLevel v).toNat| < 1 / 2)
    (ha : c.a = alphaOfBit (maskBit v)) : pack t c = v := by
  rw [pack, levelOf_near t hr, levelOf_near t hg, levelOf_near t hb, ha, maskOf_alphaOfBit]
  exact cell_of_fields v

/-! ### The dither table -/

/-- The entries of the table lie in −4 .. 3 (R173). -/
theorem dither_range (x y : Int) : -4 ≤ dither x y ∧ dither x y ≤ 3 := by
  have hx0 := Int.emod_nonneg x (show (4 : Int) ≠ 0 by decide)
  have hx1 := Int.emod_lt_of_pos x (show (0 : Int) < 4 by decide)
  have hy0 := Int.emod_nonneg y (show (4 : Int) ≠ 0 by decide)
  have hy1 := Int.emod_lt_of_pos y (show (0 : Int) < 4 by decide)
  have hk : (y % 4 * 4 + x % 4).toNat < 16 := by omega
  have all : ∀ k : Fin 16, -4 ≤ ditherTable.getD k.val 0 ∧ ditherTable.getD k.val 0 ≤ 3 := by decide
  exact all ⟨_, hk⟩

/-- The increment is at most 4/255 either way (R173). -/
theorem ditherStep_small (flag : Bool) (x y : Int) : |ditherStep flag x y| ≤ 4 / 255 := by
  obtain ⟨h1, h2⟩ := dither_range x y
  have h1' : (-4 : ℚ) ≤ (dither x y : ℚ) := by exact_mod_cast h1
  have h2' : (dither x y : ℚ) ≤ 3 := by exact_mod_cast h2
  cases flag
  · simp [ditherStep]
    norm_num
  · simp only [ditherStep, if_true, mul_one, abs_le]
    constructor <;> linarith

theorem ditherStep_false (x y : Int) : ditherStep false x y = 0 := by simp [ditherStep]

theorem ditherStep_true (x y : Int) : ditherStep true x y = (dither x y : ℚ) / 255 := by simp [ditherStep]

end Sys2Proof.Machine
end

