-- ==== Sys2Proof/Laws/Encode.lean ====
section
/-! SUPPORT. The laws of the descriptor words: each operand word and each header word read back as what was written (R78 to R80, R85 to R87). -/

namespace Sys2Proof

/-! ### Fields of concatenated words -/

/-- The low part of a concatenation. -/
theorem extract_append_low {a b : Nat} (x : BitVec a) (y : BitVec b) : (x ++ y).extractLsb' 0 b = y := by
  apply BitVec.eq_of_getLsbD_eq
  intro i hi
  simp [BitVec.getLsbD_append, hi]

/-- A field above the low part of a concatenation. -/
theorem extract_append_above {a b : Nat} (x : BitVec a) (y : BitVec b) (k n : Nat) :
    (x ++ y).extractLsb' (b + k) n = x.extractLsb' k n := by
  apply BitVec.eq_of_getLsbD_eq
  intro i hi
  have h : ¬ (b + k + i < b) := by omega
  have e : b + k + i - b = k + i := by omega
  simp [BitVec.getLsbD_append, h, e]

/-- The whole of a bit vector as a field. -/
theorem extract_whole {a : Nat} (x : BitVec a) : x.extractLsb' 0 a = x := by
  apply BitVec.eq_of_getLsbD_eq
  intro i hi
  simp [hi]

/-- The high part of a concatenation. -/
theorem extract_append_high {a b : Nat} (x : BitVec a) (y : BitVec b) : (x ++ y).extractLsb' b a = x :=
  (extract_append_above x y 0 a).trans (extract_whole x)

/-- Two adjacent fields are one field. -/
theorem extract_adjacent {a : Nat} (w : BitVec a) (k m n : Nat) :
    w.extractLsb' (k + m) n ++ w.extractLsb' k m = w.extractLsb' k (n + m) := by
  apply BitVec.eq_of_getLsbD_eq
  intro i hi
  rw [BitVec.getLsbD_append]
  by_cases h : i < m
  · have h2 : i < n + m := by omega
    simp [h, h2]
  · have e : k + m + (i - m) = k + i := by omega
    have h2 : i - m < n := by omega
    simp [h, e, h2, hi]

/-- A word is its halves. -/
theorem append_halves (w : Word32) : w.extractLsb' 16 16 ++ w.extractLsb' 0 16 = w :=
  (extract_adjacent w 0 16 16).trans (extract_whole w)

/-- A word is its four bytes. -/
theorem append_bytes (w : Word32) : w.extractLsb' 24 8 ++ w.extractLsb' 16 8 ++ w.extractLsb' 8 8 ++ w.extractLsb' 0 8 = w := by
  have h1 := extract_adjacent w 16 8 8
  have h2 := extract_adjacent w 8 8 (8 + 8)
  have h3 := extract_adjacent w 0 8 (8 + 8 + 8)
  rw [← h1] at h2
  rw [← h2] at h3
  exact h3.trans (extract_whole w)

/-! ### Operand words -/

@[simp] theorem coordOfWord_wordOfCoord (c : Coord) : coordOfWord (wordOfCoord c) = c := by
  cases c
  simp only [coordOfWord, wordOfCoord, Coord.mk.injEq]
  exact ⟨extract_append_low _ _, extract_append_high _ _⟩

@[simp] theorem wordOfCoord_coordOfWord (w : Word32) : wordOfCoord (coordOfWord w) = w := append_halves w

@[simp] theorem sizeOfWord_wordOfSize (z : Size) : sizeOfWord (wordOfSize z) = z := by
  cases z
  simp only [sizeOfWord, wordOfSize, Size.mk.injEq]
  exact ⟨extract_append_low _ _, extract_append_high _ _⟩

@[simp] theorem wordOfSize_sizeOfWord (w : Word32) : wordOfSize (sizeOfWord w) = w := append_halves w

@[simp] theorem texOfWord_wordOfTex (t : TexCoord) : texOfWord (wordOfTex t) = t := by
  cases t
  simp only [texOfWord, wordOfTex, TexCoord.mk.injEq]
  exact ⟨extract_append_low _ _, extract_append_high _ _⟩

@[simp] theorem wordOfTex_texOfWord (w : Word32) : wordOfTex (texOfWord w) = w := append_halves w

@[simp] theorem cellOfWord_wordOfCell (c : Cell) : cellOfWord (wordOfCell c) = some c := by
  have h1 : (wordOfCell c).extractLsb' 16 16 = 0#16 := extract_append_high _ _
  have h2 : (wordOfCell c).extractLsb' 0 16 = c := extract_append_low _ _
  simp [cellOfWord, h1, h2]

theorem wordOfCell_of_some {w : Word32} {c : Cell} (h : cellOfWord w = some c) : wordOfCell c = w := by
  unfold cellOfWord at h
  split at h
  · rename_i h0
    cases h
    rw [wordOfCell, ← h0]
    exact append_halves w
  · cases h

@[simp] theorem rgbOfWord_wordOfRgb (c : Rgb) : rgbOfWord (wordOfRgb c) = some c := by
  obtain ⟨r, g, b⟩ := c
  have h1 : (wordOfRgb ⟨r, g, b⟩).extractLsb' 24 8 = 0#8 :=
    (extract_append_above _ r 16 8).trans ((extract_append_above _ g 8 8).trans (extract_append_high _ b))
  have h2 : (wordOfRgb ⟨r, g, b⟩).extractLsb' 0 8 = r := extract_append_low _ _
  have h3 : (wordOfRgb ⟨r, g, b⟩).extractLsb' 8 8 = g := (extract_append_above _ r 0 8).trans (extract_append_low _ g)
  have h4 : (wordOfRgb ⟨r, g, b⟩).extractLsb' 16 8 = b :=
    (extract_append_above _ r 8 8).trans ((extract_append_above _ g 0 8).trans (extract_append_low _ b))
  simp [rgbOfWord, h1, h2, h3, h4]

theorem wordOfRgb_of_some {w : Word32} {c : Rgb} (h : rgbOfWord w = some c) : wordOfRgb c = w := by
  unfold rgbOfWord at h
  split at h
  · rename_i h0
    cases h
    simp only [wordOfRgb, ← h0]
    exact append_bytes w
  · cases h

@[simp] theorem cellsOfWords_map (l : List Cell) : cellsOfWords (l.map wordOfCell) = .ok l := by
  induction l with
  | nil => rfl
  | cons c l ih => simp [cellsOfWords, ih]

theorem map_wordOfCell_of_ok {ws : List Word32} {l : List Cell} (h : cellsOfWords ws = .ok l) : l.map wordOfCell = ws := by
  induction ws generalizing l with
  | nil =>
    cases h
    rfl
  | cons w ws ih =>
    unfold cellsOfWords at h
    split at h
    · cases h
    · rename_i c hc
      split at h
      · cases h
      · rename_i cs hcs
        cases h
        simp [wordOfCell_of_some hc, ih hcs]

@[simp] theorem vertsOfWords_flatMap (l : List Vertex) : vertsOfWords (l.flatMap wordsOfVertex) = .ok l := by
  induction l with
  | nil => rfl
  | cons v l ih =>
    obtain ⟨vx, vy, c, t⟩ := v
    have h1 : (vy ++ vx).extractLsb' 0 16 = vx := extract_append_low _ _
    have h2 : (vy ++ vx).extractLsb' 16 16 = vy := extract_append_high _ _
    simp only [List.flatMap_cons, wordsOfVertex, List.cons_append, List.nil_append, vertsOfWords, rgbOfWord_wordOfRgb, ih,
      texOfWord_wordOfTex, h1, h2]

/-- A vertex takes three words (R86). -/
theorem length_vertexWords (l : List Vertex) : (l.flatMap wordsOfVertex).length = 3 * l.length := by
  induction l with
  | nil => rfl
  | cons v l ih =>
    rw [List.flatMap_cons, List.length_append, ih]
    simp only [wordsOfVertex, List.length_cons, List.length_nil]
    omega

/-- The number of vertices as the field `NV` (R86). -/
theorem nvField_of_count {l : List Vertex} (h : vertexCountOk l = true) :
    BitVec.ofNat 4 l.length ≠ 0#4 ∧ (BitVec.ofNat 4 l.length).toNat = l.length := by
  simp only [vertexCountOk, Bool.and_eq_true, decide_eq_true_eq] at h
  have hn : (BitVec.ofNat 4 l.length).toNat = l.length := by
    rw [BitVec.toNat_ofNat]
    omega
  refine ⟨fun e => ?_, hn⟩
  rw [e] at hn
  simp only [BitVec.toNat_ofNat] at hn
  omega

/-! ### Header words -/

theorem decodeHeader_fragFlat (fl : DrawFlags) (d : BitVec 2) : decodeHeader (fragHeaderWord fl d 0#2) = some (.fragFlat fl d) := by
  obtain ⟨p, s, di⟩ := fl
  revert d p s di
  decide

theorem decodeHeader_fragRaw (fl : DrawFlags) (d : DepthMode) :
    decodeHeader (fragHeaderWord fl (shiftOfDepth d) 1#2) = some (.fragRaw fl d) := by
  obtain ⟨p, s, di⟩ := fl
  cases d <;> revert p s di <;> decide

theorem decodeHeader_fragMod (fl : DrawFlags) (d : DepthMode) :
    decodeHeader (fragHeaderWord fl (shiftOfDepth d) 2#2) = some (.fragMod fl d) := by
  obtain ⟨p, s, di⟩ := fl
  cases d <;> revert p s di <;> decide

theorem decodeHeader_drawFlat (fl : DrawFlags) (d : BitVec 2) (k : PrimKind) (nv : BitVec 4) (h : nv ≠ 0#4) :
    decodeHeader (drawHeaderWord fl nv (fieldOfKind k) d 0#2) = some (.drawFlat fl d k nv) := by
  obtain ⟨p, s, di⟩ := fl
  cases k <;> cases p <;> cases s <;> cases di <;> revert d nv <;> decide +kernel

theorem decodeHeader_drawRaw (fl : DrawFlags) (d : DepthMode) (k : PrimKind) (nv : BitVec 4) (h : nv ≠ 0#4) :
    decodeHeader (drawHeaderWord fl nv (fieldOfKind k) (shiftOfDepth d) 1#2) = some (.drawRaw fl d k nv) := by
  obtain ⟨p, s, di⟩ := fl
  cases k <;> cases p <;> cases s <;> cases di <;> cases d <;> revert nv <;> decide +kernel

theorem decodeHeader_drawMod (fl : DrawFlags) (d : DepthMode) (k : PrimKind) (nv : BitVec 4) (h : nv ≠ 0#4) :
    decodeHeader (drawHeaderWord fl nv (fieldOfKind k) (shiftOfDepth d) 2#2) = some (.drawMod fl d k nv) := by
  obtain ⟨p, s, di⟩ := fl
  cases k <;> cases p <;> cases s <;> cases di <;> cases d <;> revert nv <;> decide +kernel

theorem decodeHeader_disp15 : ∀ fade : Byte, decodeHeader (dispHeaderWord fade 0#1) = some (.disp15 fade) := by decide +kernel

theorem decodeHeader_disp24 : ∀ fade : Byte, decodeHeader (dispHeaderWord fade 1#1) = some (.disp24 fade) := by decide +kernel

/-! ### Fields of a word as numbers -/

theorem field_toNat (w : Word32) (k n : Nat) : (w.extractLsb' k n).toNat = w.toNat / 2 ^ k % 2 ^ n := by
  rw [BitVec.extractLsb'_toNat, Nat.shiftRight_eq_div_pow]

theorem field_eq_zero (w : Word32) (k n : Nat) : w.extractLsb' k n = 0#n ↔ w.toNat / 2 ^ k % 2 ^ n = 0 := by
  rw [← field_toNat]
  constructor
  · intro h
    rw [h]
    simp
  · intro h
    apply BitVec.eq_of_toNat_eq
    simpa using h

theorem eq_ofNat_of_toNat {n k : Nat} {v : BitVec n} (h : v.toNat = k) : v = BitVec.ofNat n k := by
  apply BitVec.eq_of_toNat_eq
  rw [h, BitVec.toNat_ofNat, Nat.mod_eq_of_lt (h ▸ v.isLt)]

/-- A flag of a word as a field of one bit. -/
theorem ofBool_getLsbD (w : Word32) (k : Nat) : BitVec.ofBool (w.getLsbD k) = w.extractLsb' k 1 := by
  apply BitVec.eq_of_getLsbD_eq
  intro i hi
  have : i = 0 := by omega
  subst this
  simp

theorem cellOfWord_eq_none {w : Word32} (h : 2 ^ 16 ≤ w.toNat) : cellOfWord w = none := by
  have h1 := field_eq_zero w 16 16
  have h2 := w.isLt
  rw [cellOfWord, if_neg]
  rw [h1]
  omega

theorem rgbOfWord_eq_none {w : Word32} (h : 2 ^ 24 ≤ w.toNat) : rgbOfWord w = none := by
  have h1 := field_eq_zero w 24 8
  have h2 := w.isLt
  rw [rgbOfWord, if_neg]
  rw [h1]
  omega

/-- The opcode of a FRAG header. -/
theorem fragHeaderWord_op (fl : DrawFlags) (d b : BitVec 2) : (fragHeaderWord fl d b).extractLsb' 28 4 = 5#4 := by
  unfold fragHeaderWord
  exact (extract_append_above _ _ 27 4).trans ((extract_append_above _ _ 26 4).trans ((extract_append_above _ _ 25 4).trans
    ((extract_append_above _ b 23 4).trans ((extract_append_above _ d 21 4).trans (extract_append_high _ _)))))

/-- The opcode and the vertex count of a DRAW header. -/
theorem drawHeaderWord_op (fl : DrawFlags) (nv : BitVec 4) (k d b : BitVec 2) :
    (drawHeaderWord fl nv k d b).extractLsb' 28 4 = 6#4 ∧ (drawHeaderWord fl nv k d b).extractLsb' 9 4 = nv := by
  unfold drawHeaderWord
  constructor
  · exact (extract_append_above _ _ 27 4).trans ((extract_append_above _ _ 26 4).trans ((extract_append_above _ _ 25 4).trans
      ((extract_append_above _ b 23 4).trans ((extract_append_above _ d 21 4).trans ((extract_append_above _ k 19 4).trans
        ((extract_append_above _ nv 15 4).trans (extract_append_high _ _)))))))
  · exact (extract_append_above _ _ 8 4).trans ((extract_append_above _ _ 7 4).trans ((extract_append_above _ _ 6 4).trans
      ((extract_append_above _ b 4 4).trans ((extract_append_above _ d 2 4).trans ((extract_append_above _ k 0 4).trans
        (extract_append_low _ _))))))

/-- The opcode of a DISP header. -/
theorem dispHeaderWord_op (f : Byte) (m : BitVec 1) : (dispHeaderWord f m).extractLsb' 28 4 = 7#4 := by
  unfold dispHeaderWord
  exact (extract_append_above _ m 27 4).trans ((extract_append_above _ _ 20 4).trans ((extract_append_above _ f 12 4).trans
    (extract_append_high _ _)))

end Sys2Proof
end

