-- ==== Sys2Proof/Laws/State.lean ====
section
/-! SUPPORT. One lemma per field per update of the state, and the end of an operation seen through each field. -/

namespace Sys2Proof.Machine

@[ext] theorem State.ext_fields {s t : State} (h1 : s.plane = t.plane) (h2 : s.fault = t.fault) (h3 : s.lastViolation = t.lastViolation)
    (h4 : s.pending = t.pending) (h5 : s.outputs = t.outputs) (h6 : s.drawCount = t.drawCount) : s = t := by
  cases s; cases t; simp_all

@[simp] theorem State.setPlane_plane (s : State) (V : Plane) : (s.setPlane V).plane = V := rfl
@[simp] theorem State.setPlane_fault (s : State) (V : Plane) : (s.setPlane V).fault = s.fault := rfl
@[simp] theorem State.setPlane_lastViolation (s : State) (V : Plane) : (s.setPlane V).lastViolation = s.lastViolation := rfl
@[simp] theorem State.setPlane_pending (s : State) (V : Plane) : (s.setPlane V).pending = s.pending := rfl
@[simp] theorem State.setPlane_outputs (s : State) (V : Plane) : (s.setPlane V).outputs = s.outputs := rfl
@[simp] theorem State.setPlane_drawCount (s : State) (V : Plane) : (s.setPlane V).drawCount = s.drawCount := rfl

@[simp] theorem State.setPending_plane (s : State) (l : List Input) : (s.setPending l).plane = s.plane := rfl
@[simp] theorem State.setPending_fault (s : State) (l : List Input) : (s.setPending l).fault = s.fault := rfl
@[simp] theorem State.setPending_lastViolation (s : State) (l : List Input) : (s.setPending l).lastViolation = s.lastViolation := rfl
@[simp] theorem State.setPending_pending (s : State) (l : List Input) : (s.setPending l).pending = l := rfl
@[simp] theorem State.setPending_outputs (s : State) (l : List Input) : (s.setPending l).outputs = s.outputs := rfl
@[simp] theorem State.setPending_drawCount (s : State) (l : List Input) : (s.setPending l).drawCount = s.drawCount := rfl

@[simp] theorem State.deliver_plane (s : State) (o : Output) : (s.deliver o).plane = s.plane := rfl
@[simp] theorem State.deliver_fault (s : State) (o : Output) : (s.deliver o).fault = s.fault := rfl
@[simp] theorem State.deliver_lastViolation (s : State) (o : Output) : (s.deliver o).lastViolation = s.lastViolation := rfl
@[simp] theorem State.deliver_pending (s : State) (o : Output) : (s.deliver o).pending = s.pending := rfl
@[simp] theorem State.deliver_outputs (s : State) (o : Output) : (s.deliver o).outputs = s.outputs ++ [o] := rfl
@[simp] theorem State.deliver_drawCount (s : State) (o : Output) : (s.deliver o).drawCount = s.drawCount := rfl

@[simp] theorem State.countDraw_plane (s : State) : (s.countDraw).plane = s.plane := rfl
@[simp] theorem State.countDraw_fault (s : State) : (s.countDraw).fault = s.fault := rfl
@[simp] theorem State.countDraw_lastViolation (s : State) : (s.countDraw).lastViolation = s.lastViolation := rfl
@[simp] theorem State.countDraw_pending (s : State) : (s.countDraw).pending = s.pending := rfl
@[simp] theorem State.countDraw_outputs (s : State) : (s.countDraw).outputs = s.outputs := rfl
@[simp] theorem State.countDraw_drawCount (s : State) : (s.countDraw).drawCount = s.drawCount + 1 := rfl

@[simp] theorem State.raise_plane (s : State) (v : Violation) : (s.raise v).plane = s.plane := rfl
@[simp] theorem State.raise_fault (s : State) (v : Violation) : (s.raise v).fault = true := rfl
@[simp] theorem State.raise_lastViolation (s : State) (v : Violation) : (s.raise v).lastViolation = some v := rfl
@[simp] theorem State.raise_pending (s : State) (v : Violation) : (s.raise v).pending = s.pending := rfl
@[simp] theorem State.raise_outputs (s : State) (v : Violation) : (s.raise v).outputs = s.outputs := rfl
@[simp] theorem State.raise_drawCount (s : State) (v : Violation) : (s.raise v).drawCount = s.drawCount := rfl

@[simp] theorem State.resetAgain_plane (s : State) : (s.resetAgain).plane = { mem := [], epoch := s.plane.epoch + 1 } := rfl
@[simp] theorem State.resetAgain_fault (s : State) : (s.resetAgain).fault = false := rfl
@[simp] theorem State.resetAgain_lastViolation (s : State) : (s.resetAgain).lastViolation = none := rfl
@[simp] theorem State.resetAgain_pending (s : State) : (s.resetAgain).pending = s.pending := rfl
@[simp] theorem State.resetAgain_outputs (s : State) : (s.resetAgain).outputs = [] := rfl
@[simp] theorem State.resetAgain_drawCount (s : State) : (s.resetAgain).drawCount = s.drawCount := rfl

@[simp] theorem State.finishRead_plane (s : State) (r : Except Violation Output) : (s.finishRead r).plane = s.plane := by
  cases r <;> rfl
@[simp] theorem State.finishRead_pending (s : State) (r : Except Violation Output) : (s.finishRead r).pending = s.pending := by
  cases r <;> rfl
@[simp] theorem State.finishRead_drawCount (s : State) (r : Except Violation Output) : (s.finishRead r).drawCount = s.drawCount := by
  cases r <;> rfl

@[simp] theorem State.finishWrite_pending (s : State) (r : Plane × Option Violation) : (s.finishWrite r).pending = s.pending := by
  obtain ⟨V, _ | v⟩ := r <;> rfl
@[simp] theorem State.finishWrite_outputs (s : State) (r : Plane × Option Violation) : (s.finishWrite r).outputs = s.outputs := by
  obtain ⟨V, _ | v⟩ := r <;> rfl
@[simp] theorem State.finishWrite_drawCount (s : State) (r : Plane × Option Violation) : (s.finishWrite r).drawCount = s.drawCount := by
  obtain ⟨V, _ | v⟩ := r <;> rfl

@[simp] theorem State.finishWhole_pending (s : State) (r : Except Violation Plane) : (s.finishWhole r).pending = s.pending := by
  cases r <;> rfl
@[simp] theorem State.finishWhole_outputs (s : State) (r : Except Violation Plane) : (s.finishWhole r).outputs = s.outputs := by
  cases r <;> rfl
@[simp] theorem State.finishWhole_drawCount (s : State) (r : Except Violation Plane) : (s.finishWhole r).drawCount = s.drawCount := by
  cases r <;> rfl

@[simp] theorem State.finishWrite_plane (s : State) (r : Plane × Option Violation) : (s.finishWrite r).plane = r.1 := by
  obtain ⟨V, _ | v⟩ := r <;> rfl

theorem State.finishWrite_fault (s : State) (r : Plane × Option Violation) : (s.finishWrite r).fault = (s.fault || r.2.isSome) := by
  obtain ⟨V, _ | v⟩ := r <;> simp [State.finishWrite]

/-- The end of an operation that writes all or nothing: the new plane if there is one. -/
theorem State.finishWhole_plane (s : State) (r : Except Violation Plane) :
    (s.finishWhole r).plane = (match r with | .ok V => V | .error _ => s.plane) := by
  cases r <;> rfl

end Sys2Proof.Machine
end

