-- ==== Sys2Proof/Laws/Memory.lean ====
section
/-! SUPPORT. The laws of the stored bytes, of bytes and cells of the plane, of `Addr`, and of the loops over cells. -/

namespace Sys2Proof.Machine

/-! ### Stored bytes -/

theorem Memory.find_put_same (m : Memory) (a : Nat) (b : Byte) : Memory.find (Memory.put m a b) a = some b := by
  induction m with
  | nil => simp [Memory.put, Memory.find]
  | cons e m ih =>
    obtain ⟨k, c⟩ := e
    unfold Memory.put
    split
    · simp [Memory.find]
    · split
      · simp [Memory.find]
      · rename_i h1 h2
        have : ¬ k = a := fun h => h2 h.symm
        simp [Memory.find, this, ih]

theorem Memory.find_put_ne (m : Memory) {a a' : Nat} (b : Byte) (h : a' ≠ a) :
    Memory.find (Memory.put m a b) a' = Memory.find m a' := by
  have h' : ¬ a = a' := fun e => h e.symm
  induction m with
  | nil => simp [Memory.put, Memory.find, h']
  | cons e m ih =>
    obtain ⟨k, c⟩ := e
    unfold Memory.put
    split
    · simp [Memory.find, h']
    · split
      · rename_i h2
        subst h2
        simp [Memory.find, h']
      · simp [Memory.find, ih]

theorem Memory.risesFrom_put (m : Memory) {lo a : Nat} (b : Byte) (hlo : lo ≤ a) (ha : a < planeBytes)
    (h : Memory.risesFrom lo m = true) : Memory.risesFrom lo (Memory.put m a b) = true := by
  induction m generalizing lo with
  | nil => simp [Memory.put, Memory.risesFrom, hlo, ha]
  | cons e m ih =>
    obtain ⟨k, c⟩ := e
    simp only [Memory.risesFrom, Bool.and_eq_true, decide_eq_true_eq] at h
    obtain ⟨⟨h1, h2⟩, h3⟩ := h
    unfold Memory.put
    split
    · simp only [Memory.risesFrom, Bool.and_eq_true, decide_eq_true_eq]
      refine ⟨⟨hlo, ha⟩, ⟨?_, h2⟩, h3⟩
      omega
    · split
      · rename_i h4
        subst h4
        simp only [Memory.risesFrom, Bool.and_eq_true, decide_eq_true_eq]
        exact ⟨⟨hlo, ha⟩, h3⟩
      · simp only [Memory.risesFrom, Bool.and_eq_true, decide_eq_true_eq]
        refine ⟨⟨h1, h2⟩, ih ?_ h3⟩
        omega

/-- Storing a byte of the plane keeps the canonical form. -/
theorem Memory.wf_put (m : Memory) {a : Nat} (b : Byte) (ha : a < planeBytes) (h : Memory.wf m = true) :
    Memory.wf (Memory.put m a b) = true :=
  Memory.risesFrom_put m b (Nat.zero_le a) ha h

theorem Memory.wf_nil : Memory.wf [] = true := rfl

/-! ### Bytes and cells -/

@[simp] theorem writeByte_epoch (V : Plane) (a : Nat) (b : Byte) : (writeByte V a b).epoch = V.epoch := rfl

@[simp] theorem writeCell_epoch (V : Plane) (c : CellAddr) (v : Cell) : (writeCell V c v).epoch = V.epoch := rfl

@[simp] theorem readByte_writeByte_same (P : Params) (V : Plane) (a : Nat) (b : Byte) : readByte P (writeByte V a b) a = b := by
  simp [readByte, writeByte, Memory.find_put_same]

theorem readByte_writeByte_ne (P : Params) (V : Plane) {a a' : Nat} (b : Byte) (h : a' ≠ a) :
    readByte P (writeByte V a b) a' = readByte P V a' := by
  simp [readByte, writeByte, Memory.find_put_ne _ b h]

theorem byteAddr_lt (c : CellAddr) : byteAddr c + 1 < planeBytes := by
  have h1 := c.x.isLt
  have h2 := c.y.isLt
  simp only [byteAddr, planeBytes]
  omega

theorem byteAddr_inj {c c' : CellAddr} (h : byteAddr c = byteAddr c') : c = c' := by
  obtain ⟨x, y⟩ := c
  obtain ⟨x', y'⟩ := c'
  simp only [byteAddr] at h
  have hx : x = x' := Fin.ext (by omega)
  have hy : y = y' := Fin.ext (by omega)
  rw [hx, hy]

/-- Two different cells share no byte. -/
theorem byteAddr_apart {c c' : CellAddr} (h : c' ≠ c) :
    byteAddr c' ≠ byteAddr c ∧ byteAddr c' ≠ byteAddr c + 1 ∧ byteAddr c' + 1 ≠ byteAddr c ∧ byteAddr c' + 1 ≠ byteAddr c + 1 := by
  have hne : byteAddr c' ≠ byteAddr c := fun e => h (byteAddr_inj e)
  refine ⟨hne, ?_, ?_, fun e => hne (Nat.succ.inj e)⟩ <;>
    · simp only [byteAddr]
      omega

/-- A cell write leaves every byte outside the cell as it was. -/
theorem readByte_writeCell_ne (P : Params) (V : Plane) (c : CellAddr) (v : Cell) {a : Nat} (h1 : a ≠ byteAddr c)
    (h2 : a ≠ byteAddr c + 1) : readByte P (writeCell V c v) a = readByte P V a := by
  rw [writeCell, readByte_writeByte_ne P _ _ h2, readByte_writeByte_ne P _ _ h1]

/-- A cell reads as the value written to it. -/
@[simp] theorem readCell_writeCell_same (P : Params) (V : Plane) (c : CellAddr) (v : Cell) : readCell P (writeCell V c v) c = v := by
  have h : byteAddr c ≠ byteAddr c + 1 := by omega
  rw [readCell, writeCell, readByte_writeByte_same, readByte_writeByte_ne P _ _ h, readByte_writeByte_same]
  apply BitVec.eq_of_getLsbD_eq
  intro i hi
  simp only [BitVec.getLsbD_append, BitVec.getLsbD_extractLsb']
  by_cases h8 : i < 8
  · simp [h8]
  · have : i - 8 < 8 := by omega
    have e : 8 + (i - 8) = i := by omega
    simp [h8, this, e]

/-- A cell write leaves every other cell as it was. -/
theorem readCell_writeCell_ne (P : Params) (V : Plane) {c c' : CellAddr} (v : Cell) (h : c' ≠ c) :
    readCell P (writeCell V c v) c' = readCell P V c' := by
  obtain ⟨h1, h2, h3, h4⟩ := byteAddr_apart h
  rw [readCell, readCell, readByte_writeCell_ne P V c v h1 h2, readByte_writeCell_ne P V c v h3 h4]

/-- A cell write keeps the canonical form. -/
theorem wf_writeCell (V : Plane) (c : CellAddr) (v : Cell) (h : Memory.wf V.mem = true) : Memory.wf (writeCell V c v).mem = true := by
  have hlt := byteAddr_lt c
  exact Memory.wf_put _ _ hlt (Memory.wf_put _ _ (by omega) h)

/-! ### Addresses -/

/-- Inside the plane `Addr` answers the cell of the same column and row, under every policy (R49). -/
theorem addr_inside (p : OobPolicy) (kind : Access) {x y : Int} {c : CellAddr} (hx : x = c.x.val) (hy : y = c.y.val) :
    addr p kind x y = .ok c := by
  have h1 := c.x.isLt
  have h2 := c.y.isLt
  have hc : 0 ≤ x ∧ x < 1024 ∧ 0 ≤ y ∧ y < 512 := by omega
  have ex : clampTo 1024 (by decide) x = c.x := by
    apply Fin.ext
    simp only [clampTo]
    omega
  have ey : clampTo 512 (by decide) y = c.y := by
    apply Fin.ext
    simp only [clampTo]
    omega
  simp only [addr, hc, and_self, if_true, ex, ey]

/-- `Addr` faults only on an address outside the plane and under the policy `fault` (R49). -/
theorem addr_error {p : OobPolicy} {kind : Access} {x y : Int} {v : Violation} (h : addr p kind x y = .error v) :
    p = .fault ∧ ¬ (0 ≤ x ∧ x < 1024 ∧ 0 ≤ y ∧ y < 512) ∧ v = .outOfBounds kind x y := by
  unfold addr at h
  split at h
  · cases h
  · rename_i hn
    cases p
    · cases h
      exact ⟨rfl, hn, rfl⟩
    · cases h
    · cases h

/-- Outside the plane, under the policy `fault`, `Addr` raises (R49). -/
theorem addr_outside {kind : Access} {x y : Int} (h : ¬ (0 ≤ x ∧ x < 1024 ∧ 0 ≤ y ∧ y < 512)) :
    addr .fault kind x y = .error (.outOfBounds kind x y) := by
  simp [addr, h]

/-- An address inside the plane is a cell. -/
theorem cell_of_inside {x y : Int} (h : 0 ≤ x ∧ x < 1024 ∧ 0 ≤ y ∧ y < 512) : ∃ c : CellAddr, x = c.x.val ∧ y = c.y.val :=
  ⟨{ x := ⟨x.toNat, by omega⟩, y := ⟨y.toNat, by omega⟩ }, by simp; omega, by simp; omega⟩

theorem memRead_of_addr (P : Params) (V : Plane) {kind : Access} {x y : Int} {c : CellAddr} (h : addr P.oobPolicy kind x y = .ok c) :
    memRead P V kind x y = .ok (readCell P V c) := by
  simp [memRead, h]

theorem memWrite_of_addr (P : Params) (V : Plane) {kind : Access} {x y : Int} {c : CellAddr} (v : Cell)
    (h : addr P.oobPolicy kind x y = .ok c) : memWrite P V kind x y v = .ok (writeCell V c v) := by
  simp [memWrite, h]

/-- `MemRead` inside the plane. -/
theorem memRead_inside (P : Params) (V : Plane) (kind : Access) {x y : Int} {c : CellAddr} (hx : x = c.x.val) (hy : y = c.y.val) :
    memRead P V kind x y = .ok (readCell P V c) :=
  memRead_of_addr P V (addr_inside P.oobPolicy kind hx hy)

/-- `MemWrite` inside the plane. -/
theorem memWrite_inside (P : Params) (V : Plane) (kind : Access) {x y : Int} {c : CellAddr} (v : Cell) (hx : x = c.x.val)
    (hy : y = c.y.val) : memWrite P V kind x y v = .ok (writeCell V c v) :=
  memWrite_of_addr P V v (addr_inside P.oobPolicy kind hx hy)

/-- All `MemWrite` can do: it answers the plane with the addressed cell written, or the violation of `Addr`. -/
theorem memWrite_cases (P : Params) (V : Plane) (kind : Access) (x y : Int) (v : Cell) :
    (∃ c, addr P.oobPolicy kind x y = .ok c ∧ memWrite P V kind x y v = .ok (writeCell V c v)) ∨
    (∃ e, addr P.oobPolicy kind x y = .error e ∧ memWrite P V kind x y v = .error e) := by
  cases h : addr P.oobPolicy kind x y with
  | ok c => exact .inl ⟨c, rfl, memWrite_of_addr P V v h⟩
  | error e => exact .inr ⟨e, rfl, by simp [memWrite, h]⟩

/-- All `MemRead` can do: it answers the addressed cell, or the violation of `Addr`. -/
theorem memRead_cases (P : Params) (V : Plane) (kind : Access) (x y : Int) :
    (∃ c, addr P.oobPolicy kind x y = .ok c ∧ memRead P V kind x y = .ok (readCell P V c)) ∨
    (∃ e, addr P.oobPolicy kind x y = .error e ∧ memRead P V kind x y = .error e) := by
  cases h : addr P.oobPolicy kind x y with
  | ok c => exact .inl ⟨c, rfl, memRead_of_addr P V h⟩
  | error e => exact .inr ⟨e, rfl, by simp [memRead, h]⟩

/-! ### Loops -/

/-- If every element has a result, the loop answers all of them in order. -/
theorem readEach_ok {α β : Type} {f : α → Except Violation β} {g : α → β} {l : List α} (h : ∀ a ∈ l, f a = .ok (g a)) :
    readEach f l = .ok (l.map g) := by
  induction l with
  | nil => rfl
  | cons a l ih =>
    have h1 := h a (by simp)
    have h2 := ih fun b hb => h b (by simp [hb])
    simp [readEach, h1, h2]

/-- If the loop answers, every element had a result, and the answer is those results in order. -/
theorem readEach_eq_ok {α β : Type} {f : α → Except Violation β} {l : List α} {bs : List β} (h : readEach f l = .ok bs) :
    List.Forall₂ (fun a b => f a = .ok b) l bs := by
  induction l generalizing bs with
  | nil =>
    simp only [readEach, Except.ok.injEq] at h
    subst h
    exact .nil
  | cons a l ih =>
    unfold readEach at h
    split at h
    · cases h
    · rename_i b hb
      split at h
      · cases h
      · rename_i bs' hbs
        cases h
        exact .cons hb (ih hbs)

/-- If the loop answers a violation, some element raised it. -/
theorem readEach_eq_error {α β : Type} {f : α → Except Violation β} {l : List α} {v : Violation} (h : readEach f l = .error v) :
    ∃ a ∈ l, f a = .error v := by
  induction l with
  | nil => cases h
  | cons a l ih =>
    unfold readEach at h
    split at h
    · rename_i e he
      cases h
      exact ⟨a, by simp, he⟩
    · split at h
      · rename_i e he
        cases h
        obtain ⟨b, hb, hf⟩ := ih he
        exact ⟨b, by simp [hb], hf⟩
      · cases h

/-- If some element raises a violation, the loop answers that of the first one that does. -/
theorem readEach_first_error {α β : Type} {f : α → Except Violation β} {l : List α} {n : Nat} (hn : n < l.length)
    {e : Violation} (he : f l[n] = .error e) :
    ∃ (m : Nat) (hm : m < l.length) (v : Violation), f l[m] = .error v ∧ (∀ (k : Nat) (hk : k < m), ∃ b, f (l[k]'(by omega)) = .ok b) ∧
      readEach f l = .error v := by
  induction l generalizing n with
  | nil => simp at hn
  | cons a l ih =>
    cases ha : f a with
    | error v => exact ⟨0, by simp, v, ha, fun k hk => by omega, by simp [readEach, ha]⟩
    | ok b =>
      cases n with
      | zero =>
        rw [List.getElem_cons_zero, ha] at he
        cases he
      | succ n =>
        obtain ⟨m, hm, v, h1, h2, h3⟩ := ih (by simpa using hn) he
        refine ⟨m + 1, by simpa using hm, v, h1, fun k hk => ?_, by simp [readEach, ha, h3]⟩
        cases k with
        | zero => exact ⟨b, ha⟩
        | succ k => exact h2 k (by omega)

/-- What every step of a writing loop keeps, the loop keeps, whether or not it meets a violation. -/
theorem writeEach_keeps {α : Type} {f : Plane → α → Except Violation Plane} {K : Plane → Prop} {l : List α}
    (hf : ∀ V V' a, a ∈ l → K V → f V a = .ok V' → K V') {V : Plane} (hV : K V) : K (writeEach f V l).1 := by
  induction l generalizing V with
  | nil => exact hV
  | cons a l ih =>
    unfold writeEach
    split
    · exact hV
    · rename_i V' h
      exact ih (fun W W' b hb => hf W W' b (by simp [hb])) (hf V V' a (by simp) hV h)

theorem writeEach_append {α : Type} (f : Plane → α → Except Violation Plane) (V : Plane) (l₁ l₂ : List α) :
    writeEach f V (l₁ ++ l₂) =
      match (writeEach f V l₁).2 with
      | none => writeEach f (writeEach f V l₁).1 l₂
      | some v => ((writeEach f V l₁).1, some v) := by
  induction l₁ generalizing V with
  | nil => rfl
  | cons a l₁ ih =>
    simp only [List.cons_append, writeEach]
    split
    · rfl
    · exact ih _

end Sys2Proof.Machine
end

