-- ==== Sys2Proof/Laws/Safety.lean ====
section
/-! SUPPORT. The tests of Safety.lean as propositions about numbers, and which cells `ResolveTexel` depends on (R155). -/

namespace Sys2Proof.Machine

theorem isCell_iff {x y : Int} {c : CellAddr} : isCell x y c = true ↔ x = c.x.val ∧ y = c.y.val := by
  simp [isCell]

theorem byteOfCell_eq_false {c : CellAddr} {a : Nat} : byteOfCell c a = false ↔ a ≠ byteAddr c ∧ a ≠ byteAddr c + 1 := by
  simp [byteOfCell]

theorem insidePlane_iff {x y : Int} : insidePlane x y = true ↔ 0 ≤ x ∧ x < 1024 ∧ 0 ≤ y ∧ y < 512 := by
  simp [insidePlane]
  omega

theorem not_insidePlane {x y : Int} (h : insidePlane x y = false) : ¬ (0 ≤ x ∧ x < 1024 ∧ 0 ≤ y ∧ y < 512) := by
  rw [← insidePlane_iff, h]
  exact Bool.false_ne_true

theorem cellAddr_ext {c c' : CellAddr} (h1 : c.x.val = c'.x.val) (h2 : c.y.val = c'.y.val) : c = c' := by
  obtain ⟨x, y⟩ := c
  obtain ⟨x', y'⟩ := c'
  rw [CellAddr.mk.injEq]
  exact ⟨Fin.ext h1, Fin.ext h2⟩

/-- `ResolveTexel` depends on the cells it reads and on nothing else of the plane. -/
theorem resolveTexel_congr (P : Params) (V W : Plane) (f : Fragment) (h : ∀ c ∈ texelReads P V f, readCell P W c = readCell P V c) :
    resolveTexel P W f = resolveTexel P V f := by
  unfold texelReads at h
  unfold resolveTexel
  simp only [memRead]
  cases ha : addr P.oobPolicy .texel (texCell f.page f.depth f.tx f.ty).1 (texCell f.page f.depth f.tx f.ty).2 with
  | error e => rfl
  | ok tc =>
    rw [ha] at h
    cases hd : f.depth with
    | bpp16 =>
      rw [hd] at h
      simp [h tc (by simp)]
    | bpp8 =>
      rw [hd] at h
      simp only at h ⊢
      cases hc : addr P.oobPolicy .clut (clutCell f.clut (paletteIndex .bpp8 (readCell P V tc) (texelAlign .bpp8 f.tx))).1
        (clutCell f.clut (paletteIndex .bpp8 (readCell P V tc) (texelAlign .bpp8 f.tx))).2 with
      | error e =>
        rw [hc] at h
        simp at h
        simp [h, hc]
      | ok c =>
        rw [hc] at h
        simp at h
        simp [h, hc]
    | bpp4 =>
      rw [hd] at h
      simp only at h ⊢
      cases hc : addr P.oobPolicy .clut (clutCell f.clut (paletteIndex .bpp4 (readCell P V tc) (texelAlign .bpp4 f.tx))).1
        (clutCell f.clut (paletteIndex .bpp4 (readCell P V tc) (texelAlign .bpp4 f.tx))).2 with
      | error e =>
        rw [hc] at h
        simp at h
        simp [h, hc]
      | ok c =>
        rw [hc] at h
        simp at h
        simp [h, hc]

end Sys2Proof.Machine
end

