-- ==== Sys2Proof/Laws/Display.lean ====
section
/-! SUPPORT. The image of a region whose pixels all have a value, the pixels of both modes from their cells, and the bytes of the 24-bit mode. -/

namespace Sys2Proof.Machine

/-- If every pixel of the region has a value, the image is those values, h rows of w (R200). -/
theorem imageOf_ok {pixel : Nat × Nat → Except Violation Pixel} {size : Size} {g : Nat × Nat → Pixel}
    (h : ∀ i j, i < size.w.toNat → j < size.h.toNat → pixel (i, j) = .ok (g (i, j))) :
    ∃ rows, imageOf pixel size = .ok rows ∧ rows.length = size.h.toNat ∧ (∀ row ∈ rows, row.length = size.w.toNat) ∧
      ∀ i j, i < size.w.toNat → j < size.h.toNat → rows[j]?.bind (fun row => row[i]?) = some (g (i, j)) := by
  refine ⟨(regionRows size).map (List.map g), ?_, by simp [regionRows], ?_, ?_⟩
  · apply readEach_ok
    intro row hrow
    apply readEach_ok
    intro ij hij
    simp only [regionRows, List.mem_map, List.mem_range] at hrow
    obtain ⟨j, hj, rfl⟩ := hrow
    simp only [List.mem_map, List.mem_range] at hij
    obtain ⟨i, hi, rfl⟩ := hij
    exact h i j hi hj
  · intro row hrow
    simp only [regionRows, List.mem_map] at hrow
    obtain ⟨row', ⟨j, _, rfl⟩, rfl⟩ := hrow
    simp
  · intro i j hi hj
    simp [regionRows, hi, hj]

/-- If some pixel of the region raises a violation, the answer is that of the first one that does, in loop order (R224). -/
theorem imageOf_error {pixel : Nat × Nat → Except Violation Pixel} {size : Size} {i j : Nat} (hi : i < size.w.toNat) (hj : j < size.h.toNat)
    {e : Violation} (he : pixel (i, j) = .error e) :
    ∃ i₀ j₀ v, i₀ < size.w.toNat ∧ j₀ < size.h.toNat ∧ pixel (i₀, j₀) = .error v ∧
      (∀ i' j', i' < size.w.toNat → j' < j₀ ∨ j' = j₀ ∧ i' < i₀ → ∃ p, pixel (i', j') = .ok p) ∧ imageOf pixel size = .error v := by
  let rowOf : Nat → List (Nat × Nat) := fun j => (List.range size.w.toNat).map fun i => (i, j)
  have hrow : ∀ k (hk : k < (regionRows size).length), (regionRows size)[k] = rowOf k := fun k hk => by simp [regionRows, rowOf]
  have hcell : ∀ j k (hk : k < (rowOf j).length), (rowOf j)[k] = (k, j) := fun j k hk => by simp [rowOf]
  have hw : ∀ j, (rowOf j).length = size.w.toNat := fun j => by simp [rowOf]
  have hh : (regionRows size).length = size.h.toNat := by simp [regionRows]
  obtain ⟨_, _, e', _, _, hj'⟩ := readEach_first_error (f := pixel) (l := rowOf j) (n := i) (by rw [hw]; exact hi) (by rw [hcell]; exact he)
  obtain ⟨j₀, hj₀, v, h1, h2, h3⟩ := readEach_first_error (f := readEach pixel) (l := regionRows size) (n := j) (by rw [hh]; exact hj)
    (by rw [hrow]; exact hj')
  rw [hrow] at h1
  obtain ⟨a, ha, hav⟩ := List.getElem_of_mem (readEach_eq_error h1).choose_spec.1
  obtain ⟨i₀, hi₀, v', g1, g2, g3⟩ := readEach_first_error (f := pixel) (l := rowOf j₀) (n := a) ha (by
    rw [hav]
    exact (readEach_eq_error h1).choose_spec.2)
  rw [h1] at g3
  cases g3
  rw [hcell] at g1
  rw [hw] at hi₀
  rw [hh] at hj₀
  refine ⟨i₀, j₀, v, hi₀, hj₀, g1, fun i' j' hi' hlt => ?_, h3⟩
  rcases hlt with hlt | ⟨rfl, hlt⟩
  · obtain ⟨row, hr⟩ := h2 j' hlt
    rw [hrow] at hr
    obtain ⟨hl, hg⟩ := List.forall₂_iff_get.mp (readEach_eq_ok hr)
    have := hg i' (by rw [hw]; exact hi') (by rw [← hl, hw]; exact hi')
    rw [List.get_eq_getElem, hcell] at this
    exact ⟨_, this⟩
  · obtain ⟨p, hp⟩ := g2 i' hlt
    rw [hcell] at hp
    exact ⟨p, hp⟩

/-- A pixel of the 15-bit mode whose cell lies in the plane (R202). -/
theorem pixel15_inside (P : Params) (V : Plane) (o : Coord) (f : Byte) {i j : Nat} {c : CellAddr} (hx : (o.x.toNat : Int) + i = c.x.val)
    (hy : (o.y.toNat : Int) + j = c.y.val) : pixel15 P V o f (i, j) = .ok (pixelOfCell f (readCell P V c)) := by
  unfold pixel15
  rw [memRead_inside P V .display hx hy]

/-- A pixel of the 24-bit mode whose two cells lie in the plane (R205, R206). -/
theorem pixel24_inside (P : Params) (V : Plane) (o : Coord) (f : Byte) {i j : Nat} {c c' : CellAddr}
    (hx : (o.x.toNat : Int) + firstColumn i = c.x.val) (hy : (o.y.toNat : Int) + j = c.y.val)
    (hx' : (o.x.toNat : Int) + firstColumn i + 1 = c'.x.val) (hy' : (o.y.toNat : Int) + j = c'.y.val) :
    pixel24 P V o f (i, j) = .ok (pixelOfBits f (recombine i (readCell P V c) (readCell P V c'))) := by
  unfold pixel24
  dsimp only
  rw [memRead_inside P V .display hx hy, memRead_inside P V .display hx' hy']

/-- The two bytes of a cell (R45). -/
theorem readCell_bytes (P : Params) (V : Plane) (c : CellAddr) :
    (readCell P V c).extractLsb' 0 8 = readByte P V (byteAddr c) ∧ (readCell P V c).extractLsb' 8 8 = readByte P V (byteAddr c + 1) :=
  ⟨extract_append_low _ _, extract_append_high _ _⟩

/-- The three bytes of an even pixel (R206). -/
theorem recombine_even {k : Nat} (h : k % 2 = 0) (c0 c1 : Cell) :
    (recombine k c0 c1).extractLsb' 0 8 = c0.extractLsb' 0 8 ∧ (recombine k c0 c1).extractLsb' 8 8 = c0.extractLsb' 8 8 ∧
      (recombine k c0 c1).extractLsb' 16 8 = c1.extractLsb' 0 8 := by
  simp only [recombine, h]
  refine ⟨?_, ?_, ?_⟩ <;>
    · apply BitVec.eq_of_getLsbD_eq
      intro i hi
      have : i = 0 ∨ i = 1 ∨ i = 2 ∨ i = 3 ∨ i = 4 ∨ i = 5 ∨ i = 6 ∨ i = 7 := by omega
      rcases this with rfl | rfl | rfl | rfl | rfl | rfl | rfl | rfl <;> simp

/-- The three bytes of an odd pixel (R206). -/
theorem recombine_odd {k : Nat} (h : k % 2 = 1) (c0 c1 : Cell) :
    (recombine k c0 c1).extractLsb' 0 8 = c0.extractLsb' 8 8 ∧ (recombine k c0 c1).extractLsb' 8 8 = c1.extractLsb' 0 8 ∧
      (recombine k c0 c1).extractLsb' 16 8 = c1.extractLsb' 8 8 := by
  simp only [recombine, h]
  refine ⟨?_, ?_, ?_⟩ <;>
    · apply BitVec.eq_of_getLsbD_eq
      intro i hi
      have : i = 0 ∨ i = 1 ∨ i = 2 ∨ i = 3 ∨ i = 4 ∨ i = 5 ∨ i = 6 ∨ i = 7 := by omega
      rcases this with rfl | rfl | rfl | rfl | rfl | rfl | rfl | rfl <;> simp

end Sys2Proof.Machine
end

