-- ==== Sys2Proof/Laws/Raster.lean ====
section
/-! SUPPORT. What the rasterizer's shared operations can do: FRAG writes its target cell or nothing, DRAW writes covered cells only. -/

namespace Sys2Proof.Machine

/-- All `WriteBack` can do: one write of the target cell, or the violation of its address (R152). -/
theorem writeBack_cases (P : Params) (V : Plane) (x y : Int) (out : Colour) (pass : Bool) :
    (∃ c v, addr P.oobPolicy .target x y = .ok c ∧ writeBack P V x y out pass = .ok (writeCell V c v)) ∨
    (∃ e, addr P.oobPolicy .target x y = .error e ∧ writeBack P V x y out pass = .error e) := by
  cases h : addr P.oobPolicy .target x y with
  | error e =>
    refine .inr ⟨e, rfl, ?_⟩
    cases pass <;> simp [writeBack, memRead, memWrite, h]
  | ok c =>
    refine .inl ?_
    cases pass
    · exact ⟨c, _, rfl, by simp [writeBack, memWrite_of_addr P V _ h]; rfl⟩
    · exact ⟨c, _, rfl, by simp [writeBack, memRead_of_addr P V h, memWrite_of_addr P V _ h]; rfl⟩

/-- All FRAG can do: raise, leave the plane as it is, or write its target cell (R154). -/
theorem fragOp_cases (P : Params) (pass : Bool) (V : Plane) (f : Fragment) :
    (∃ e, fragOp P pass V f = .error e) ∨ fragOp P pass V f = .ok V ∨
    (∃ c v, addr P.oobPolicy .target f.x f.y = .ok c ∧ fragOp P pass V f = .ok (writeCell V c v)) := by
  unfold fragOp
  split
  · exact .inl ⟨_, rfl⟩
  · rename_i c hc
    split
    · exact .inl ⟨_, rfl⟩
    · exact .inr (.inl rfl)
    · rename_i out _
      rcases writeBack_cases P V f.x f.y out pass with ⟨c', v, h1, h2⟩ | ⟨e, _, h2⟩
      · rw [hc] at h1
        cases h1
        exact .inr (.inr ⟨c, v, hc, h2⟩)
      · exact .inl ⟨e, h2⟩

/-- FRAG with its target in the plane, from what `Frag` answers (R154). -/
theorem fragOp_of_frag (P : Params) (pass : Bool) (V : Plane) (f : Fragment) {c : CellAddr} (hx : f.x = c.x.val) (hy : f.y = c.y.val) :
    fragOp P pass V f =
      match frag P V f pass with
      | .error v => .error v
      | .ok none => .ok V
      | .ok (some out) => .ok (writeCell V c (if pass then P.semiBlend (readCell P V c) out else pack P.roundTie out)) := by
  simp only [fragOp, addr_inside P.oobPolicy .target hx hy]
  cases h : frag P V f pass with
  | error v => rfl
  | ok o =>
    cases o with
    | none => rfl
    | some out =>
      cases pass <;> simp [writeBack, memRead_inside P V .target hx hy, memWrite_inside P V .target _ hx hy]

/-- `Frag` on a textured fragment whose texel resolves (R151). -/
theorem frag_textured (P : Params) (V : Plane) (f : Fragment) (pass : Bool) {t : Cell} (hb : f.blend ≠ .noTexture)
    (hr : resolveTexel P V f = .ok t) : frag P V f pass = .ok (fragTextured f t pass) := by
  cases h : f.blend with
  | noTexture => exact absurd h hb
  | rawTexture => simp [frag, h, hr]
  | textureBlend => simp [frag, h, hr]

/-- FRAG on a textured fragment whose texel resolves, with its target in the plane: the sentinel, the other pass, or one write (R144, R146, R152). -/
theorem fragOp_textured (P : Params) (pass : Bool) (V : Plane) (f : Fragment) {t : Cell} {c : CellAddr} (hb : f.blend ≠ .noTexture)
    (hr : resolveTexel P V f = .ok t) (hx : f.x = c.x.val) (hy : f.y = c.y.val) :
    fragOp P pass V f =
      if t = 0x0000#16 then .ok V
      else if effTextured f.semi t ≠ pass then .ok V
      else .ok (writeCell V c (if pass then P.semiBlend (readCell P V c) (ditherColour f (texturedColour f (unpack t)))
        else pack P.roundTie (ditherColour f (texturedColour f (unpack t))))) := by
  rw [fragOp_of_frag P pass V f hx hy, frag_textured P V f pass hb hr]
  by_cases h0 : t = 0x0000#16
  · rw [if_pos h0]
    simp [fragTextured, isSentinel, h0]
  · rw [if_neg h0]
    by_cases he : effTextured f.semi t = pass <;> simp [fragTextured, isSentinel, h0, he]

/-- `Frag` sees the plane through the resolved texel only. -/
theorem frag_congr (P : Params) (V W : Plane) (f : Fragment) (pass : Bool)
    (h : f.blend ≠ .noTexture → resolveTexel P W f = resolveTexel P V f) : frag P W f pass = frag P V f pass := by
  unfold frag
  cases hb : f.blend with
  | noTexture => rfl
  | rawTexture => simp only [h (by simp [hb])]
  | textureBlend => simp only [h (by simp [hb])]

/-- Dithering does not change the cell a texel's own colour packs to, in either direction of a tie (R162). -/
theorem pack_ditherColour_unpack (t : RoundTie) (f : Fragment) (v : Cell) : pack t (ditherColour f (unpack v)) = v := by
  have h := ditherStep_small f.dither f.x f.y
  have key : ∀ n : BitVec 5, |31 * clamp01 (channelOfLevel n + ditherStep f.dither f.x f.y) - n.toNat| < 1 / 2 := by
    intro n
    obtain ⟨l0, l1⟩ := channelOfLevel_mem n
    have e : 31 * channelOfLevel n = n.toNat := by
      unfold channelOfLevel
      ring
    rw [abs_le] at h
    rw [abs_lt]
    rcases le_total (channelOfLevel n + ditherStep f.dither f.x f.y) 0 with h0 | h0
    · rw [clamp01_of_nonpos h0]
      constructor <;> linarith
    · rcases le_total (channelOfLevel n + ditherStep f.dither f.x f.y) 1 with h1 | h1
      · rw [clamp01_of_mem h0 h1]
        constructor <;> linarith
      · rw [clamp01_of_one_le h1]
        constructor <;> linarith
  exact pack_near_unpack t v _ (key _) (key _) (key _) rfl

/-- What FRAG keeps when it completes: the number of resets, every byte outside its target cell, and the canonical form. -/
theorem fragOp_keeps {P : Params} {pass : Bool} {V V' : Plane} {f : Fragment} (h : fragOp P pass V f = .ok V') :
    V'.epoch = V.epoch ∧ (Memory.wf V.mem = true → Memory.wf V'.mem = true) ∧
    ∀ a, (∀ c, addr P.oobPolicy .target f.x f.y = .ok c → a ≠ byteAddr c ∧ a ≠ byteAddr c + 1) → readByte P V' a = readByte P V a := by
  rcases fragOp_cases P pass V f with ⟨e, he⟩ | he | ⟨c, v, hc, he⟩
  · rw [he] at h
    cases h
  · rw [he] at h
    cases h
    exact ⟨rfl, id, fun _ _ => rfl⟩
  · rw [he] at h
    cases h
    exact ⟨rfl, wf_writeCell V c v, fun a ha => readByte_writeCell_ne P V c v (ha c hc).1 (ha c hc).2⟩

/-- What DRAW keeps, whether or not a violation stops it: the number of resets, every byte outside the cells its positions address, and the canonical form. -/
theorem drawPixels_keeps (P : Params) (p : Primitive) (pass : Bool) (V : Plane) (order : List (Int × Int)) :
    (drawPixels P p pass V order).1.epoch = V.epoch ∧
    (Memory.wf V.mem = true → Memory.wf (drawPixels P p pass V order).1.mem = true) ∧
    ∀ a, (∀ xy ∈ order, ∀ c, addr P.oobPolicy .target xy.1 xy.2 = .ok c → a ≠ byteAddr c ∧ a ≠ byteAddr c + 1) →
      readByte P (drawPixels P p pass V order).1 a = readByte P V a := by
  have step : ∀ W W' f, f ∈ order.map (fragmentAt P p) → fragOp P pass W f = .ok W' → _ := fun W W' f _ h => fragOp_keeps h
  refine ⟨?_, fun hwf => ?_, fun a ha => ?_⟩
  · exact writeEach_keeps (K := fun W => W.epoch = V.epoch) (fun W W' f hf hK h => (step W W' f hf h).1.trans hK) rfl
  · exact writeEach_keeps (K := fun W => Memory.wf W.mem = true) (fun W W' f hf hK h => (step W W' f hf h).2.1 hK) hwf
  · refine writeEach_keeps (K := fun W => readByte P W a = readByte P V a) (fun W W' f hf hK h => ?_) rfl
    obtain ⟨xy, hxy, rfl⟩ := List.mem_map.mp hf
    exact ((step W W' _ hf h).2.2 a fun c hc => ha xy hxy c hc).trans hK

/-- The order of a DRAW is an arrangement of its covered positions (R158). -/
theorem pixelOrder_perm (P : Params) (n : Nat) (p : Primitive) (pass : Bool) : (pixelOrder P n p pass).Perm (coverOf P p) :=
  List.perm_insertionSort _ _

theorem mem_coverOf (P : Params) (p : Primitive) (xy : Int × Int) : xy ∈ coverOf P p ↔ xy ∈ P.cover p.kind (p.verts.map vertexPos) :=
  List.mem_dedup

theorem mem_pixelOrder (P : Params) (n : Nat) (p : Primitive) (pass : Bool) (xy : Int × Int) :
    xy ∈ pixelOrder P n p pass ↔ xy ∈ P.cover p.kind (p.verts.map vertexPos) :=
  (pixelOrder_perm P n p pass).mem_iff.trans (mem_coverOf P p xy)

theorem pixelOrder_nodup (P : Params) (n : Nat) (p : Primitive) (pass : Bool) : (pixelOrder P n p pass).Nodup :=
  (pixelOrder_perm P n p pass).nodup_iff.mpr (List.nodup_dedup _)

@[simp] theorem primitiveOf_kind (fl : DrawFlags) (b : BlendMode) (d : DepthMode) (a : DrawArgs) : (primitiveOf fl b d a).kind = a.kind := rfl

/-- Clearing the unread texel coordinates does not move a vertex. -/
theorem primitiveOf_positions (fl : DrawFlags) (b : BlendMode) (d : DepthMode) (a : DrawArgs) :
    (primitiveOf fl b d a).verts.map vertexPos = a.verts.map vertexPos := by
  cases b <;> simp [primitiveOf, vertsRead, Function.comp_def, vertexUntextured, vertexPos]

/-- A primitive whose vertices all carry one colour has that common colour (R35). -/
theorem commonColour_of_all {verts : List Vertex} {col : Rgb} (h0 : verts ≠ []) (h : ∀ v ∈ verts, v.colour = col) :
    commonColour verts = some col := by
  cases verts with
  | nil => exact absurd rfl h0
  | cons v vs =>
    have hv := h v (by simp)
    have : vs.all (fun w => w.colour == v.colour) = true := by
      rw [List.all_eq_true]
      intro w hw
      simp [h w (by simp [hw]), hv]
    rw [commonColour, if_pos this, hv]

/-- What the DRAW meanings do with a record (R158, R223). -/
theorem drawRecord_eq (P : Params) (fl : DrawFlags) (b : BlendMode) (d : DepthMode) (a : DrawArgs) (s : State)
    (h : vertexCountOk a.verts = true) : drawRecord P fl b d a s = .next (drawState P (primitiveOf fl b d a) fl.pass s) := by
  simp [drawRecord, h]

end Sys2Proof.Machine
end

