-- ==== Sys2Proof/Laws/Transfer.lean ====
section
/-! SUPPORT. The shape of rectangles and regions, and what the shared operations of the transfer path and the display keep. -/

namespace Sys2Proof.Machine

/-- The positions of a rectangle are its columns and rows (R183). -/
theorem mem_rectCells (origin : Coord) (size : Size) (xy : Int × Int) :
    xy ∈ rectCells origin size ↔
      ∃ j, j < size.h.toNat ∧ ∃ i, i < size.w.toNat ∧ ((origin.x.toNat : Int) + i, (origin.y.toNat : Int) + j) = xy := by
  simp [rectCells]

/-- A grid in row-major order has w × h elements. -/
theorem length_grid {α : Type} (f : Nat → Nat → α) (h w : Nat) :
    ((List.range h).flatMap fun j => (List.range w).map fun i => f i j).length = w * h := by
  induction h with
  | zero => simp
  | succ h ih =>
    rw [List.range_succ, List.flatMap_append, List.length_append, ih]
    simp [Nat.mul_succ]

theorem length_rectCells (origin : Coord) (size : Size) : (rectCells origin size).length = size.w.toNat * size.h.toNat :=
  length_grid (α := Int × Int) (fun i j => ((origin.x.toNat : Int) + (i : Nat), (origin.y.toNat : Int) + (j : Nat))) _ _

/-- Element j × w + i of a row-major grid is its element in column i and row j (R183). -/
theorem getElem_grid {α : Type} (f : Nat → Nat → α) (h w i j : Nat) (hi : i < w) (hj : j < h) :
    ((List.range h).flatMap fun j => (List.range w).map fun i => f i j)[j * w + i]? = some (f i j) := by
  induction h with
  | zero => omega
  | succ h ih =>
    rw [List.range_succ, List.flatMap_append]
    have hlen := length_grid f h w
    by_cases hjh : j < h
    · have hlt : j * w + i < w * h := by
        have : (j + 1) * w ≤ h * w := Nat.mul_le_mul_right w hjh
        rw [Nat.mul_comm w h]
        rw [Nat.add_mul] at this
        omega
      rw [List.getElem?_append_left (by rw [hlen]; exact hlt)]
      exact ih hjh
    · have : j = h := by omega
      subst this
      rw [List.getElem?_append_right (by rw [hlen, Nat.mul_comm]; omega), hlen]
      have : j * w + i - w * j = i := by
        rw [Nat.mul_comm w j]
        omega
      rw [this]
      simp [hi]

theorem getElem_rectCells (origin : Coord) (size : Size) {i j : Nat} (hi : i < size.w.toNat) (hj : j < size.h.toNat) :
    (rectCells origin size)[j * size.w.toNat + i]? = some ((origin.x.toNat : Int) + i, (origin.y.toNat : Int) + j) :=
  getElem_grid (α := Int × Int) (fun i j => ((origin.x.toNat : Int) + (i : Nat), (origin.y.toNat : Int) + (j : Nat))) _ _ i j hi hj

/-- Element m of a rectangle, from its number alone. -/
theorem getElem_rectCells_of_lt (origin : Coord) (size : Size) {m : Nat} (h : m < size.w.toNat * size.h.toNat) :
    (rectCells origin size)[m]? =
      some ((origin.x.toNat : Int) + (m % size.w.toNat : Nat), (origin.y.toNat : Int) + (m / size.w.toNat : Nat)) := by
  have hw : 0 < size.w.toNat := by
    rcases Nat.eq_zero_or_pos size.w.toNat with h0 | h0
    · rw [h0] at h
      omega
    · exact h0
  have := getElem_rectCells origin size (Nat.mod_lt m hw) (Nat.div_lt_of_lt_mul h)
  rwa [Nat.mul_comm, Nat.div_add_mod] at this

/-- No position occurs twice in a rectangle. -/
theorem rectCells_nodup (origin : Coord) (size : Size) : (rectCells origin size).Nodup := by
  rw [List.nodup_iff_injective_get]
  intro a b hab
  have ha : a.val < size.w.toNat * size.h.toNat := lt_of_lt_of_eq a.isLt (length_rectCells origin size)
  have hb : b.val < size.w.toNat * size.h.toNat := lt_of_lt_of_eq b.isLt (length_rectCells origin size)
  have e1 := getElem_rectCells_of_lt origin size ha
  have e2 := getElem_rectCells_of_lt origin size hb
  rw [List.getElem?_eq_getElem a.isLt, Option.some.injEq] at e1
  rw [List.getElem?_eq_getElem b.isLt, Option.some.injEq] at e2
  have hh : (rectCells origin size)[a.val] = (rectCells origin size)[b.val] := hab
  rw [e1, e2] at hh
  simp only [Prod.mk.injEq] at hh
  apply Fin.ext
  have q : a.val / size.w.toNat = b.val / size.w.toNat := by omega
  have r : a.val % size.w.toNat = b.val % size.w.toNat := by omega
  rw [← Nat.div_add_mod a.val size.w.toNat, ← Nat.div_add_mod b.val size.w.toNat, q, r]

/-- Every position of a rectangle inside the plane is a cell of the plane. -/
theorem insidePlane_of_rectInside {origin : Coord} {size : Size} {xy : Int × Int} (h : rectInside origin size = true)
    (hm : xy ∈ rectCells origin size) : insidePlane xy.1 xy.2 = true := by
  obtain ⟨j, hj, i, hi, rfl⟩ := (mem_rectCells origin size xy).mp hm
  simp only [rectInside, Bool.and_eq_true, decide_eq_true_eq] at h
  rw [insidePlane_iff]
  dsimp only
  omega

/-- A loop of writes at distinct positions of the plane: nothing is raised, each written cell holds its element, every other cell stays. -/
theorem writeEach_uploadCell (P : Params) (l : List ((Int × Int) × Cell)) (V : Plane) (hin : ∀ e ∈ l, insidePlane e.1.1 e.1.2 = true)
    (hnd : (l.map Prod.fst).Nodup) :
    (writeEach (uploadCell P) V l).2 = none ∧
    (∀ e ∈ l, ∀ c, isCell e.1.1 e.1.2 c = true → readCell P (writeEach (uploadCell P) V l).1 c = e.2) ∧
    ∀ c, (∀ e ∈ l, isCell e.1.1 e.1.2 c = false) → readCell P (writeEach (uploadCell P) V l).1 c = readCell P V c := by
  induction l generalizing V with
  | nil => exact ⟨rfl, by simp, fun _ _ => rfl⟩
  | cons e l ih =>
    obtain ⟨c, hx, hy⟩ := cell_of_inside (insidePlane_iff.mp (hin e (by simp)))
    have hu : uploadCell P V e = .ok (writeCell V c e.2) := memWrite_inside P V _ _ hx hy
    simp only [writeEach, hu]
    simp only [List.map_cons, List.nodup_cons] at hnd
    have hother : ∀ e' ∈ l, isCell e'.1.1 e'.1.2 c = false := by
      intro e' h'
      by_contra hcon
      rw [Bool.not_eq_false] at hcon
      obtain ⟨b1, b2⟩ := isCell_iff.mp hcon
      have : e'.1 = e.1 := Prod.ext (by omega) (by omega)
      exact hnd.1 (this ▸ List.mem_map_of_mem h')
    obtain ⟨i1, i2, i3⟩ := ih (writeCell V c e.2) (fun e' h => hin e' (by simp [h])) hnd.2
    refine ⟨i1, fun e' he' c' hc' => ?_, fun c' hc' => ?_⟩
    · rcases List.mem_cons.mp he' with rfl | he'
      · obtain ⟨a1, a2⟩ := isCell_iff.mp hc'
        obtain rfl : c' = c := cellAddr_ext (by omega) (by omega)
        rw [i3 c' hother]
        exact readCell_writeCell_same _ _ _ _
      · exact i2 e' he' c' hc'
    · rw [i3 c' fun e' h => hc' e' (by simp [h])]
      apply readCell_writeCell_ne
      rintro rfl
      have := hc' e (by simp)
      rw [isCell_iff.mpr ⟨hx, hy⟩] at this
      cases this

/-- What an upload keeps, whether or not a violation stops it: the number of resets, every byte outside the cells it addresses, and the canonical form. -/
theorem blockUpload_keeps (P : Params) (V : Plane) (origin : Coord) (size : Size) (buf : List Cell) :
    (blockUpload P V origin size buf).1.epoch = V.epoch ∧
    (Memory.wf V.mem = true → Memory.wf (blockUpload P V origin size buf).1.mem = true) ∧
    ∀ a, (∀ xy ∈ rectCells origin size, ∀ c, addr P.oobPolicy .transfer xy.1 xy.2 = .ok c → a ≠ byteAddr c ∧ a ≠ byteAddr c + 1) →
      readByte P (blockUpload P V origin size buf).1 a = readByte P V a := by
  have step : ∀ W W' e, uploadCell P W e = .ok W' → ∃ c, addr P.oobPolicy .transfer e.1.1 e.1.2 = .ok c ∧ W' = writeCell W c e.2 := by
    intro W W' e h
    rcases memWrite_cases P W .transfer e.1.1 e.1.2 e.2 with ⟨c, hc, hw⟩ | ⟨v, _, hw⟩
    · rw [uploadCell, hw] at h
      cases h
      exact ⟨c, hc, rfl⟩
    · rw [uploadCell, hw] at h
      cases h
  refine ⟨?_, fun hwf => ?_, fun a ha => ?_⟩
  · refine writeEach_keeps (K := fun W => W.epoch = V.epoch) (fun W W' e _ hK h => ?_) rfl
    obtain ⟨c, _, rfl⟩ := step W W' e h
    exact hK
  · refine writeEach_keeps (K := fun W => Memory.wf W.mem = true) (fun W W' e _ hK h => ?_) hwf
    obtain ⟨c, _, rfl⟩ := step W W' e h
    exact wf_writeCell W c _ hK
  · refine writeEach_keeps (K := fun W => readByte P W a = readByte P V a) (fun W W' e he hK h => ?_) rfl
    obtain ⟨c, hc, rfl⟩ := step W W' e h
    have hm : e.1 ∈ rectCells origin size := (List.of_mem_zip (show (e.1, e.2) ∈ _ from he)).1
    exact (readByte_writeCell_ne P W c _ (ha _ hm c hc).1 (ha _ hm c hc).2).trans hK

end Sys2Proof.Machine
end

