-- ==== Sys2Proof/Laws/Exec.lean ====
section
/-! SUPPORT. What `exec` and `step` can do, said once. -/

namespace Sys2Proof.Machine

/-- Every answer of `exec`: the end of a writing operation, of a reading operation, of a FRAG or of a DRAW, or the refusal of a record. -/
theorem exec_cases (i : Instr) (s : State) :
    (∃ r : Except Violation Plane, exec i s = .next (s.finishWhole r)) ∨
    (∃ r : Except Violation Output, exec i s = .next (s.finishRead r)) ∨
    (∃ r : Plane × Option Violation, exec i s = .next (s.finishWrite r)) ∨
    (∃ r : Plane × Option Violation, exec i s = .next (s.countDraw.finishWrite r)) ∨
    exec i s = .refused .illFormedRecord := by
  cases i with
  | vwr cell value => exact .inl ⟨_, rfl⟩
  | vrd cell => exact .inr (.inl ⟨_, rfl⟩)
  | upld origin size buf =>
    by_cases h : bufferFits size buf = true
    · exact .inr (.inr (.inl ⟨_, by simp [exec, execUpld, h]; rfl⟩))
    · exact .inr (.inr (.inr (.inr (by simp [exec, execUpld, h]))))
  | dnld origin size => exact .inr (.inl ⟨_, rfl⟩)
  | fragFlat fl dshift args => exact .inl ⟨_, rfl⟩
  | fragRaw fl depth args => exact .inl ⟨_, rfl⟩
  | fragMod fl depth args => exact .inl ⟨_, rfl⟩
  | drawFlat fl dshift args =>
    by_cases h : vertexCountOk args.verts = true
    · exact .inr (.inr (.inr (.inl ⟨_, drawRecord_eq _ _ _ _ _ _ h⟩)))
    · exact .inr (.inr (.inr (.inr (by simp [exec, execDrawFlat, drawRecord, h]))))
  | drawRaw fl depth args =>
    by_cases h : vertexCountOk args.verts = true
    · exact .inr (.inr (.inr (.inl ⟨_, drawRecord_eq _ _ _ _ _ _ h⟩)))
    · exact .inr (.inr (.inr (.inr (by simp [exec, execDrawRaw, drawRecord, h]))))
  | drawMod fl depth args =>
    by_cases h : vertexCountOk args.verts = true
    · exact .inr (.inr (.inr (.inl ⟨_, drawRecord_eq _ _ _ _ _ _ h⟩)))
    · exact .inr (.inr (.inr (.inr (by simp [exec, execDrawMod, drawRecord, h]))))
  | disp15 origin size fade => exact .inr (.inl ⟨_, rfl⟩)
  | disp24 origin size fade => exact .inr (.inl ⟨_, rfl⟩)

/-- No operation touches the list of submissions. -/
theorem exec_pending {i : Instr} {s t : State} (h : exec i s = .next t) : t.pending = s.pending := by
  rcases exec_cases i s with ⟨r, hr⟩ | ⟨r, hr⟩ | ⟨r, hr⟩ | ⟨r, hr⟩ | hr <;> rw [hr] at h <;> cases h <;> simp

/-- Every operation that has a descriptor completes. -/
theorem exec_of_wf {i : Instr} (h : i.wf = true) (s : State) : ∃ t, exec i s = .next t := by
  cases i with
  | upld o z b =>
    simp only [Instr.wf] at h
    simp only [exec, execUpld, h, if_true]
    exact ⟨_, rfl⟩
  | drawFlat fl d a => exact ⟨_, drawRecord_eq _ _ _ _ _ _ h⟩
  | drawRaw fl d a => exact ⟨_, drawRecord_eq _ _ _ _ _ _ h⟩
  | drawMod fl d a => exact ⟨_, drawRecord_eq _ _ _ _ _ _ h⟩
  | _ => exact ⟨_, rfl⟩

/-- An operation does not see the list of submissions. -/
theorem exec_setPending {i : Instr} {s t : State} (l : List Input) (h : exec i s = .next t) :
    exec i (s.setPending l) = .next (t.setPending l) := by
  have whole : ∀ r, (s.setPending l).finishWhole r = (s.finishWhole r).setPending l := fun r => by cases r <;> rfl
  have read : ∀ r, (s.setPending l).finishRead r = (s.finishRead r).setPending l := fun r => by cases r <;> rfl
  have write : ∀ (u : State) r, (u.setPending l).finishWrite r = (u.finishWrite r).setPending l := fun u r => by
    obtain ⟨V, _ | v⟩ := r <;> rfl
  have draw : ∀ fl b d a, drawRecord Config.params fl b d a s = .next t →
      drawRecord Config.params fl b d a (s.setPending l) = .next (t.setPending l) := by
    intro fl b d a h
    unfold drawRecord at h ⊢
    split at h
    · rename_i hc
      rw [if_pos hc]
      have e := Host.Outcome.next.inj h
      rw [← e]
      exact congrArg Host.Outcome.next (write s.countDraw _)
    · cases h
  cases i with
  | vwr c v => exact (congrArg Host.Outcome.next ((whole _).trans (congrArg (·.setPending l) (Host.Outcome.next.inj h))))
  | vrd c => exact (congrArg Host.Outcome.next ((read _).trans (congrArg (·.setPending l) (Host.Outcome.next.inj h))))
  | upld o z b =>
    simp only [exec, execUpld] at h ⊢
    split at h
    · rename_i hc
      rw [if_pos hc]
      exact (congrArg Host.Outcome.next ((write s _).trans (congrArg (·.setPending l) (Host.Outcome.next.inj h))))
    · cases h
  | dnld o z => exact (congrArg Host.Outcome.next ((read _).trans (congrArg (·.setPending l) (Host.Outcome.next.inj h))))
  | fragFlat fl d a => exact (congrArg Host.Outcome.next ((whole _).trans (congrArg (·.setPending l) (Host.Outcome.next.inj h))))
  | fragRaw fl d a => exact (congrArg Host.Outcome.next ((whole _).trans (congrArg (·.setPending l) (Host.Outcome.next.inj h))))
  | fragMod fl d a => exact (congrArg Host.Outcome.next ((whole _).trans (congrArg (·.setPending l) (Host.Outcome.next.inj h))))
  | drawFlat fl d a => exact draw _ _ _ _ h
  | drawRaw fl d a => exact draw _ _ _ _ h
  | drawMod fl d a => exact draw _ _ _ _ h
  | disp15 o z f => exact (congrArg Host.Outcome.next ((read _).trans (congrArg (·.setPending l) (Host.Outcome.next.inj h))))
  | disp24 o z f => exact (congrArg Host.Outcome.next ((read _).trans (congrArg (·.setPending l) (Host.Outcome.next.inj h))))

/-- A run whose first step has a next state goes on from there. -/
theorem run_next (M : Host.Core) {k : Nat} {s s' : M.State} (h : M.step s = .next s') : M.run (k + 1) s = M.run k s' := by
  simp only [Host.Core.run, h]

/-- What a step can do: wait, reset, run an operation, raise on a reserved word, or stop on words that are no descriptor. -/
theorem step_cases (s : State) :
    (s.pending = [] ∧ step s = .next s) ∨
    (∃ rest, s.pending = .reset :: rest ∧ step s = .next (s.setPending rest).resetAgain) ∨
    (∃ ws rest i, s.pending = .descriptor ws :: rest ∧ decode ws = .instr i ∧ step s = exec i (s.setPending rest)) ∨
    (∃ ws rest w, s.pending = .descriptor ws :: rest ∧ decode ws = .reserved w ∧
      step s = .next ((s.setPending rest).raise (.reservedEncoding w))) ∨
    (∃ ws rest, s.pending = .descriptor ws :: rest ∧ decode ws = .wrongLength ∧ step s = .fault .notADescriptor) := by
  cases hp : s.pending with
  | nil => exact .inl ⟨rfl, by simp [step, hp]⟩
  | cons e rest =>
    cases e with
    | reset => exact .inr (.inl ⟨rest, rfl, by simp [step, hp]⟩)
    | descriptor ws =>
      cases hd : decode ws with
      | instr i => exact .inr (.inr (.inl ⟨ws, rest, i, rfl, hd, by simp [step, hp, stepWords, hd]⟩))
      | reserved w => exact .inr (.inr (.inr (.inl ⟨ws, rest, w, rfl, hd, by simp [step, hp, stepWords, hd]⟩)))
      | wrongLength => exact .inr (.inr (.inr (.inr ⟨ws, rest, rfl, hd, by simp [step, hp, stepWords, hd]⟩)))

end Sys2Proof.Machine
end

