-- ==== Sys2Proof/Laws/PerInstr.lean ====
section
/-! SUPPORT. Statements made per operation. `EncodeLength`: a well-formed operation's descriptor has the number of words R89 gives it. -/

namespace Sys2Proof.Laws.EncodeLength

/-- The descriptor of a well-formed operation has the length R89 gives. -/
def Statement (i : Instr) : Prop := i.wf = true → (encode i).length = Machine.wordCount i

theorem vwr (cell : Coord) (value : Cell) : Statement (.vwr cell value) := fun _ => rfl

theorem vrd (cell : Coord) : Statement (.vrd cell) := fun _ => rfl

theorem upld (origin : Coord) (size : Size) (buf : List Cell) : Statement (.upld origin size buf) := by
  intro h
  simp only [Instr.wf, bufferFits, beq_iff_eq] at h
  simp only [encode, List.length_cons, List.length_map, Machine.wordCount, h]
  omega

theorem dnld (origin : Coord) (size : Size) : Statement (.dnld origin size) := fun _ => rfl

theorem fragFlat (fl : DrawFlags) (dshift : BitVec 2) (args : FragArgs) : Statement (.fragFlat fl dshift args) := fun _ => rfl

theorem fragRaw (fl : DrawFlags) (depth : DepthMode) (args : FragArgs) : Statement (.fragRaw fl depth args) := fun _ => rfl

theorem fragMod (fl : DrawFlags) (depth : DepthMode) (args : FragArgs) : Statement (.fragMod fl depth args) := fun _ => rfl

/-- A DRAW descriptor has 3 + 3 × NV words (R86). -/
theorem length_encodeDraw (fl : DrawFlags) (dshift blend : BitVec 2) (a : DrawArgs) :
    (encodeDraw fl dshift blend a).length = 3 + 3 * a.verts.length := by
  simp only [encodeDraw, List.length_cons, length_vertexWords]
  omega

theorem drawFlat (fl : DrawFlags) (dshift : BitVec 2) (args : DrawArgs) : Statement (.drawFlat fl dshift args) :=
  fun _ => length_encodeDraw _ _ _ _

theorem drawRaw (fl : DrawFlags) (depth : DepthMode) (args : DrawArgs) : Statement (.drawRaw fl depth args) :=
  fun _ => length_encodeDraw _ _ _ _

theorem drawMod (fl : DrawFlags) (depth : DepthMode) (args : DrawArgs) : Statement (.drawMod fl depth args) :=
  fun _ => length_encodeDraw _ _ _ _

theorem disp15 (origin : Coord) (size : Size) (fade : Byte) : Statement (.disp15 origin size fade) := fun _ => rfl

theorem disp24 (origin : Coord) (size : Size) (fade : Byte) : Statement (.disp24 origin size fade) := fun _ => rfl

end Sys2Proof.Laws.EncodeLength
end

