-- ==== Sys2Proof/Machine/Text.lean ====
section
/-! DEFINITION. The line syntax of R93: one operation written as one line, fields by name, numbers in decimal. The block does nothing with it;
it is how the spec writes its programs. -/

namespace Sys2Proof.Machine

/-- A bit vector as a decimal number. -/
def numText {n : Nat} (v : BitVec n) : String := toString v.toNat

/-- Two numbers as a pair. -/
def pairText {n m : Nat} (a : BitVec n) (b : BitVec m) : String := "(" ++ numText a ++ ", " ++ numText b ++ ")"

/-- A coordinate as a pair. -/
def coordText (c : Coord) : String := pairText c.x c.y

/-- A size as `w x h`. -/
def sizeText (z : Size) : String := numText z.w ++ " x " ++ numText z.h

/-- A shading colour as a triple. -/
def rgbText (c : Rgb) : String := "(" ++ numText c.r ++ ", " ++ numText c.g ++ ", " ++ numText c.b ++ ")"

/-- A flag as 0 or 1. -/
def bitText (b : Bool) : String := if b then "1" else "0"

/-- `depth=16|8|4`. -/
def depthText : DepthMode → String
  | .bpp16 => "16"
  | .bpp8 => "8"
  | .bpp4 => "4"

/-- `kind=POLY|LINE|RECT`. -/
def kindText : PrimKind → String
  | .polygon => "POLY"
  | .line => "LINE"
  | .rectangle => "RECT"

/-- The `semi=` and `dither=` fields. -/
def flagsText (fl : DrawFlags) : String := " semi=" ++ bitText fl.semi ++ " dither=" ++ bitText fl.dither

/-- The `tex=`, `page=`, `clut=` and `depth=` fields of a textured fragment. -/
def textureText (depth : DepthMode) (a : FragArgs) : String :=
  " tex=" ++ pairText a.tex.u a.tex.v ++ " page=" ++ coordText a.page ++ " clut=" ++ coordText a.clut ++ " depth=" ++ depthText depth

/-- The fields every FRAG line begins with. -/
def fragText (name : String) (fl : DrawFlags) (a : FragArgs) : String :=
  name ++ " pass=" ++ bitText fl.pass ++ " at=" ++ coordText a.target ++ " shade=" ++ rgbText a.shade

/-- A vertex `v(x, y; r, g, b; tx, ty)`, its position signed (R86). -/
def vertexText (v : Vertex) : String :=
  " v(" ++ toString v.vx.toInt ++ ", " ++ toString v.vy.toInt ++ "; " ++ numText v.colour.r ++ ", " ++ numText v.colour.g ++ ", " ++
    numText v.colour.b ++ "; " ++ numText v.tex.u ++ ", " ++ numText v.tex.v ++ ")"

/-- A DRAW line. -/
def drawText (name : String) (fl : DrawFlags) (depth : DepthMode) (a : DrawArgs) : String :=
  name ++ " pass=" ++ bitText fl.pass ++ " kind=" ++ kindText a.kind ++ " page=" ++ coordText a.page ++ " clut=" ++ coordText a.clut ++
    " depth=" ++ depthText depth ++ flagsText fl ++ String.join (a.verts.map vertexText)

/-- The line of an operation (R93). The unread fields of the FLAT forms (R91) are left out or written as 16 bits per pixel. -/
def lineOf : Instr → String
  | .vwr cell value => "VWR " ++ coordText cell ++ ", " ++ numText value
  | .vrd cell => "VRD " ++ coordText cell
  | .upld origin size buf => "UPLD " ++ coordText origin ++ ", " ++ sizeText size ++ ", [" ++ String.intercalate ", " (buf.map numText) ++ "]"
  | .dnld origin size => "DNLD " ++ coordText origin ++ ", " ++ sizeText size
  | .fragFlat fl _ args => fragText "FRAG.FLAT" fl args ++ flagsText fl
  | .fragRaw fl depth args => fragText "FRAG.RAW" fl args ++ textureText depth args ++ flagsText fl
  | .fragMod fl depth args => fragText "FRAG.MOD" fl args ++ textureText depth args ++ flagsText fl
  | .drawFlat fl _ args => drawText "DRAW.FLAT" fl .bpp16 args
  | .drawRaw fl depth args => drawText "DRAW.RAW" fl depth args
  | .drawMod fl depth args => drawText "DRAW.MOD" fl depth args
  | .disp15 origin size fade => "DISP15 " ++ coordText origin ++ ", " ++ sizeText size ++ ", fade=" ++ numText fade
  | .disp24 origin size fade => "DISP24 " ++ coordText origin ++ ", " ++ sizeText size ++ ", fade=" ++ numText fade

end Sys2Proof.Machine
end

