-- ==== Sys2Proof/Tests/Slice0.lean ====
section
/-! SUPPORT. The model's own tests. The expected values are those of spec/95_test_vectors.md (section named with each) or are written out from the
rules. After them, for each obligation with hypotheses, a concrete case that meets them together. -/

namespace Sys2Proof.Tests

open Sys2Proof.Machine

/-! ### Helpers -/

/-- The reset state with some cells written. -/
def stateWith (cells : List (CellAddr × Cell)) : State :=
  State.reset.setPlane (cells.foldl (fun V e => writeCell V e.1 e.2) State.reset.plane)

/-- The cell after a step, if the step has a next state. -/
def cellAfter (o : Host.Outcome State Fault Refusal) (c : CellAddr) : Option Cell :=
  match o with
  | .next s => some (readCell Config.params s.plane c)
  | .fault _ => none
  | .refused _ => none

/-- What a step returned, if it has a next state. -/
def outputsAfter (o : Host.Outcome State Fault Refusal) : List Output :=
  match o with
  | .next s => s.outputs
  | .fault _ => []
  | .refused _ => []

/-- The violation recorded after a step. -/
def violationAfter (o : Host.Outcome State Fault Refusal) : Option Violation :=
  match o with
  | .next s => s.lastViolation
  | .fault _ => none
  | .refused _ => none

/-- A state about to run the given descriptor. -/
def submit (s : State) (ws : List Word32) : State := s.setPending [.descriptor ws]

/-- One set of parameters, for statements made for every set. -/
def params (p : OobPolicy) : Params where
  oobPolicy := p
  roundTie := .halfUp
  flatAlpha := true
  semiBlend := fun old _ => old
  cover := fun _ _ => [(0, 0), (1, 0)]
  interpShade := fun _ _ => { r := 2, g := -1, b := 1 / 2 }
  interpTexel := fun _ _ => (5, 7)
  pixelRank := fun _ _ _ _ => 0
  initVram := fun _ _ => 0#8

def flags0 : DrawFlags := { pass := false, semi := false, dither := false }

def white : Rgb := { r := 255#8, g := 255#8, b := 255#8 }

def vertex0 : Vertex := { vx := 0#16, vy := 0#16, colour := white, tex := { u := 0#16, v := 0#16 } }

def drawArgs0 : DrawArgs := { kind := .line, page := { x := 640, y := 256 }, clut := { x := 0, y := 480 }, verts := [vertex0] }

def fragArgs0 : FragArgs :=
  { target := { x := 100, y := 50 }, shade := { r := 200, g := 100, b := 50 }, tex := { u := 13, v := 2 }, page := { x := 640, y := 256 }
    clut := { x := 0, y := 480 } }

/-- A palette and one cell of texture indices: section 3.1. -/
def textured : State :=
  stateWith [(⟨643, 258⟩, 0xABCD#16), (⟨13, 480⟩, 0x7FFF#16), (⟨12, 480⟩, 0x83E0#16), (⟨11, 480⟩, 0x0000#16), (⟨10, 480⟩, 0x8000#16),
    (⟨102, 50⟩, 0x1111#16)]

/-! ### Well-formedness -/

theorem test_wf_upload_fits : (Instr.upld { x := 0, y := 0 } { w := 2, h := 1 } [1, 2]).wf = true := by decide

/-- A buffer that does not fit the rectangle. -/
theorem test_ill_formed_buffer : (Instr.upld { x := 0, y := 0 } { w := 2, h := 1 } [1]).wf = false := by decide

/-- A primitive without vertices. -/
theorem test_ill_formed_no_vertex : (Instr.drawFlat flags0 0 { drawArgs0 with verts := [] }).wf = false := by decide

/-- A primitive with sixteen vertices. -/
theorem test_ill_formed_sixteen : (Instr.drawMod flags0 .bpp4 { drawArgs0 with verts := List.replicate 16 vertex0 }).wf = false := by
  decide

/-! ### Decoding: words written out from R81 to R87, and those of section 2.8 -/

theorem test_decode_vwr : decode [0b0001#4 ++ 0#28, 258#16 ++ 643#16, 0#16 ++ 0xABCD#16] = .instr (.vwr { x := 643, y := 258 } 0xABCD) := by
  decide

theorem test_decode_vrd : decode [0b0010#4 ++ 0#28, 480#16 ++ 12#16] = .instr (.vrd { x := 12, y := 480 }) := by decide

theorem test_decode_upld : decode [0x30000000#32, 0x00320064#32, 0x00010002#32, 0x1111#32, 0x2222#32] =
    .instr (.upld { x := 100, y := 50 } { w := 2, h := 1 } [0x1111, 0x2222]) := by decide

theorem test_decode_dnld : decode [0b0100#4 ++ 0#28, 50#16 ++ 100#16, 1#16 ++ 4#16] = .instr (.dnld { x := 100, y := 50 } { w := 4, h := 1 }) := by
  decide

theorem test_decode_frag_flat : decode [0x50000004#32, 0#32, 0x00646464#32, 0#32, 0#32, 0#32] =
    .instr (.fragFlat { pass := false, semi := false, dither := true } 0
      { target := { x := 0, y := 0 }, shade := { r := 100, g := 100, b := 100 }, tex := { u := 0, v := 0 }, page := { x := 0, y := 0 }
        clut := { x := 0, y := 0 } }) := by decide

/-- OP, zeros, DSHIFT = 2, BLEND = 1, DITHER = 0, SEMI = 1, PASS = 1. -/
theorem test_decode_frag_raw :
    decode [0b0101#4 ++ 0#21 ++ 0b10#2 ++ 0b01#2 ++ 0b0#1 ++ 0b1#1 ++ 0b1#1, 50#16 ++ 100#16, 0#32, 2#16 ++ 12#16, 256#16 ++ 640#16, 480#16 ++ 0#16] =
      .instr (.fragRaw { pass := true, semi := true, dither := false } .bpp4
        { target := { x := 100, y := 50 }, shade := { r := 0, g := 0, b := 0 }, tex := { u := 12, v := 2 }, page := { x := 640, y := 256 }
          clut := { x := 0, y := 480 } }) := by decide

theorem test_decode_frag_mod : decode [0x50000014#32, 0#32, 0x003264C8#32, 0x00070005#32, 0x01000280#32, 0#32] =
    .instr (.fragMod { pass := false, semi := false, dither := true } .bpp16
      { target := { x := 0, y := 0 }, shade := { r := 200, g := 100, b := 50 }, tex := { u := 5, v := 7 }, page := { x := 640, y := 256 }
        clut := { x := 0, y := 0 } }) := by decide

/-- The polygon of section 2.8: three vertices, the first at (−5, 10). -/
theorem test_decode_draw_mod :
    decode [0x60000656#32, 0x01000280#32, 0x01E00000#32, 0x000AFFFB#32, 0x000080FF#32, 0#32, 0x000A0064#32, 0x000080FF#32, 0x0000003F#32,
        0x003C0032#32, 0x00FF0000#32, 0x003F001F#32] =
      .instr (.drawMod { pass := false, semi := true, dither := true } .bpp4
        { kind := .polygon, page := { x := 640, y := 256 }, clut := { x := 0, y := 480 }
          verts := [{ vx := -5, vy := 10, colour := { r := 255, g := 128, b := 0 }, tex := { u := 0, v := 0 } },
            { vx := 100, vy := 10, colour := { r := 255, g := 128, b := 0 }, tex := { u := 63, v := 0 } },
            { vx := 50, vy := 60, colour := { r := 0, g := 0, b := 255 }, tex := { u := 31, v := 63 } }] }) := by decide

theorem test_decode_draw_flat :
    decode [0x60000504#32, 0#32, 0#32, 0#32, 0x00646464#32, 0#32, 0x00010002#32, 0x00646464#32, 0#32] =
      .instr (.drawFlat { pass := false, semi := false, dither := true } 0
        { kind := .rectangle, page := { x := 0, y := 0 }, clut := { x := 0, y := 0 }
          verts := [{ vx := 0, vy := 0, colour := { r := 100, g := 100, b := 100 }, tex := { u := 0, v := 0 } },
            { vx := 2, vy := 1, colour := { r := 100, g := 100, b := 100 }, tex := { u := 0, v := 0 } }] }) := by decide

/-- OP, zeros, NV = 1, KIND = 1, DSHIFT = 1, BLEND = 1, DITHER = 0, SEMI = 0, PASS = 0. -/
theorem test_decode_draw_raw :
    decode [0b0110#4 ++ 0#15 ++ 0b0001#4 ++ 0b01#2 ++ 0b01#2 ++ 0b01#2 ++ 0b000#3, 256#16 ++ 640#16, 480#16 ++ 0#16, 0#32, 0x00FFFFFF#32, 0#32] =
      .instr (.drawRaw flags0 .bpp8 drawArgs0) := by decide

theorem test_decode_disp15 : decode [0x70008000#32, 0#32, 0x00010002#32] = .instr (.disp15 { x := 0, y := 0 } { w := 2, h := 1 } 128) := by
  decide

theorem test_decode_disp24 : decode [0b0111#4 ++ 0#12 ++ 255#8 ++ 0#7 ++ 0b1#1, 0#32, 1#16 ++ 4#16] =
    .instr (.disp24 { x := 0, y := 0 } { w := 4, h := 1 } 255) := by decide

/-- The reserved header words of section 2.7, and the one it accepts. -/
theorem test_reserved_headers :
    decode [0x00000000#32] = .reserved 0x00000000#32 ∧ decode [0x80000000#32] = .reserved 0x80000000#32 ∧
    decode [0x50000018#32] = .reserved 0x50000018#32 ∧ decode [0x50000068#32] = .reserved 0x50000068#32 ∧
    decode [0x60000000#32] = .reserved 0x60000000#32 ∧ decode [0x10000001#32] = .reserved 0x10000001#32 ∧
    decodeHeader 0x50000060#32 = some (.fragFlat flags0 3) := by decide

/-- Words with a defined header but not the length of R89 stop the machine under a name of their own. -/
theorem test_wrong_length : decode [0x20000000#32] = .wrongLength ∧ step (submit State.reset [0x20000000#32]) = .fault .notADescriptor :=
  ⟨by decide, rfl⟩

/-! ### One step per operation -/

/-- Section 2.6. -/
theorem test_vwr : cellAfter (step (submit State.reset [0x10000000#32, 0x01E0000C#32, 0x7FFF#32])) ⟨12, 480⟩ = some 0x7FFF := by decide

/-- Section 2.6. -/
theorem test_vrd : outputsAfter (step (submit (stateWith [(⟨12, 480⟩, 0x7FFF#16)]) [0x20000000#32, 0x01E0000C#32])) = [.value 0x7FFF] := by
  decide

/-- Section 2.6: the third element is row 1, column 0. -/
theorem test_upld :
    cellAfter (exec (.upld { x := 640, y := 256 } { w := 2, h := 2 } [1, 2, 3, 4]) State.reset) ⟨640, 257⟩ = some 3 ∧
    cellAfter (exec (.upld { x := 640, y := 256 } { w := 2, h := 2 } [1, 2, 3, 4]) State.reset) ⟨641, 256⟩ = some 2 := by decide

/-- Section 2.6. -/
theorem test_dnld :
    outputsAfter (exec (.dnld { x := 641, y := 256 } { w := 1, h := 2 })
      (stateWith [(⟨640, 256⟩, 1#16), (⟨641, 256⟩, 2#16), (⟨640, 257⟩, 3#16), (⟨641, 257⟩, 4#16)])) = [.buffer [2, 4]] := by decide

/-- Section 2.4: both clamps, at (0, 0) with dither −4. -/
theorem test_frag_flat :
    cellAfter (step (submit State.reset [0x50000004#32, 0#32, 0x000080FF#32, 0#32, 0#32, 0#32])) ⟨0, 0⟩ = some 0x81FF := by decide +kernel

/-- Section 3.1: place 1 of the texture cell 0xABCD is index 0xC, whose palette entry is 0x83E0. -/
theorem test_frag_raw :
    cellAfter (step (submit textured [0x50000048#32, 0x00320065#32, 0#32, 0x0002000D#32, 0x01000280#32, 0x01E00000#32])) ⟨101, 50⟩ =
      some 0x83E0 := by decide +kernel

/-- Section 3.1: the sentinel is discarded and the background stays. -/
theorem test_frag_raw_sentinel :
    cellAfter (step (submit textured [0x50000048#32, 0x00320066#32, 0#32, 0x0002000E#32, 0x01000280#32, 0x01E00000#32])) ⟨102, 50⟩ =
      some 0x1111 := by decide +kernel

/-- Section 2.4, FRAG.MOD: shade (200, 100, 50), texel 0x1234, dither −4. -/
theorem test_frag_mod :
    cellAfter (step (submit (stateWith [(⟨645, 263⟩, 0x1234#16)])
      [0x50000014#32, 0#32, 0x003264C8#32, 0x00070005#32, 0x01000280#32, 0#32])) ⟨0, 0⟩ = some 0x05BF := by decide +kernel

/-- Section 2.4, DRAW: two covered cells of shade 100 with dither. -/
theorem test_draw_flat :
    readCell (params .fault) (drawState (params .fault)
      (primitiveOf { flags0 with dither := true } .noTexture depthUnread
        { drawArgs0 with verts := [{ vertex0 with colour := { r := 100, g := 100, b := 100 } }] }) false State.reset).plane ⟨1, 0⟩ = 0xB18C := by
  decide +kernel

/-- Each covered pixel is the FRAG of R154: an undithered raw texel is written as it is. -/
theorem test_draw_raw :
    readCell (params .fault) (drawState (params .fault) (primitiveOf flags0 .rawTexture .bpp16 drawArgs0) false
      (stateWith [(⟨645, 263⟩, 0x1234#16)])).plane ⟨1, 0⟩ = 0x1234 := by decide +kernel

/-- The common colour 255 of the vertices doubles the texel's levels 20, 17 and 4: 31, 31 and 8. -/
theorem test_draw_mod :
    readCell (params .fault) (drawState (params .fault) (primitiveOf flags0 .textureBlend .bpp16 drawArgs0) false
      (stateWith [(⟨645, 263⟩, 0x1234#16)])).plane ⟨0, 0⟩ = 0x23FF := by decide +kernel

/-- Section 2.5. -/
theorem test_disp15 :
    outputsAfter (exec (.disp15 { x := 0, y := 0 } { w := 1, h := 1 } 255) (stateWith [(⟨0, 0⟩, 0x9234#16)])) =
      [.image [[{ r := 20 / 31, g := 17 / 31, b := 4 / 31, alpha := 1 }]]] := by decide +kernel

/-- Section 2.5: an even and an odd pixel. -/
theorem test_disp24 :
    outputsAfter (exec (.disp24 { x := 0, y := 0 } { w := 2, h := 1 } 255)
      (stateWith [(⟨0, 0⟩, 0x1234#16), (⟨1, 0⟩, 0x5678#16), (⟨2, 0⟩, 0x9ABC#16)])) =
      [.image [[{ r := 52 / 255, g := 18 / 255, b := 120 / 255, alpha := 1 }, { r := 86 / 255, g := 188 / 255, b := 154 / 255, alpha := 1 }]]] := by
  decide +kernel

/-! ### Violations, and the three policies (section 2.7) -/

theorem test_reserved_word_raises : violationAfter (step (submit State.reset [0x80000000#32])) = some (.reservedEncoding 0x80000000#32) := by
  decide

theorem test_vwr_outside :
    pointWrite (params .fault) State.reset.plane { x := 1024, y := 0 } 0x1111 = .error (.outOfBounds .transfer 1024 0) ∧
    (pointWrite (params .wrap) State.reset.plane { x := 1024, y := 0 } 0x1111).map (fun V => readCell (params .wrap) V ⟨0, 0⟩) = .ok 0x1111 ∧
    (pointWrite (params .clamp) State.reset.plane { x := 1024, y := 0 } 0x1111).map (fun V => readCell (params .clamp) V ⟨1023, 0⟩) =
      .ok 0x1111 := by decide

/-- Section 2.6: the first element of a two-cell upload at (1023, 0) lands under every policy. -/
theorem test_upld_edge :
    blockUpload (params .fault) State.reset.plane { x := 1023, y := 0 } { w := 2, h := 1 } [0xAAAA, 0xBBBB] =
      (writeCell State.reset.plane ⟨1023, 0⟩ 0xAAAA, some (.outOfBounds .transfer 1024 0)) ∧
    readCell (params .wrap) (blockUpload (params .wrap) State.reset.plane { x := 1023, y := 0 } { w := 2, h := 1 } [0xAAAA, 0xBBBB]).1 ⟨0, 0⟩ =
      0xBBBB ∧
    readCell (params .clamp) (blockUpload (params .clamp) State.reset.plane { x := 1023, y := 0 } { w := 2, h := 1 } [0xAAAA, 0xBBBB]).1 ⟨1023, 0⟩ =
      0xBBBB := by decide

theorem test_cause_codes : causeCode (.outOfBounds .transfer 1024 0) = 1 ∧ causeCode (.reservedEncoding 0) = 2 := by decide

/-! ### Parts of the rules -/

/-- Section 2.2: fractional and negative texel coordinates. -/
theorem test_texCell :
    texCell { x := 640, y := 256 } .bpp16 (-1 / 2) 0 = (895, 256) ∧ texCell { x := 640, y := 256 } .bpp4 1027 2 = (640, 258) ∧
    texelAlign .bpp4 (-1) = 3 ∧ texelAlign .bpp8 13 = 1 := by decide +kernel

/-- Section 2.3. -/
theorem test_dither : dither 2 1 = 3 ∧ dither 1023 511 = -2 ∧ dither (-1) (-1) = -2 ∧ dither 5 2 = 1 := by decide

/-- Section 2.1: the tie 1/62 and the levels of 8-bit channels. -/
theorem test_levels :
    levelOf .halfUp (1 / 62) = 1 ∧ levelOf .halfEven (1 / 62) = 0 ∧ levelOf .halfUp (61 / 62) = 31 ∧ levelOf .halfEven (61 / 62) = 30 ∧
    levelOf .halfUp (4 / 255) = 0 ∧ levelOf .halfUp (5 / 255) = 1 := by decide +kernel

/-- R94: the whole list with pass 0, then the whole list with pass 1. -/
theorem test_sweep2 :
    sweep2 [.fragFlat flags0 0 fragArgs0, .drawFlat flags0 0 drawArgs0] =
      [.fragFlat flags0 0 fragArgs0, .drawFlat flags0 0 drawArgs0, .fragFlat { flags0 with pass := true } 0 fragArgs0,
        .drawFlat { flags0 with pass := true } 0 drawArgs0] := by decide

/-- R45, R190: the low byte comes first. -/
theorem test_cellsOfBytes : cellsOfBytes [0x34, 0x12, 0x78, 0x56] = [0x1234, 0x5678] := by decide

/-! ### Cases that meet the hypotheses of the obligations -/

/-- A VWR submitted in the reset state. -/
def beforeVwr : State := submit State.reset [0x10000000#32, 0#32, 0x7FFF#32]

/-- A reset given after a violation. -/
def beforeReset : State :=
  { State.reset with fault := true, lastViolation := some (.reservedEncoding 0), pending := [.reset] }

theorem test_meets_EveryStepKeepsTheInvariant : ∃ s', beforeVwr.inv = true ∧ step beforeVwr = .next s' := ⟨_, by decide, rfl⟩

/-- The second clause: a VWR changes the plane. -/
theorem test_meets_OnlyWritersChangeThePlane : ∃ s', step beforeVwr = .next s' ∧ s'.plane ≠ beforeVwr.plane := ⟨_, rfl, by decide⟩

/-- The first clause: a reset clears the latch. -/
theorem test_meets_OnlyResetClearsFault : ∃ s', step beforeReset = .next s' ∧ beforeReset.fault = true ∧ s'.fault = false :=
  ⟨_, rfl, rfl, rfl⟩

theorem test_meets_ResetEventFreesThePlaneAndClearsFault : beforeReset.pending = .reset :: [] := rfl

theorem test_meets_NothingSubmittedNothingChanges : textured.pending = [] := rfl

theorem test_meets_StepRunsTheDecodedInstruction :
    beforeVwr.pending = .descriptor [0x10000000#32, 0#32, 0x7FFF#32] :: [] ∧
      decode [0x10000000#32, 0#32, 0x7FFF#32] = .instr (.vwr { x := 0, y := 0 } 0x7FFF) := ⟨rfl, by decide⟩

theorem test_meets_ReservedWordRaisesAndChangesNothingElse :
    (submit State.reset [0xF0000000#32]).pending = .descriptor [0xF0000000#32] :: [] ∧ decode [0xF0000000#32] = .reserved 0xF0000000#32 :=
  ⟨rfl, by decide⟩

theorem test_meets_RunIsSequentialExecution :
    ∀ i ∈ [Instr.upld { x := 0, y := 0 } { w := 1, h := 1 } [7], .drawRaw flags0 .bpp4 drawArgs0], i.wf = true := by decide

theorem test_meets_ExecutionDoesNotDependOnTheLatch : ∃ t, exec (.fragRaw flags0 .bpp4 fragArgs0) textured = .next t :=
  exec_of_wf rfl _

theorem test_meets_DecodeOfEncodeIsTheInstruction :
    (Instr.drawMod flags0 .bpp4 { drawArgs0 with verts := List.replicate 15 vertex0 }).wf = true := by decide

theorem test_meets_EncodeOfDecodeIsTheWords : decode [0x70000000#32, 0#32, 0#32] = .instr (.disp15 { x := 0, y := 0 } { w := 0, h := 0 } 0) := by
  decide

theorem test_meets_DescriptorsHaveTheirLength :
    decode [0x30000000#32, 0#32, 0x00010001#32, 7#32] = .instr (.upld { x := 0, y := 0 } { w := 1, h := 1 } [7]) := by decide

/-- Both sides of the equivalence occur. -/
theorem test_meets_ReservedHeadersAreTheListedOnes : reservedHeader 0x60000000#32 = true ∧ reservedHeader 0x60000200#32 = false := by decide

/-- The lowest reserved values of the data words, and headers for the last two clauses. -/
theorem test_meets_ReservedDataWordsAreRejected :
    2 ^ 16 ≤ (0x00010000#32).toNat ∧
    ((∀ w ∈ [0xFFFF#32], w.toNat < 2 ^ 16) ∧
      [0xFFFF#32].length + 1 + ([] : List Word32).length = (sizeOfWord 0x00010002#32).w.toNat * (sizeOfWord 0x00010002#32).h.toNat) ∧
    (reservedHeader 0x50000008#32 = false ∧ (0x50000008#32).toNat / 2 ^ 28 = 5 ∧ 2 ^ 24 ≤ (0x01000000#32).toNat) ∧
    (reservedHeader 0x60001E10#32 = false ∧ (0x60001E10#32).toNat / 2 ^ 28 = 6 ∧
      (∀ v ∈ [(0#32, 0x00FFFFFF#32, 0#32)], v.2.1.toNat < 2 ^ 24) ∧ 2 ^ 24 ≤ (0x01000000#32).toNat ∧
      3 * [(0#32, 0x00FFFFFF#32, 0#32)].length + 3 + (List.replicate 39 0#32).length = 3 * ((0x60001E10#32).toNat / 2 ^ 9 % 16)) :=
  ⟨by norm_num, ⟨by norm_num, by decide⟩, ⟨by decide, by norm_num, by norm_num⟩, by decide, by norm_num, by simp, by norm_num, by simp⟩

/-- Vertices that differ in the unread texel coordinate only. -/
theorem test_meets_UnreadFieldsHaveNoEffect :
    [{ vertex0 with tex := { u := 9, v := 9 } }].map vertexUntextured = drawArgs0.verts.map vertexUntextured ∧
      [{ vertex0 with tex := { u := 9, v := 9 } }] ≠ drawArgs0.verts := by decide

theorem test_meets_IllFormedRecordsAreRefused : (Instr.upld { x := 0, y := 0 } { w := 1, h := 1 } []).wf = false := by decide

/-- The corners of the plane and the first positions outside it. -/
theorem test_meets_AddrFollowsThePolicy :
    insidePlane 0 0 = true ∧ insidePlane 1023 511 = true ∧ insidePlane 1024 0 = false ∧ insidePlane 0 512 = false ∧ insidePlane (-1) 0 = false ∧
      isCell 1023 511 ⟨1023, 511⟩ = true := by decide

/-- The last cell of the plane. -/
theorem test_meets_VwrWritesItsCellOnly :
    isCell ({ x := 1023, y := 511 } : Coord).x.toNat ({ x := 1023, y := 511 } : Coord).y.toNat ⟨1023, 511⟩ = true ∧
      byteOfCell ⟨1023, 511⟩ 1048573 = false := by decide

theorem test_meets_VrdReturnsItsCell :
    isCell ({ x := 12, y := 480 } : Coord).x.toNat ({ x := 12, y := 480 } : Coord).y.toNat ⟨12, 480⟩ = true := by decide

theorem test_meets_PointAccessOutsideThePlane :
    insidePlane ({ x := 1024, y := 511 } : Coord).x.toNat ({ x := 1024, y := 511 } : Coord).y.toNat = false ∧
    insidePlane ({ x := 1023, y := 512 } : Coord).x.toNat ({ x := 1023, y := 512 } : Coord).y.toNat = false := by decide

/-- A rectangle that ends at the last cell, one of its cells, and a byte outside it. -/
theorem test_meets_UpldWritesTheRectangleOnly :
    bufferFits { w := 2, h := 2 } [1, 2, 3, 4] = true ∧ rectInside { x := 1022, y := 510 } { w := 2, h := 2 } = true ∧
      isCell (((1022#16).toNat : Int) + (1 : Nat)) (((510#16).toNat : Int) + (1 : Nat)) ⟨1023, 511⟩ = true ∧
      cellInRect { x := 1022, y := 510 } { w := 2, h := 2 } ⟨1021, 510⟩ = false := by decide

theorem test_meets_DnldReturnsTheRectangle : rectInside { x := 0, y := 0 } { w := 1024, h := 512 } = true := by decide

theorem test_meets_UploadThenDownloadReturnsTheBuffer :
    bufferFits { w := 1, h := 2 } [0x0000, 0x8000] = true ∧ rectInside { x := 1023, y := 0 } { w := 1, h := 2 } = true := by decide

theorem test_meets_EmptyRegionsTouchNothing : ({ w := 0, h := 5 } : Size).w = 0#16 ∨ ({ w := 0, h := 5 } : Size).h = 0#16 := by decide

/-- Section 2.6: the second of two cells lies outside. -/
theorem test_meets_UploadStopsAtTheFirstCellOutside :
    (params .fault).oobPolicy = .fault ∧ bufferFits { w := 2, h := 1 } [0xAAAA, 0xBBBB] = true ∧ 1 < (2#16).toNat * (1#16).toNat ∧
      (∀ m, m < 1 → insidePlane (((1023#16).toNat : Int) + (m : Nat) % (2#16).toNat) (((0#16).toNat : Int) + (m : Nat) / (2#16).toNat) = true) ∧
      insidePlane (((1023#16).toNat : Int) + (1 : Nat) % (2#16).toNat) (((0#16).toNat : Int) + (1 : Nat) / (2#16).toNat) = false := by decide

theorem test_meets_UpldFrame : ∃ t, exec (.upld { x := 1023, y := 0 } { w := 2, h := 1 } [0xAAAA, 0xBBBB]) State.reset = .next t :=
  exec_of_wf (by decide) _

theorem test_meets_ReadersReturnOneResultOrRaise : writesPlane (.disp24 { x := 0, y := 0 } { w := 4, h := 1 } 255) = false := rfl

theorem test_meets_ReadsMayBeRepeatedOrLeftOut :
    writesPlane (.vrd { x := 12, y := 480 }) = false ∧ (∃ t, exec (.vrd { x := 12, y := 480 }) State.reset = .next t) ∧
      ∃ u, exec (.vrd { x := 1023, y := 511 }) State.reset = .next u :=
  ⟨rfl, exec_of_wf rfl _, exec_of_wf rfl _⟩

theorem test_meets_DownloadOutsideThePlaneReturnsNothing :
    (params .fault).oobPolicy = .fault ∧ ∃ xy ∈ rectCells { x := 1023, y := 0 } { w := 2, h := 1 }, insidePlane xy.1 xy.2 = false := by decide

/-- Both ends of the range, and a tie. -/
theorem test_meets_LevelThresholds : (0 : ℚ) ≤ 0 ∧ (0 : ℚ) ≤ 1 / 62 ∧ (1 / 62 : ℚ) ≤ 1 ∧ (1 : ℚ) ≤ 1 ∧ 0 ≤ 31 ∧ 31 ≤ 31 := by decide +kernel

theorem test_meets_PackRoundsEachChannel :
    let c : Colour := { r := 128 / 255, g := 0, b := 1, a := 1 }
    0 ≤ c.r ∧ c.r ≤ 1 ∧ 0 ≤ c.g ∧ c.g ≤ 1 ∧ 0 ≤ c.b ∧ c.b ≤ 1 ∧ 0 ≤ c.a ∧ c.a ≤ 1 := by decide +kernel

/-- R172: the example `Dither(5, 2)`, and the corner of the plane. -/
theorem test_meets_DitherIsTheFixedTable : ((5 : Int) % 4 = (1 : Nat) ∧ (2 : Int) % 4 = (2 : Nat)) ∧ (1023 : Int) % 4 = (3 : Nat) ∧ (511 : Int) % 4 = (3 : Nat) := by
  decide

theorem test_meets_UnpackOfPackIsTheNearestColour :
    let c : Colour := { r := 128 / 255, g := 0, b := 1, a := 1 / 2 }
    0 ≤ c.r ∧ c.r ≤ 1 ∧ 0 ≤ c.g ∧ c.g ≤ 1 ∧ 0 ≤ c.b ∧ c.b ≤ 1 ∧ 0 ≤ c.a ∧ c.a ≤ 1 := by decide +kernel

theorem test_meets_EightBitChannelLevels : 0 ≤ 255 ∧ 255 ≤ 255 := by decide

theorem test_meets_FragFlatWritesItsPixel :
    isCell ({ fragArgs0 with target := { x := 0, y := 511 } } : FragArgs).target.x.toNat
      ({ fragArgs0 with target := { x := 0, y := 511 } } : FragArgs).target.y.toNat ⟨0, 511⟩ = true := by decide

/-- The target, the texel cell and the CLUT cell of the second fragment of section 3.1. -/
theorem test_meets_FragRawWritesTheTexel :
    isCell fragArgs0.target.x.toNat fragArgs0.target.y.toNat ⟨100, 50⟩ = true ∧
    isCell (fragArgs0.page.x.toNat + fragArgs0.tex.u.toNat / tpc .bpp4 % 256 : Nat) (fragArgs0.page.y.toNat + fragArgs0.tex.v.toNat % 256 : Nat)
      ⟨643, 258⟩ = true ∧
    isCell (fragArgs0.clut.x.toNat + paletteIndex .bpp4 (readCell Config.params textured.plane ⟨643, 258⟩) (fragArgs0.tex.u.toNat % tpc .bpp4) : Nat)
      fragArgs0.clut.y.toNat ⟨12, 480⟩ = true := by decide

/-- At 8 bits per pixel the cell 0xABCD at column 640 + 6 holds the index 0xAB at place 1. -/
theorem test_meets_FragModWritesTheModulatedTexel :
    isCell (fragArgs0.page.x.toNat + fragArgs0.tex.u.toNat / tpc .bpp8 % 256 : Nat) (fragArgs0.page.y.toNat + fragArgs0.tex.v.toNat % 256 : Nat)
      ⟨646, 258⟩ = true ∧
    isCell (fragArgs0.clut.x.toNat + paletteIndex .bpp8 (readCell Config.params (stateWith [(⟨646, 258⟩, 0xABCD#16)]).plane ⟨646, 258⟩)
      (fragArgs0.tex.u.toNat % tpc .bpp8) : Nat) fragArgs0.clut.y.toNat ⟨171, 480⟩ = true := by decide

theorem test_meets_FragFrame :
    (∃ t, exec (.fragFlat flags0 3 fragArgs0) textured = .next t) ∧ (∃ t, exec (.fragRaw flags0 .bpp8 fragArgs0) textured = .next t) ∧
      ∃ t, exec (.fragMod flags0 .bpp16 fragArgs0) textured = .next t :=
  ⟨exec_of_wf (by decide) _, exec_of_wf (by decide) _, exec_of_wf (by decide) _⟩

/-- A fragment over the palette and indices of section 3.1, at the place whose palette entry is the given one. -/
def fragmentAtU (u : BitVec 16) : Fragment := fragmentOf flags0 .rawTexture .bpp4 { fragArgs0 with tex := { u := u, v := 2 } }

/-- An untextured fragment, and textured ones whose texels are the sentinel and 0x8000. -/
theorem test_meets_FragIsDrawnInItsPassOnly :
    (fragmentOf flags0 .noTexture depthUnread fragArgs0).blend = .noTexture ∧ (fragmentAtU 14).blend ≠ .noTexture ∧
      resolveTexel (params .fault) textured.plane (fragmentAtU 14) = .ok 0x0000 ∧
      resolveTexel (params .fault) textured.plane (fragmentAtU 15) = .ok 0x8000 := by decide +kernel

theorem test_meets_FragColourIsNormalized : ∃ c, frag (params .fault) textured.plane (fragmentOf flags0 .noTexture depthUnread fragArgs0) false = .ok (some c) :=
  ⟨_, rfl⟩

/-- Section 2.7: a target outside the plane, and a texel cell (1100, 550); and a palette whose entry of index 13 is the first cell past its row. -/
theorem test_meets_FragChecksItsTargetFirst :
    let target := fragmentOf flags0 .noTexture depthUnread { fragArgs0 with target := { x := 1024, y := 0 } }
    let texel := fragmentOf flags0 .rawTexture .bpp16 { fragArgs0 with target := { x := 0, y := 0 }, tex := { u := 200, v := 250 }, page := { x := 900, y := 300 } }
    let clut := fragmentOf flags0 .rawTexture .bpp4 { fragArgs0 with tex := { u := 12, v := 2 }, clut := { x := 1011, y := 480 } }
    (params .fault).oobPolicy = .fault ∧ insidePlane target.x target.y = false ∧
    (insidePlane texel.x texel.y = true ∧ texel.blend ≠ .noTexture ∧
      insidePlane (texel.page.x.toNat + ⌊texel.tx / (tpc texel.depth : ℚ)⌋ % 256) (texel.page.y.toNat + ⌊texel.ty⌋ % 256) = false ∧
      fragOp (params .fault) false textured.plane texel = .error (.outOfBounds .texel 1100 550)) ∧
    insidePlane clut.x clut.y = true ∧ clut.blend ≠ .noTexture ∧ clut.depth ≠ .bpp16 ∧
      isCell (clut.page.x.toNat + ⌊clut.tx / (tpc clut.depth : ℚ)⌋ % 256) (clut.page.y.toNat + ⌊clut.ty⌋ % 256) ⟨643, 258⟩ = true ∧
      insidePlane (clut.clut.x.toNat + paletteIndex clut.depth (readCell (params .fault) textured.plane ⟨643, 258⟩)
        ⌊Int.fract (clut.tx / (tpc clut.depth : ℚ)) * (tpc clut.depth : ℚ)⌋.toNat : Nat) clut.clut.y.toNat = false ∧
      fragOp (params .fault) true textured.plane clut = .error (.outOfBounds .clut 1024 480) := by decide +kernel

theorem test_meets_DrawRunsFragOncePerCoveredPixel :
    1 ≤ drawArgs0.verts.length ∧ (List.replicate 15 vertex0).length ≤ 15 := by decide

theorem test_meets_DrawFrame :
    (∃ t, exec (.drawFlat flags0 3 drawArgs0) textured = .next t) ∧ (∃ t, exec (.drawRaw flags0 .bpp8 drawArgs0) textured = .next t) ∧
      ∃ t, exec (.drawMod flags0 .bpp16 drawArgs0) textured = .next t :=
  ⟨exec_of_wf (by decide) _, exec_of_wf (by decide) _, exec_of_wf (by decide) _⟩

theorem test_meets_FlatPrimitiveFillsItsCover :
    flags0.pass = false ∧ flags0.semi = false ∧ drawArgs0.verts ≠ [] ∧ (∀ v ∈ drawArgs0.verts, v.colour = white) ∧
      ∀ xy ∈ (params .fault).cover drawArgs0.kind (drawArgs0.verts.map vertexPos), insidePlane xy.1 xy.2 = true := by decide

/-- Two covered cells in either order, textured from a cell that is not covered. -/
theorem test_meets_PixelOrderIsUnobservableWithoutOverlap :
    let p := primitiveOf flags0 .rawTexture .bpp16 drawArgs0
    let V := (stateWith [(⟨645, 263⟩, 0x1234#16)]).plane
    let l : List (Int × Int) := [(0, 0), (1, 0)]
    l.Nodup ∧ l.Perm [(1, 0), (0, 0)] ∧ (∀ xy ∈ l, insidePlane xy.1 xy.2 = true) ∧ p.blend ≠ .noTexture ∧
      ∀ xy ∈ l, resolveTexel (params .fault) V (fragmentAt (params .fault) p xy) = .ok 0x1234 ∧
        ∀ c ∈ texelReads (params .fault) V (fragmentAt (params .fault) p xy), ∀ xy' ∈ l, isCell xy'.1 xy'.2 c = false := by decide +kernel

/-- Every arrangement of the two covered positions. -/
theorem test_meets_EveryPixelOrderIsPossible :
    ([(1, 0), (0, 0)] : List (Int × Int)).Perm (coverOf (params .fault) (primitiveOf flags0 .noTexture depthUnread drawArgs0)) := by decide

/-- Two primitives of one kind and position with different colours, and one whose vertices share a colour. -/
theorem test_meets_CoverAndInterpMeetTheirRequirements :
    let p := primitiveOf flags0 .noTexture depthUnread drawArgs0
    let q := primitiveOf flags0 .rawTexture .bpp8 { drawArgs0 with verts := [{ vertex0 with colour := { r := 1, g := 2, b := 3 } }] }
    p.kind = q.kind ∧ p.verts.map vertexPos = q.verts.map vertexPos ∧ p ≠ q ∧ p.verts ≠ [] ∧ ∀ v ∈ p.verts, v.colour = white := by decide

/-- A primitive of two colours has an interpolated shade, and its channels are limited. -/
theorem test_interpShade_limited :
    interpShade (params .fault) (primitiveOf flags0 .noTexture depthUnread
      { drawArgs0 with verts := [vertex0, { vertex0 with colour := { r := 1, g := 2, b := 3 } }] }) (0, 0) = { r := 1, g := 0, b := 1 / 2 } := by
  decide +kernel

theorem test_meets_Disp15ReturnsTheRegion :
    rectInside { x := 1022, y := 511 } { w := 2, h := 1 } = true ∧
      isCell (((1022#16).toNat : Int) + (1 : Nat)) (((511#16).toNat : Int) + (0 : Nat)) ⟨1023, 511⟩ = true := by decide

/-- Section 2.5: the widest row of the plane, 682 pixels over the cells 0 to 1022. -/
theorem test_meets_Disp24ReturnsTheByteStream :
    (682#16) ≠ 0#16 ∧ (0#16).toNat + (((682#16).toNat - 1) * 3 / 2 + 2) ≤ 1024 ∧ (511#16).toNat + (1#16).toNat ≤ 512 ∧ 681 < (682#16).toNat := by
  decide

/-- The first column past the plane in the 15-bit mode; the second cell of a 24-bit pixel, and the first row past the plane. -/
theorem test_meets_DisplayOutsideThePlaneReturnsNothing :
    (params .fault).oobPolicy = .fault ∧ (1 < (2#16).toNat ∧ insidePlane (1023 + 1 : Nat) (0 + 0 : Nat) = false) ∧
    (0 < (1#16).toNat ∧ insidePlane (1023 + 0 * 3 / 2 : Nat) (0 : Nat) = true ∧ insidePlane (1023 + (0 * 3 / 2 + 1) : Nat) (0 : Nat) = false) ∧
    insidePlane (0 : Nat) (511 + 1 : Nat) = false := by decide

/-- Two planes that differ in bit 15 of one cell. -/
theorem test_meets_Disp15IgnoresTheMaskBit :
    (∀ c, (readCell Config.params (stateWith [(⟨0, 0⟩, 0x0000#16)]).plane c).extractLsb' 0 15 =
      (readCell Config.params (stateWith [(⟨0, 0⟩, 0x8000#16)]).plane c).extractLsb' 0 15) ∧
    (∃ t, exec (.disp15 { x := 0, y := 0 } { w := 1, h := 1 } 255) (stateWith [(⟨0, 0⟩, 0x0000#16)]) = .next t) ∧
    (stateWith [(⟨0, 0⟩, 0x0000#16)]).outputs = (stateWith [(⟨0, 0⟩, 0x8000#16)]).outputs := by
  refine ⟨fun c => ?_, exec_of_wf rfl _, rfl⟩
  show (readCell Config.params (writeCell State.reset.plane ⟨0, 0⟩ 0x0000#16) c).extractLsb' 0 15 =
    (readCell Config.params (writeCell State.reset.plane ⟨0, 0⟩ 0x8000#16) c).extractLsb' 0 15
  by_cases h : c = ⟨0, 0⟩
  · subst h
    rw [readCell_writeCell_same, readCell_writeCell_same]
    decide
  · rw [readCell_writeCell_ne _ _ _ h, readCell_writeCell_ne _ _ _ h]

end Sys2Proof.Tests
end

/-! Reads may be repeated or left out (R53), because an operation sees of the state no more than the plane and the count of DRAWs, and a
reading operation leaves both as they were. -/

namespace Sys2Proof.Machine

/-- `exec_cases` for two states with one plane and one DRAW count: the operation ends in both with the same answer of its unit. -/
theorem exec_cases_of_plane_eq (i : Instr) {s t : State} (hp : t.plane = s.plane) (hd : t.drawCount = s.drawCount) :
    (∃ r : Except Violation Plane, exec i s = .next (s.finishWhole r) ∧ exec i t = .next (t.finishWhole r)) ∨
    (∃ r : Except Violation Output, exec i s = .next (s.finishRead r) ∧ exec i t = .next (t.finishRead r)) ∨
    (∃ r : Plane × Option Violation, exec i s = .next (s.finishWrite r) ∧ exec i t = .next (t.finishWrite r)) ∨
    (∃ r : Plane × Option Violation,
      exec i s = .next (s.countDraw.finishWrite r) ∧ exec i t = .next (t.countDraw.finishWrite r)) ∨
    exec i s = .refused .illFormedRecord := by
  have draw (fl b d a) :
      (∃ r, drawRecord Config.params fl b d a s = .next (s.countDraw.finishWrite r) ∧
        drawRecord Config.params fl b d a t = .next (t.countDraw.finishWrite r)) ∨
      drawRecord Config.params fl b d a s = .refused .illFormedRecord := by
    by_cases h : vertexCountOk a.verts = true
    · refine .inl ⟨_, drawRecord_eq _ _ _ _ _ _ h, ?_⟩
      rw [drawRecord_eq _ _ _ _ _ _ h, drawState, hp, hd]
    · exact .inr (by simp [drawRecord, h])
  cases i with
  | vwr cell value => exact .inl ⟨_, rfl, hp ▸ rfl⟩
  | fragFlat fl dshift args => exact .inl ⟨_, rfl, hp ▸ rfl⟩
  | fragRaw fl depth args => exact .inl ⟨_, rfl, hp ▸ rfl⟩
  | fragMod fl depth args => exact .inl ⟨_, rfl, hp ▸ rfl⟩
  | vrd cell => exact .inr (.inl ⟨_, rfl, hp ▸ rfl⟩)
  | dnld origin size => exact .inr (.inl ⟨_, rfl, hp ▸ rfl⟩)
  | disp15 origin size fade => exact .inr (.inl ⟨_, rfl, hp ▸ rfl⟩)
  | disp24 origin size fade => exact .inr (.inl ⟨_, rfl, hp ▸ rfl⟩)
  | upld origin size buf =>
    by_cases h : bufferFits size buf = true
    · exact .inr (.inr (.inl ⟨_, if_pos h, (if_pos h).trans (hp ▸ rfl)⟩))
    · exact .inr (.inr (.inr (.inr (if_neg h))))
  | drawFlat fl dshift args => exact .inr (.inr (.inr (draw fl .noTexture depthUnread args)))
  | drawRaw fl depth args => exact .inr (.inr (.inr (draw fl .rawTexture depth args)))
  | drawMod fl depth args => exact .inr (.inr (.inr (draw fl .textureBlend depth args)))

/-- An operation that does not write the plane (R27) ends as a read. -/
theorem exec_of_reader {i : Instr} (h : writesPlane i = false) (s : State) : ∃ r, exec i s = .next (s.finishRead r) := by
  cases i with
  | vrd cell => exact ⟨_, rfl⟩
  | dnld origin size => exact ⟨_, rfl⟩
  | disp15 origin size fade => exact ⟨_, rfl⟩
  | disp24 origin size fade => exact ⟨_, rfl⟩
  | _ => cases h

/-- What a read appends to the results is the same from every state: its result, or nothing after a violation (R221). -/
theorem State.finishRead_outputs (r : Except Violation Output) : ∃ returned, ∀ s : State, (s.finishRead r).outputs = s.outputs ++ returned := by
  cases r with
  | ok o => exact ⟨[o], fun s => rfl⟩
  | error v => exact ⟨[], fun s => (List.append_nil s.outputs).symm⟩

/-- From two states with one plane and one DRAW count an operation leaves one plane and returns the same results. -/
theorem exec_congr_of_plane_eq {j : Instr} {s t u : State} (hp : t.plane = s.plane) (hd : t.drawCount = s.drawCount)
    (h : exec j s = .next u) :
    ∃ u' returned, exec j t = .next u' ∧ u'.plane = u.plane ∧ u.outputs = s.outputs ++ returned ∧ u'.outputs = t.outputs ++ returned := by
  rcases exec_cases_of_plane_eq j hp hd with ⟨r, hs, ht⟩ | ⟨r, hs, ht⟩ | ⟨r, hs, ht⟩ | ⟨r, hs, ht⟩ | hs
  · cases hs.symm.trans h
    exact ⟨_, [], ht, by simp [State.finishWhole_plane, hp], by simp, by simp⟩
  · cases hs.symm.trans h
    obtain ⟨returned, hr⟩ := State.finishRead_outputs r
    exact ⟨_, returned, ht, by simp [hp], hr s, hr t⟩
  · cases hs.symm.trans h
    exact ⟨_, [], ht, by simp, by simp, by simp⟩
  · cases hs.symm.trans h
    exact ⟨_, [], ht, by simp, by simp, by simp⟩
  · cases hs.symm.trans h

/-- Settles O30: a read keeps the plane and the DRAW count, which is all that the operation after it sees. -/
theorem readsMayBeRepeatedOrLeftOut : Obligations.ReadsMayBeRepeatedOrLeftOut := by
  unfold Obligations.ReadsMayBeRepeatedOrLeftOut
  intro i j s t u hread hi hj
  obtain ⟨r, hr⟩ := exec_of_reader hread s
  obtain rfl : s.finishRead r = t := Host.Outcome.next.inj (hr.symm.trans hi)
  exact ⟨fun c => by rw [State.finishRead_plane],
    exec_congr_of_plane_eq (State.finishRead_plane s r) (State.finishRead_drawCount s r) hj⟩

end Sys2Proof.Machine

/-! ## The palette index (R46, R72, R73, R121, R126) -/

namespace Sys2Proof.Machine

/-- The shift and the mask of R126 cut out of the raw cell the bit field at the texel's place. -/
theorem paletteIndex_eq_extractLsb' (d : DepthMode) (raw : Cell) (k : Nat) :
    paletteIndex d raw k = (raw.extractLsb' (k * bpi d) (bpi d)).toNat := by
  rw [paletteIndex, Nat.one_shiftLeft, Nat.and_two_pow_sub_one_eq_mod, BitVec.extractLsb'_toNat]

/-- Settles O40: with 8 or 4 bits per index, the field at place k begins at bit 8 · k or 4 · k of the cell. -/
theorem paletteIndexIsLowOrderFirst : Obligations.PaletteIndexIsLowOrderFirst := by
  unfold Obligations.PaletteIndexIsLowOrderFirst
  have byte (raw : Cell) (k : Nat) : paletteIndex .bpp8 raw k = (raw.extractLsb' (k * 8) 8).toNat := paletteIndex_eq_extractLsb' .bpp8 raw k
  have nibble (raw : Cell) (k : Nat) : paletteIndex .bpp4 raw k = (raw.extractLsb' (k * 4) 4).toNat := paletteIndex_eq_extractLsb' .bpp4 raw k
  exact ⟨fun raw => ⟨byte raw 0, byte raw 1, nibble raw 0, nibble raw 1, nibble raw 2, nibble raw 3⟩, nibble _ 0, nibble _ 3⟩

end Sys2Proof.Machine

/-! ## The colour codec (R10, R101, R103, R104, R108) -/

namespace Sys2Proof.Machine

/-- The mask bit of an alpha channel as a number: what `round` answers, which fits one bit (R103). -/
theorem maskOf_toNat (t : RoundTie) (a : ℚ) : ((maskOf t a).toNat : Int) = roundQ t (clamp01 a) := by
  obtain ⟨h0, h1⟩ := roundQ_mem (t := t) (n := 1) (clamp01_nonneg a) (by simpa using clamp01_le_one a)
  simp only [maskOf, BitVec.toNat_ofInt]
  omega

/-- The number of a bit string is the number of its low part plus that of its high part times 2 to the low part's width. -/
theorem toNat_append_eq_mul_add {m n : Nat} (x : BitVec m) (y : BitVec n) : (x ++ y).toNat = 2 ^ n * x.toNat + y.toNat := by
  rw [BitVec.toNat_append, Nat.shiftLeft_eq, Nat.mul_comm, Nat.two_pow_add_eq_or_of_lt y.isLt]

/-- The number of a packed cell: the mask bit from bit 15 on, the levels of blue, green and red from bits 10, 5 and 0 on (R70, R103). -/
theorem pack_toNat (t : RoundTie) (c : Colour) :
    (pack t c).toNat =
      32768 * (maskOf t c.a).toNat + 1024 * (levelOf t c.b).toNat + 32 * (levelOf t c.g).toNat + (levelOf t c.r).toNat := by
  simp only [pack, toNat_append_eq_mul_add]
  ring

/-- `pack_toNat` by what `round` answers, for any colour, each channel clamped to [0, 1] (R103, R104). -/
theorem pack_toNat_eq_roundQ (t : RoundTie) (c : Colour) :
    ((pack t c).toNat : Int) =
      32768 * roundQ t (clamp01 c.a) + 1024 * roundQ t (31 * clamp01 c.b) + 32 * roundQ t (31 * clamp01 c.g) +
        roundQ t (31 * clamp01 c.r) := by
  rw [← maskOf_toNat, ← levelOf_toNat, ← levelOf_toNat, ← levelOf_toNat]
  exact_mod_cast pack_toNat t c

/-- Settles O32: each level of the cell, as a channel, packs to itself, the mask bit too, and the cell is these four fields. -/
theorem packUndoesUnpack : Obligations.PackUndoesUnpack := by
  unfold Obligations.PackUndoesUnpack
  intro t v
  simp only [pack, unpack, levelOf_channelOfLevel, maskOf_alphaOfBit]
  exact cell_of_fields v

/-- Settles O33: inside the unit cube the clamp of `PACK` does nothing, so `pack_toNat_eq_roundQ` is the sum of the four fields. -/
theorem packRoundsEachChannel : Obligations.PackRoundsEachChannel := by
  unfold Obligations.PackRoundsEachChannel
  intro t c hr0 hr1 hg0 hg1 hb0 hb1 ha0 ha1
  have hsum := pack_toNat_eq_roundQ t c
  rw [clamp01_of_mem hr0 hr1, clamp01_of_mem hg0 hg1, clamp01_of_mem hb0 hb1, clamp01_of_mem ha0 ha1] at hsum
  exact ⟨hsum, roundQ_near t⟩

end Sys2Proof.Machine

/-! ## The pass that draws a fragment (R143, R144, R146) -/

namespace Sys2Proof.Machine

/-- `Frag` on an untextured fragment: drawn in the pass its flag names (R142, R143). -/
theorem frag_untextured (P : Params) (V : Plane) {f : Fragment} (pass : Bool) (hb : f.blend = .noTexture) :
    frag P V f pass = .ok (if f.semi = pass then some (ditherColour f (flatColour P f)) else none) := by
  have h : frag P V f pass = .ok (fragUntextured P f pass) := by simp only [frag, hb]
  exact h

/-- The sentinel is discarded, whatever the pass, the blend mode and the flags (R144). -/
@[simp] theorem fragTextured_sentinel (f : Fragment) (pass : Bool) : fragTextured f 0x0000#16 pass = none :=
  if_pos rfl

/-- A texel other than the sentinel is drawn in the pass equal to its mask bit AND the flag (R146). -/
theorem fragTextured_of_ne_sentinel (f : Fragment) {t : Cell} (pass : Bool) (ht : t ≠ 0x0000#16) :
    fragTextured f t pass =
      if (t.getLsbD 15 && f.semi) = pass then some (ditherColour f (texturedColour f (unpack t))) else none := by
  have hs : ¬ isSentinel t = true := fun h => ht (eq_of_beq h)
  exact if_neg hs

/-- Settles O46: `Frag` is one test of the pass against the effective semi-transparency, with the sentinel discarded before it. -/
theorem fragIsDrawnInItsPassOnly : Obligations.FragIsDrawnInItsPassOnly := by
  unfold Obligations.FragIsDrawnInItsPassOnly
  intro P V f
  refine ⟨fun hb => ⟨ditherColour f (flatColour P f), ?_, ?_⟩, fun t hb hr =>
    ⟨?_, fun ht => ⟨ditherColour f (texturedColour f (unpack t)), ?_, ?_⟩⟩⟩
  · rw [frag_untextured P V f.semi hb, if_pos rfl]
  · rw [frag_untextured P V (!f.semi) hb, if_neg (Bool.eq_not_self _).mp]
  · rintro rfl pass
    rw [frag_textured P V f pass hb hr, fragTextured_sentinel]
  · rw [frag_textured P V f _ hb hr, fragTextured_of_ne_sentinel f _ ht, if_pos rfl]
  · rw [frag_textured P V f _ hb hr, fragTextured_of_ne_sentinel f _ ht, if_neg (Bool.eq_not_self _).mp]

end Sys2Proof.Machine

/-! ## The dither table by the position's residues (R171, R172, R174) -/

namespace Sys2Proof.Machine

/-- The dither entry depends on the two residues modulo four only (R174). -/
theorem dither_congr {x x' y y' : Int} (hx : x % 4 = x' % 4) (hy : y % 4 = y' % 4) : dither x y = dither x' y' := by
  simp only [dither, hx, hy]

/-- The sixteen entries of `ditherTable` are the four rows of R171, read at column `i` of row `j` (R172). -/
theorem ditherRows_getElem? (i j : Fin 4) :
    ([[-4, 0, -3, 1], [2, -2, 3, -1], [-3, 1, -4, 0], [3, -1, 2, -2]] : List (List Int))[j.val]?.bind (fun row => row[i.val]?) =
      some (dither i.val j.val) := by
  revert i j
  decide

/-- Settles O41: a position has the entry of its residues, which lie on the 4 by 4 tile, where the rows are compared with the table;
adding four to a coordinate leaves its residue. -/
theorem ditherIsTheFixedTable : Obligations.DitherIsTheFixedTable := by
  unfold Obligations.DitherIsTheFixedTable
  refine ⟨fun x y i j hx hy => ?_, fun x y => ⟨ditherStep_true x y, ditherStep_false x y, ?_, ?_⟩⟩
  · have hi : i < 4 := by omega
    have hj : j < 4 := by omega
    have hres : dither x y = dither i j := dither_congr (by omega) (by omega)
    rw [hres]
    exact ditherRows_getElem? ⟨i, hi⟩ ⟨j, hj⟩
  · exact dither_congr (Int.add_emod_right x 4) rfl
  · exact dither_congr rfl (Int.add_emod_right y 4)

end Sys2Proof.Machine

/-! ## Decoding inverts encoding (R77 to R92) -/

namespace Sys2Proof.Machine

/-! ### From an operation to its words and back -/

/-- The operands of a FRAG descriptor read back as what was written (R85). -/
theorem decode_encodeFrag {w0 : Word32} {h : Header} {mk : FragArgs → Instr} (hh : decodeHeader w0 = some h)
    (hb : ∀ ws, decodeBody h ws = decodeFragBody mk ws) (a : FragArgs) : decode (encodeFrag w0 a) = .instr (mk a) := by
  simp [decode, encodeFrag, hh, hb, decodeFragBody]

/-- The operands of a DRAW descriptor read back as what was written, if the number of vertices fits its field (R86). -/
theorem decode_encodeDraw {fl : DrawFlags} {dshift blend : BitVec 2} {h : Header} {mk : DrawArgs → Instr} {a : DrawArgs}
    (hv : vertexCountOk a.verts = true)
    (hh : decodeHeader (drawHeaderWord fl (BitVec.ofNat 4 a.verts.length) (fieldOfKind a.kind) dshift blend) = some h)
    (hb : ∀ ws, decodeBody h ws = decodeDrawBody mk a.kind (BitVec.ofNat 4 a.verts.length) ws) :
    decode (encodeDraw fl dshift blend a) = .instr (mk a) := by
  obtain ⟨_, hnv⟩ := nvField_of_count hv
  simp only [decode, encodeDraw, hh, hb, decodeDrawBody, length_vertexWords, hnv, if_true, vertsOfWords_flatMap,
    coordOfWord_wordOfCoord]

/-- Settles O11: the header word reads back by the `decodeHeader` law of its form, the operand words by theirs. -/
theorem decodeOfEncodeIsTheInstruction : Obligations.DecodeOfEncodeIsTheInstruction := by
  unfold Obligations.DecodeOfEncodeIsTheInstruction
  intro i hwf
  have plain1 : decodeHeader 0x10000000#32 = some .vwr := by decide
  have plain2 : decodeHeader 0x20000000#32 = some .vrd := by decide
  have plain3 : decodeHeader 0x30000000#32 = some .upld := by decide
  have plain4 : decodeHeader 0x40000000#32 = some .dnld := by decide
  cases i with
  | vwr cell value => simp [decode, encode, plain1, decodeBody, decodeVwrBody]
  | vrd cell => simp [decode, encode, plain2, decodeBody, decodeVrdBody]
  | upld origin size buf =>
    have hlen : buf.length = size.w.toNat * size.h.toNat := by simpa [Instr.wf, bufferFits] using hwf
    simp [decode, encode, plain3, decodeBody, decodeUpldBody, hlen]
  | dnld origin size => simp [decode, encode, plain4, decodeBody, decodeRegionBody]
  | fragFlat fl dshift args => exact decode_encodeFrag (decodeHeader_fragFlat fl dshift) (fun _ => rfl) args
  | fragRaw fl depth args => exact decode_encodeFrag (decodeHeader_fragRaw fl depth) (fun _ => rfl) args
  | fragMod fl depth args => exact decode_encodeFrag (decodeHeader_fragMod fl depth) (fun _ => rfl) args
  | drawFlat fl dshift args =>
    exact decode_encodeDraw hwf (decodeHeader_drawFlat fl dshift _ _ (nvField_of_count hwf).1) fun _ => rfl
  | drawRaw fl depth args => exact decode_encodeDraw hwf (decodeHeader_drawRaw fl depth _ _ (nvField_of_count hwf).1) fun _ => rfl
  | drawMod fl depth args => exact decode_encodeDraw hwf (decodeHeader_drawMod fl depth _ _ (nvField_of_count hwf).1) fun _ => rfl
  | disp15 origin size fade => simp [decode, encode, decodeHeader_disp15, decodeBody, decodeRegionBody]
  | disp24 origin size fade => simp [decode, encode, decodeHeader_disp24, decodeBody, decodeRegionBody]

/-! ### From words to the operation and back -/

/-- The word a header was read from (R78, R85 to R87). -/
def headerWord : Header → Word32
  | .vwr => 0x10000000#32
  | .vrd => 0x20000000#32
  | .upld => 0x30000000#32
  | .dnld => 0x40000000#32
  | .fragFlat fl dshift => fragHeaderWord fl dshift 0#2
  | .fragRaw fl depth => fragHeaderWord fl (shiftOfDepth depth) 1#2
  | .fragMod fl depth => fragHeaderWord fl (shiftOfDepth depth) 2#2
  | .drawFlat fl dshift kind nv => drawHeaderWord fl nv (fieldOfKind kind) dshift 0#2
  | .drawRaw fl depth kind nv => drawHeaderWord fl nv (fieldOfKind kind) (shiftOfDepth depth) 1#2
  | .drawMod fl depth kind nv => drawHeaderWord fl nv (fieldOfKind kind) (shiftOfDepth depth) 2#2
  | .disp15 fade => dispHeaderWord fade 0#1
  | .disp24 fade => dispHeaderWord fade 1#1

theorem shiftOfDepth_of_some {d : BitVec 2} {depth : DepthMode} (h : depthOfShift d = some depth) : shiftOfDepth depth = d := by
  revert d depth
  decide

theorem fieldOfKind_of_some {k : BitVec 2} {kind : PrimKind} (h : kindOfField k = some kind) : fieldOfKind kind = k := by
  revert k kind
  decide

/-- A word that begins with the opcode of FRAG and zeros is the header word of its own fields (R85). -/
theorem fragHeaderWord_fields {w0 : Word32} (hop : w0.extractLsb' 28 4 = 5#4) (hz : w0.extractLsb' 7 21 = 0#21) :
    fragHeaderWord (flagsOfHeader w0) (w0.extractLsb' 5 2) (w0.extractLsb' 3 2) = w0 := by
  simp only [fragHeaderWord, flagsOfHeader, ofBool_getLsbD, ← hop, ← hz]
  rw [extract_adjacent w0 7 21 4, extract_adjacent w0 5 2 25, extract_adjacent w0 3 2 27, extract_adjacent w0 2 1 29,
    extract_adjacent w0 1 1 30, extract_adjacent w0 0 1 31]
  exact extract_whole w0

/-- A word that begins with the opcode of DRAW and zeros is the header word of its own fields (R86). -/
theorem drawHeaderWord_fields {w0 : Word32} (hop : w0.extractLsb' 28 4 = 6#4) (hz : w0.extractLsb' 13 15 = 0#15) :
    drawHeaderWord (flagsOfHeader w0) (w0.extractLsb' 9 4) (w0.extractLsb' 7 2) (w0.extractLsb' 5 2) (w0.extractLsb' 3 2) = w0 := by
  simp only [drawHeaderWord, flagsOfHeader, ofBool_getLsbD, ← hop, ← hz]
  rw [extract_adjacent w0 13 15 4, extract_adjacent w0 9 4 19, extract_adjacent w0 7 2 23, extract_adjacent w0 5 2 25,
    extract_adjacent w0 3 2 27, extract_adjacent w0 2 1 29, extract_adjacent w0 1 1 30, extract_adjacent w0 0 1 31]
  exact extract_whole w0

/-- A word that begins with the opcode of DISP, its zero bits zero, is the header word of its own fields (R87). -/
theorem dispHeaderWord_fields {w0 : Word32} (hop : w0.extractLsb' 28 4 = 7#4) (hhi : w0.extractLsb' 16 12 = 0#12)
    (hlo : w0.extractLsb' 1 7 = 0#7) : dispHeaderWord (w0.extractLsb' 8 8) (BitVec.ofBool (w0.getLsbD 0)) = w0 := by
  simp only [dispHeaderWord, ofBool_getLsbD, ← hop, ← hhi, ← hlo]
  rw [extract_adjacent w0 16 12 4, extract_adjacent w0 8 8 16, extract_adjacent w0 1 7 24, extract_adjacent w0 0 1 31]
  exact extract_whole w0

/-- A word with an opcode and nothing else (R81 to R84). -/
theorem plainWord_fields {w0 : Word32} {k : BitVec 4} (hop : w0.extractLsb' 28 4 = k) (hz : w0.extractLsb' 0 28 = 0#28) :
    k ++ 0#28 = w0 := by
  rw [← hop, ← hz, extract_adjacent w0 0 28 4]
  exact extract_whole w0

theorem decodePlainHeader_eq_some {w0 : Word32} {h h' : Header} (hd : decodePlainHeader w0 h = some h') :
    w0.extractLsb' 0 28 = 0#28 ∧ h = h' := by
  simpa [decodePlainHeader] using hd

/-- What a FRAG header that decodes says, by its field `BLEND` (R85, R90). -/
theorem decodeFragHeader_cases {w0 : Word32} {h : Header} (hd : decodeFragHeader w0 = some h) :
    w0.extractLsb' 7 21 = 0#21 ∧
    (w0.extractLsb' 3 2 = 0#2 ∧ h = .fragFlat (flagsOfHeader w0) (w0.extractLsb' 5 2) ∨
      ∃ depth, shiftOfDepth depth = w0.extractLsb' 5 2 ∧
        (w0.extractLsb' 3 2 = 1#2 ∧ h = .fragRaw (flagsOfHeader w0) depth ∨
          w0.extractLsb' 3 2 = 2#2 ∧ h = .fragMod (flagsOfHeader w0) depth)) := by
  unfold decodeFragHeader at hd
  split at hd
  case isFalse => cases hd
  case isTrue hz =>
    refine ⟨hz, ?_⟩
    dsimp only at hd
    split at hd
    · next hb => exact .inl ⟨eq_ofNat_of_toNat hb, (Option.some.inj hd).symm⟩
    · next hb =>
      obtain ⟨depth, hdepth, rfl⟩ := Option.map_eq_some_iff.mp hd
      exact .inr ⟨depth, shiftOfDepth_of_some hdepth, .inl ⟨eq_ofNat_of_toNat hb, rfl⟩⟩
    · next hb =>
      obtain ⟨depth, hdepth, rfl⟩ := Option.map_eq_some_iff.mp hd
      exact .inr ⟨depth, shiftOfDepth_of_some hdepth, .inr ⟨eq_ofNat_of_toNat hb, rfl⟩⟩
    · cases hd

/-- What a DRAW header that decodes says, by its field `BLEND` (R86, R90). -/
theorem decodeDrawHeader_cases {w0 : Word32} {h : Header} (hd : decodeDrawHeader w0 = some h) :
    w0.extractLsb' 13 15 = 0#15 ∧ w0.extractLsb' 9 4 ≠ 0#4 ∧ ∃ kind, fieldOfKind kind = w0.extractLsb' 7 2 ∧
    (w0.extractLsb' 3 2 = 0#2 ∧ h = .drawFlat (flagsOfHeader w0) (w0.extractLsb' 5 2) kind (w0.extractLsb' 9 4) ∨
      ∃ depth, shiftOfDepth depth = w0.extractLsb' 5 2 ∧
        (w0.extractLsb' 3 2 = 1#2 ∧ h = .drawRaw (flagsOfHeader w0) depth kind (w0.extractLsb' 9 4) ∨
          w0.extractLsb' 3 2 = 2#2 ∧ h = .drawMod (flagsOfHeader w0) depth kind (w0.extractLsb' 9 4))) := by
  unfold decodeDrawHeader at hd
  split at hd
  case isFalse => cases hd
  case isTrue hz =>
    dsimp only at hd
    split at hd
    · cases hd
    · next kind hkind =>
      split at hd
      · cases hd
      · next hnv =>
        refine ⟨hz, hnv, kind, fieldOfKind_of_some hkind, ?_⟩
        split at hd
        · next hb => exact .inl ⟨eq_ofNat_of_toNat hb, (Option.some.inj hd).symm⟩
        · next hb =>
          obtain ⟨depth, hdepth, rfl⟩ := Option.map_eq_some_iff.mp hd
          exact .inr ⟨depth, shiftOfDepth_of_some hdepth, .inl ⟨eq_ofNat_of_toNat hb, rfl⟩⟩
        · next hb =>
          obtain ⟨depth, hdepth, rfl⟩ := Option.map_eq_some_iff.mp hd
          exact .inr ⟨depth, shiftOfDepth_of_some hdepth, .inr ⟨eq_ofNat_of_toNat hb, rfl⟩⟩
        · cases hd

theorem headerWord_of_decodeFragHeader {w0 : Word32} {h : Header} (hop : w0.extractLsb' 28 4 = 5#4)
    (hd : decodeFragHeader w0 = some h) : headerWord h = w0 := by
  obtain ⟨hz, hcases⟩ := decodeFragHeader_cases hd
  have hw := fragHeaderWord_fields hop hz
  rcases hcases with ⟨hb, rfl⟩ | ⟨depth, hdepth, ⟨hb, rfl⟩ | ⟨hb, rfl⟩⟩
  · rwa [hb] at hw
  · rwa [hb, ← hdepth] at hw
  · rwa [hb, ← hdepth] at hw

theorem headerWord_of_decodeDrawHeader {w0 : Word32} {h : Header} (hop : w0.extractLsb' 28 4 = 6#4)
    (hd : decodeDrawHeader w0 = some h) : headerWord h = w0 := by
  obtain ⟨hz, _, kind, hkind, hcases⟩ := decodeDrawHeader_cases hd
  have hw := drawHeaderWord_fields hop hz
  rcases hcases with ⟨hb, rfl⟩ | ⟨depth, hdepth, ⟨hb, rfl⟩ | ⟨hb, rfl⟩⟩
  · rwa [hb, ← hkind] at hw
  · rwa [hb, ← hkind, ← hdepth] at hw
  · rwa [hb, ← hkind, ← hdepth] at hw

theorem headerWord_of_decodeDispHeader {w0 : Word32} {h : Header} (hop : w0.extractLsb' 28 4 = 7#4)
    (hd : decodeDispHeader w0 = some h) : headerWord h = w0 := by
  unfold decodeDispHeader at hd
  split at hd
  case isFalse => cases hd
  case isTrue hz =>
    have hw := dispHeaderWord_fields hop hz.1 hz.2
    split at hd
    · next hm =>
      cases hd
      rwa [hm] at hw
    · next hm =>
      cases hd
      rwa [Bool.eq_false_of_not_eq_true hm] at hw

/-- How a header word that decodes was read: by its opcode (R78, R88). -/
theorem decodeHeader_cases {w0 : Word32} {h : Header} (hd : decodeHeader w0 = some h) :
    (∃ h' k, (h', k) ∈ [(Header.vwr, 1#4), (.vrd, 2#4), (.upld, 3#4), (.dnld, 4#4)] ∧ w0.extractLsb' 28 4 = k ∧
      decodePlainHeader w0 h' = some h) ∨
    (w0.extractLsb' 28 4 = 5#4 ∧ decodeFragHeader w0 = some h) ∨
    (w0.extractLsb' 28 4 = 6#4 ∧ decodeDrawHeader w0 = some h) ∨
    (w0.extractLsb' 28 4 = 7#4 ∧ decodeDispHeader w0 = some h) := by
  unfold decodeHeader at hd
  split at hd
  · next hop => exact .inl ⟨_, _, by simp, eq_ofNat_of_toNat hop, hd⟩
  · next hop => exact .inl ⟨_, _, by simp, eq_ofNat_of_toNat hop, hd⟩
  · next hop => exact .inl ⟨_, _, by simp, eq_ofNat_of_toNat hop, hd⟩
  · next hop => exact .inl ⟨_, _, by simp, eq_ofNat_of_toNat hop, hd⟩
  · next hop => exact .inr (.inl ⟨eq_ofNat_of_toNat hop, hd⟩)
  · next hop => exact .inr (.inr (.inl ⟨eq_ofNat_of_toNat hop, hd⟩))
  · next hop => exact .inr (.inr (.inr ⟨eq_ofNat_of_toNat hop, hd⟩))
  · cases hd

/-- The header word is determined by what it says. -/
theorem headerWord_of_decodeHeader {w0 : Word32} {h : Header} (hd : decodeHeader w0 = some h) : headerWord h = w0 := by
  rcases decodeHeader_cases hd with ⟨h', k, hk, hop, hd⟩ | ⟨hop, hd⟩ | ⟨hop, hd⟩ | ⟨hop, hd⟩
  · obtain ⟨hz, rfl⟩ := decodePlainHeader_eq_some hd
    rw [← plainWord_fields hop hz]
    fin_cases hk <;> rfl
  · exact headerWord_of_decodeFragHeader hop hd
  · exact headerWord_of_decodeDrawHeader hop hd
  · exact headerWord_of_decodeDispHeader hop hd

end Sys2Proof.Machine

namespace Sys2Proof.Machine

/-- Words that are read as vertices are the words of these vertices (R86). -/
theorem flatMap_wordsOfVertex_of_ok {ws : List Word32} {vs : List Vertex} {n : Nat} (hlen : ws.length = 3 * n)
    (h : vertsOfWords ws = .ok vs) : vs.flatMap wordsOfVertex = ws := by
  induction ws using vertsOfWords.induct generalizing vs n with
  | case1 p c t ws hc => simp [vertsOfWords, hc] at h
  | case2 p c t ws colour hc e he => simp [vertsOfWords, hc, he] at h
  | case3 p c t ws colour hc vs' hvs ih =>
    simp only [vertsOfWords, hc, hvs, Except.ok.injEq] at h
    subst h
    have hrest : vs'.flatMap wordsOfVertex = ws := ih (n := n - 1) (by simp only [List.length_cons] at hlen; omega) hvs
    have hpos : p.extractLsb' 16 16 ++ p.extractLsb' 0 16 = p := append_halves p
    simp [wordsOfVertex, hrest, hpos, wordOfRgb_of_some hc]
  | case4 ws hshort =>
    match ws, hshort, h with
    | [], _, h =>
      cases h
      rfl
    | [_], _, _ => simp only [List.length_cons, List.length_nil] at hlen; omega
    | [_, _], _, _ => simp only [List.length_cons, List.length_nil] at hlen; omega
    | p :: c :: t :: ws, hshort, _ => exact (hshort p c t ws rfl).elim

/-- The operand words of FRAG are those of the operation read from them (R85). -/
theorem decodeFragBody_eq_instr {mk : FragArgs → Instr} {ws : List Word32} {i : Instr} (h : decodeFragBody mk ws = .instr i) :
    ∃ a, i = mk a ∧ ∀ w0, encodeFrag w0 a = w0 :: ws := by
  unfold decodeFragBody at h
  split at h
  · split at h
    · cases h
    · next shade hshade =>
      cases h
      exact ⟨_, rfl, fun w0 => by simp [encodeFrag, wordOfRgb_of_some hshade]⟩
  · cases h

/-- The operand words of DRAW are those of the operation read from them, and `NV` is its number of vertices (R86). -/
theorem decodeDrawBody_eq_instr {mk : DrawArgs → Instr} {kind : PrimKind} {nv : BitVec 4} {ws : List Word32} {i : Instr}
    (h : decodeDrawBody mk kind nv ws = .instr i) :
    ∃ a, i = mk a ∧ a.verts.length = nv.toNat ∧
      ∀ fl d b, encodeDraw fl d b a = drawHeaderWord fl nv (fieldOfKind kind) d b :: ws := by
  unfold decodeDrawBody at h
  split at h
  · split at h
    · next hlen =>
      split at h
      · cases h
      · next verts hverts =>
        cases h
        have hws := flatMap_wordsOfVertex_of_ok hlen hverts
        have hcount : verts.length = nv.toNat := by
          have := length_vertexWords verts
          rw [hws] at this
          omega
        exact ⟨_, rfl, hcount, fun fl d b => by simp [encodeDraw, hws, hcount]⟩
    · cases h
  · cases h

/-- The operand words of DNLD and DISP (R84, R87). -/
theorem decodeRegionBody_eq_instr {mk : Coord → Size → Instr} {ws : List Word32} {i : Instr} (h : decodeRegionBody mk ws = .instr i) :
    ∃ o z, i = mk o z ∧ ws = [wordOfCoord o, wordOfSize z] := by
  unfold decodeRegionBody at h
  split at h
  · cases h
    exact ⟨_, _, rfl, by simp⟩
  · cases h

/-- The operand words of VWR (R81). -/
theorem decodeVwrBody_eq_instr {ws : List Word32} {i : Instr} (h : decodeVwrBody ws = .instr i) :
    ∃ cell value, i = .vwr cell value ∧ ws = [wordOfCoord cell, wordOfCell value] := by
  unfold decodeVwrBody at h
  split at h
  · split at h
    · cases h
    · next value hvalue =>
      cases h
      exact ⟨_, _, rfl, by simp [wordOfCell_of_some hvalue]⟩
  · cases h

/-- The operand word of VRD (R82). -/
theorem decodeVrdBody_eq_instr {ws : List Word32} {i : Instr} (h : decodeVrdBody ws = .instr i) :
    ∃ cell, i = .vrd cell ∧ ws = [wordOfCoord cell] := by
  unfold decodeVrdBody at h
  split at h
  · cases h
    exact ⟨_, rfl, by simp⟩
  · cases h

/-- The operand words of UPLD: one buffer element per cell of the rectangle (R83). -/
theorem decodeUpldBody_eq_instr {ws : List Word32} {i : Instr} (h : decodeUpldBody ws = .instr i) :
    ∃ o z buf, i = .upld o z buf ∧ bufferFits z buf = true ∧ ws = wordOfCoord o :: wordOfSize z :: buf.map wordOfCell := by
  unfold decodeUpldBody at h
  split at h
  · split at h
    · next hlen =>
      split at h
      · cases h
      · next buf hbuf =>
        cases h
        have hws := map_wordOfCell_of_ok hbuf
        refine ⟨_, _, buf, rfl, ?_, by simp [hws]⟩
        rw [bufferFits, beq_iff_eq, ← hlen, ← hws, List.length_map]
    · cases h
  · cases h

/-- A DRAW header counts at least one vertex (R90). -/
def headerCounts : Header → Prop
  | .drawFlat _ _ _ nv => nv ≠ 0#4
  | .drawRaw _ _ _ nv => nv ≠ 0#4
  | .drawMod _ _ _ nv => nv ≠ 0#4
  | _ => True

theorem headerCounts_of_decodeHeader {w0 : Word32} {h : Header} (hd : decodeHeader w0 = some h) : headerCounts h := by
  rcases decodeHeader_cases hd with ⟨h', k, hk, _, hd⟩ | ⟨_, hd⟩ | ⟨_, hd⟩ | ⟨_, hd⟩
  · obtain ⟨_, rfl⟩ := decodePlainHeader_eq_some hd
    fin_cases hk <;> trivial
  · obtain ⟨_, ⟨_, rfl⟩ | ⟨_, _, ⟨_, rfl⟩ | ⟨_, rfl⟩⟩⟩ := decodeFragHeader_cases hd <;> trivial
  · obtain ⟨_, hnv, _, _, ⟨_, rfl⟩ | ⟨_, _, ⟨_, rfl⟩ | ⟨_, rfl⟩⟩⟩ := decodeDrawHeader_cases hd <;> exact hnv
  · unfold decodeDispHeader at hd
    split at hd
    · split at hd <;> cases hd <;> trivial
    · cases hd

/-- A count of vertices that fits the field `NV` and is not zero is one of R35. -/
theorem vertexCountOk_of_nv {verts : List Vertex} {nv : BitVec 4} (h : verts.length = nv.toNat) (h0 : nv ≠ 0#4) :
    vertexCountOk verts = true := by
  have hpos : nv.toNat ≠ 0 := fun e => h0 (eq_ofNat_of_toNat e)
  have hlt := nv.isLt
  simp only [vertexCountOk, Bool.and_eq_true, decide_eq_true_eq]
  omega

/-- A DRAW read from its operand words encodes to its header word and these, and has a number of vertices that R35 allows. -/
theorem decodeDrawBody_wf {mk : DrawArgs → Instr} {kind : PrimKind} {nv : BitVec 4} {ws : List Word32} {i : Instr} {fl : DrawFlags}
    {d b : BitVec 2} (hnv : nv ≠ 0#4) (hb : decodeDrawBody mk kind nv ws = .instr i)
    (he : ∀ a, encode (mk a) = encodeDraw fl d b a) (hw : ∀ a, (mk a).wf = vertexCountOk a.verts) :
    encode i = drawHeaderWord fl nv (fieldOfKind kind) d b :: ws ∧ i.wf = true := by
  obtain ⟨a, rfl, hcount, hws⟩ := decodeDrawBody_eq_instr hb
  exact ⟨(he a).trans (hws _ _ _), (hw a).trans (vertexCountOk_of_nv hcount hnv)⟩

/-- What is read from a header and the words after it encodes to the header word and these words, and is well formed. -/
theorem encode_of_decodeBody {h : Header} {ws : List Word32} {i : Instr} (hc : headerCounts h) (hb : decodeBody h ws = .instr i) :
    encode i = headerWord h :: ws ∧ i.wf = true := by
  cases h with
  | vwr =>
    obtain ⟨_, _, rfl, rfl⟩ := decodeVwrBody_eq_instr hb
    exact ⟨rfl, rfl⟩
  | vrd =>
    obtain ⟨_, rfl, rfl⟩ := decodeVrdBody_eq_instr hb
    exact ⟨rfl, rfl⟩
  | upld =>
    obtain ⟨_, _, _, rfl, hfits, rfl⟩ := decodeUpldBody_eq_instr hb
    exact ⟨rfl, hfits⟩
  | dnld =>
    obtain ⟨_, _, rfl, rfl⟩ := decodeRegionBody_eq_instr hb
    exact ⟨rfl, rfl⟩
  | fragFlat fl dshift =>
    obtain ⟨_, rfl, hws⟩ := decodeFragBody_eq_instr hb
    exact ⟨hws _, rfl⟩
  | fragRaw fl depth =>
    obtain ⟨_, rfl, hws⟩ := decodeFragBody_eq_instr hb
    exact ⟨hws _, rfl⟩
  | fragMod fl depth =>
    obtain ⟨_, rfl, hws⟩ := decodeFragBody_eq_instr hb
    exact ⟨hws _, rfl⟩
  | drawFlat fl dshift kind nv => exact decodeDrawBody_wf hc hb (fun _ => rfl) fun _ => rfl
  | drawRaw fl depth kind nv => exact decodeDrawBody_wf hc hb (fun _ => rfl) fun _ => rfl
  | drawMod fl depth kind nv => exact decodeDrawBody_wf hc hb (fun _ => rfl) fun _ => rfl
  | disp15 fade =>
    obtain ⟨_, _, rfl, rfl⟩ := decodeRegionBody_eq_instr (mk := fun o z => .disp15 o z fade) hb
    exact ⟨rfl, rfl⟩
  | disp24 fade =>
    obtain ⟨_, _, rfl, rfl⟩ := decodeRegionBody_eq_instr (mk := fun o z => .disp24 o z fade) hb
    exact ⟨rfl, rfl⟩

/-- A list of words that decodes begins with a header that decodes. -/
theorem decode_eq_instr {ws : List Word32} {i : Instr} (hd : decode ws = .instr i) :
    ∃ w0 rest h, ws = w0 :: rest ∧ decodeHeader w0 = some h ∧ decodeBody h rest = .instr i := by
  unfold decode at hd
  split at hd
  · cases hd
  · split at hd
    · cases hd
    · next h hh => exact ⟨_, _, h, rfl, hh, hd⟩

/-- Settles O12: the header word is the one its reading determines, and the operand words are those of what was read from them. -/
theorem encodeOfDecodeIsTheWords : Obligations.EncodeOfDecodeIsTheWords := by
  unfold Obligations.EncodeOfDecodeIsTheWords
  intro ws i hd
  obtain ⟨w0, rest, h, rfl, hh, hb⟩ := decode_eq_instr hd
  obtain ⟨henc, hwf⟩ := encode_of_decodeBody (headerCounts_of_decodeHeader hh) hb
  exact ⟨by rw [henc, headerWord_of_decodeHeader hh], hwf⟩

/-! ### Lengths (R88, R89) -/

/-- The descriptor of a well-formed operation has the number of words R89 gives it: `Sys2Proof.Laws.EncodeLength` for every operation. -/
theorem length_encode {i : Instr} (h : i.wf = true) : (encode i).length = wordCount i := by
  cases i with
  | vwr c v => exact Laws.EncodeLength.vwr c v h
  | vrd c => exact Laws.EncodeLength.vrd c h
  | upld o z b => exact Laws.EncodeLength.upld o z b h
  | dnld o z => exact Laws.EncodeLength.dnld o z h
  | fragFlat fl d a => exact Laws.EncodeLength.fragFlat fl d a h
  | fragRaw fl d a => exact Laws.EncodeLength.fragRaw fl d a h
  | fragMod fl d a => exact Laws.EncodeLength.fragMod fl d a h
  | drawFlat fl d a => exact Laws.EncodeLength.drawFlat fl d a h
  | drawRaw fl d a => exact Laws.EncodeLength.drawRaw fl d a h
  | drawMod fl d a => exact Laws.EncodeLength.drawMod fl d a h
  | disp15 o z f => exact Laws.EncodeLength.disp15 o z f h
  | disp24 o z f => exact Laws.EncodeLength.disp24 o z f h

theorem descriptorLength_encodeFrag (fl : DrawFlags) (d b : BitVec 2) (a : FragArgs) :
    descriptorLength (encodeFrag (fragHeaderWord fl d b) a) = some 6 := by
  simp [descriptorLength, encodeFrag, fragHeaderWord_op]

theorem descriptorLength_encodeDraw (fl : DrawFlags) (d b : BitVec 2) {a : DrawArgs} (h : vertexCountOk a.verts = true) :
    descriptorLength (encodeDraw fl d b a) = some (3 + 3 * a.verts.length) := by
  obtain ⟨hop, hnv⟩ := drawHeaderWord_op fl (BitVec.ofNat 4 a.verts.length) (fieldOfKind a.kind) d b
  obtain ⟨_, hcount⟩ := nvField_of_count h
  simp only [descriptorLength, encodeDraw, hop, hnv, hcount]
  rfl

/-- The length function reads from the first words of a descriptor what R89 gives its operation. -/
theorem descriptorLength_encode {i : Instr} (h : i.wf = true) : descriptorLength (encode i) = some (wordCount i) := by
  cases i with
  | vwr c v => rfl
  | vrd c => rfl
  | upld o z b => simp [descriptorLength, encode, wordCount]
  | dnld o z => rfl
  | fragFlat fl d a => exact descriptorLength_encodeFrag _ _ _ _
  | fragRaw fl d a => exact descriptorLength_encodeFrag _ _ _ _
  | fragMod fl d a => exact descriptorLength_encodeFrag _ _ _ _
  | drawFlat fl d a => exact descriptorLength_encodeDraw _ _ _ h
  | drawRaw fl d a => exact descriptorLength_encodeDraw _ _ _ h
  | drawMod fl d a => exact descriptorLength_encodeDraw _ _ _ h
  | disp15 o z f => simp [descriptorLength, encode, wordCount, dispHeaderWord_op]
  | disp24 o z f => simp [descriptorLength, encode, wordCount, dispHeaderWord_op]

/-- Settles O13: what decodes is an encoding (O12), so the two laws of the length of an encoding apply. -/
theorem descriptorsHaveTheirLength : Obligations.DescriptorsHaveTheirLength := by
  unfold Obligations.DescriptorsHaveTheirLength
  intro ws i hd
  obtain ⟨rfl, hwf⟩ := encodeOfDecodeIsTheWords ws i hd
  rw [length_encode hwf]
  exact ⟨rfl, descriptorLength_encode hwf⟩

end Sys2Proof.Machine

namespace Sys2Proof.Machine

/-! ### Reserved words (R90) -/

theorem depthOfShift_eq_none {d : BitVec 2} : depthOfShift d = none ↔ d.toNat = 3 := by
  revert d
  decide

theorem kindOfField_eq_none {k : BitVec 2} : kindOfField k = none ↔ k.toNat = 3 := by
  revert k
  decide

theorem decodePlainHeader_eq_none {w0 : Word32} {h : Header} : decodePlainHeader w0 h = none ↔ w0.toNat % 2 ^ 28 ≠ 0 := by
  have hz := field_eq_zero w0 0 28
  rw [pow_zero, Nat.div_one] at hz
  simp [decodePlainHeader, hz]

/-- The FRAG headers R90 reserves: a bit in 27:7, `BLEND` = 3, or `DSHIFT` = 3 with a texture. -/
theorem decodeFragHeader_eq_none {w0 : Word32} :
    decodeFragHeader w0 = none ↔
      w0.toNat % 2 ^ 28 / 2 ^ 7 ≠ 0 ∨ w0.toNat / 2 ^ 3 % 4 = 3 ∨ w0.toNat / 2 ^ 3 % 4 ≠ 0 ∧ w0.toNat / 2 ^ 5 % 4 = 3 := by
  have hz := field_eq_zero w0 7 21
  have hblend := field_toNat w0 3 2
  have hshift := depthOfShift_eq_none (d := w0.extractLsb' 5 2)
  rw [field_toNat] at hshift
  unfold decodeFragHeader
  split
  case isFalse h =>
    rw [hz] at h
    simp only [true_iff]
    omega
  case isTrue h =>
    rw [hz] at h
    dsimp only
    split
    · next hb =>
      simp only [reduceCtorEq, false_iff]
      omega
    · next hb =>
      rw [Option.map_eq_none_iff, hshift]
      omega
    · next hb =>
      rw [Option.map_eq_none_iff, hshift]
      omega
    · next h0 h1 h2 =>
      simp only [imp_false] at h0 h1 h2
      simp only [true_iff]
      omega

/-- The DRAW headers R90 reserves: those of FRAG, and a bit in 27:13, `KIND` = 3 or `NV` = 0. -/
theorem decodeDrawHeader_eq_none {w0 : Word32} :
    decodeDrawHeader w0 = none ↔
      w0.toNat % 2 ^ 28 / 2 ^ 13 ≠ 0 ∨ w0.toNat / 2 ^ 3 % 4 = 3 ∨ (w0.toNat / 2 ^ 3 % 4 ≠ 0 ∧ w0.toNat / 2 ^ 5 % 4 = 3) ∨
        w0.toNat / 2 ^ 7 % 4 = 3 ∨ w0.toNat / 2 ^ 9 % 16 = 0 := by
  have hz := field_eq_zero w0 13 15
  have hnv := field_eq_zero w0 9 4
  have hblend := field_toNat w0 3 2
  have hshift := depthOfShift_eq_none (d := w0.extractLsb' 5 2)
  have hkind := kindOfField_eq_none (k := w0.extractLsb' 7 2)
  rw [field_toNat] at hshift hkind
  unfold decodeDrawHeader
  split
  case isFalse h =>
    rw [hz] at h
    simp only [true_iff]
    omega
  case isTrue h =>
    rw [hz] at h
    dsimp only
    split
    · next hk =>
      have := hkind.mp hk
      simp only [true_iff]
      omega
    · next kind hk =>
      have hk3 : ¬ w0.toNat / 2 ^ 7 % 2 ^ 2 = 3 := fun e => by rw [hkind.mpr e] at hk; cases hk
      split
      · next hn =>
        have := hnv.mp hn
        simp only [true_iff]
        omega
      · next hn =>
        rw [hnv] at hn
        split
        · next hb =>
          simp only [reduceCtorEq, false_iff]
          omega
        · next hb =>
          rw [Option.map_eq_none_iff, hshift]
          omega
        · next hb =>
          rw [Option.map_eq_none_iff, hshift]
          omega
        · next h0 h1 h2 =>
          simp only [imp_false] at h0 h1 h2
          simp only [true_iff]
          omega

/-- The DISP headers R90 reserves: a bit in 27:16 or 7:1. -/
theorem decodeDispHeader_eq_none {w0 : Word32} :
    decodeDispHeader w0 = none ↔ w0.toNat % 2 ^ 28 / 2 ^ 16 ≠ 0 ∨ w0.toNat / 2 % 2 ^ 7 ≠ 0 := by
  have hhi := field_eq_zero w0 16 12
  have hlo := field_eq_zero w0 1 7
  unfold decodeDispHeader
  split
  case isFalse h =>
    rw [hhi, hlo] at h
    simp only [true_iff]
    omega
  case isTrue h =>
    rw [hhi, hlo] at h
    split <;> simp only [reduceCtorEq, false_iff] <;> omega

/-- The list of R90 in `reservedHeader`, one condition per opcode. -/
theorem reservedHeader_iff {w0 : Word32} :
    reservedHeader w0 = true ↔
      w0.toNat / 2 ^ 28 = 0 ∨ 8 ≤ w0.toNat / 2 ^ 28 ∨
      ((w0.toNat / 2 ^ 28 = 1 ∨ w0.toNat / 2 ^ 28 = 2 ∨ w0.toNat / 2 ^ 28 = 3 ∨ w0.toNat / 2 ^ 28 = 4) ∧ w0.toNat % 2 ^ 28 ≠ 0) ∨
      (w0.toNat / 2 ^ 28 = 5 ∧
        (w0.toNat % 2 ^ 28 / 2 ^ 7 ≠ 0 ∨ w0.toNat / 2 ^ 3 % 4 = 3 ∨ w0.toNat / 2 ^ 3 % 4 ≠ 0 ∧ w0.toNat / 2 ^ 5 % 4 = 3)) ∨
      (w0.toNat / 2 ^ 28 = 6 ∧
        (w0.toNat % 2 ^ 28 / 2 ^ 13 ≠ 0 ∨ w0.toNat / 2 ^ 3 % 4 = 3 ∨ (w0.toNat / 2 ^ 3 % 4 ≠ 0 ∧ w0.toNat / 2 ^ 5 % 4 = 3) ∨
          w0.toNat / 2 ^ 7 % 4 = 3 ∨ w0.toNat / 2 ^ 9 % 16 = 0)) ∨
      (w0.toNat / 2 ^ 28 = 7 ∧ (w0.toNat % 2 ^ 28 / 2 ^ 16 ≠ 0 ∨ w0.toNat / 2 % 2 ^ 7 ≠ 0)) := by
  simp only [reservedHeader, Bool.or_eq_true, Bool.and_eq_true, beq_iff_eq, bne_iff_ne, decide_eq_true_eq, or_assoc]

/-- Settles O14: under each opcode the decoder rejects by the condition of `reservedHeader_iff` for that opcode. -/
theorem reservedHeadersAreTheListedOnes : Obligations.ReservedHeadersAreTheListedOnes := by
  unfold Obligations.ReservedHeadersAreTheListedOnes
  intro w0
  have hop := field_toNat w0 28 4
  have hlt := w0.isLt
  rw [reservedHeader_iff]
  unfold decodeHeader
  split
  · rw [decodePlainHeader_eq_none]
    omega
  · rw [decodePlainHeader_eq_none]
    omega
  · rw [decodePlainHeader_eq_none]
    omega
  · rw [decodePlainHeader_eq_none]
    omega
  · rw [decodeFragHeader_eq_none]
    omega
  · rw [decodeDrawHeader_eq_none]
    omega
  · rw [decodeDispHeader_eq_none]
    omega
  · next h1 h2 h3 h4 h5 h6 h7 =>
    simp only [imp_false] at h1 h2 h3 h4 h5 h6 h7
    simp only [true_iff]
    omega

/-- A header that R90 does not list decodes. -/
theorem decodeHeader_of_not_reserved {w0 : Word32} (h : reservedHeader w0 = false) : ∃ hd, decodeHeader w0 = some hd := by
  rw [← Option.ne_none_iff_exists']
  intro hd
  rw [(reservedHeadersAreTheListedOnes w0).mp hd] at h
  cases h

/-- The opcode field of a header word as a number. -/
theorem opcode_of_toNat {w0 : Word32} {n : Nat} (h : w0.toNat / 2 ^ 28 = n) : w0.extractLsb' 28 4 = BitVec.ofNat 4 n := by
  apply eq_ofNat_of_toNat
  have hlt := w0.isLt
  rw [field_toNat]
  omega

/-- What follows a header with the opcode of FRAG is read as the operands of FRAG. -/
theorem decodeBody_frag {w0 : Word32} {h : Header} (hop : w0.extractLsb' 28 4 = 5#4) (hd : decodeHeader w0 = some h) :
    ∃ mk, ∀ ws, decodeBody h ws = decodeFragBody mk ws := by
  have hd' : decodeFragHeader w0 = some h := by simpa [decodeHeader, hop] using hd
  obtain ⟨_, ⟨_, rfl⟩ | ⟨_, _, ⟨_, rfl⟩ | ⟨_, rfl⟩⟩⟩ := decodeFragHeader_cases hd' <;> exact ⟨_, fun _ => rfl⟩

/-- What follows a header with the opcode of DRAW is read as the operands of DRAW, as many vertices as `NV` says. -/
theorem decodeBody_draw {w0 : Word32} {h : Header} (hop : w0.extractLsb' 28 4 = 6#4) (hd : decodeHeader w0 = some h) :
    ∃ mk kind, ∀ ws, decodeBody h ws = decodeDrawBody mk kind (w0.extractLsb' 9 4) ws := by
  have hd' : decodeDrawHeader w0 = some h := by simpa [decodeHeader, hop] using hd
  obtain ⟨_, _, _, _, ⟨_, rfl⟩ | ⟨_, _, ⟨_, rfl⟩ | ⟨_, rfl⟩⟩⟩ := decodeDrawHeader_cases hd' <;> exact ⟨_, _, fun _ => rfl⟩

theorem cellOfWord_eq_some {w : Word32} (h : w.toNat < 2 ^ 16) : ∃ c, cellOfWord w = some c := by
  have hz : w.extractLsb' 16 16 = 0#16 := (field_eq_zero w 16 16).mpr (by omega)
  exact ⟨_, if_pos hz⟩

theorem rgbOfWord_eq_some {w : Word32} (h : w.toNat < 2 ^ 24) : ∃ c, rgbOfWord w = some c := by
  have hz : w.extractLsb' 24 8 = 0#8 := (field_eq_zero w 24 8).mpr (by omega)
  exact ⟨_, if_pos hz⟩

/-- The first reserved data word of an upload is the answer (R83, R90). -/
theorem cellsOfWords_first_reserved {before : List Word32} (after : List Word32) {cw : Word32} (hb : ∀ w ∈ before, w.toNat < 2 ^ 16)
    (hcw : 2 ^ 16 ≤ cw.toNat) : cellsOfWords (before ++ cw :: after) = .error cw := by
  induction before with
  | nil => simp [cellsOfWords, cellOfWord_eq_none hcw]
  | cons w ws ih =>
    obtain ⟨c, hc⟩ := cellOfWord_eq_some (hb w (by simp))
    simp [cellsOfWords, hc, ih fun w' h => hb w' (by simp [h])]

/-- The first reserved colour word of a list of vertices is the answer (R86, R90). -/
theorem vertsOfWords_first_reserved {before : List (Word32 × Word32 × Word32)} (after : List Word32) (pos txy : Word32) {rgb : Word32}
    (hb : ∀ v ∈ before, v.2.1.toNat < 2 ^ 24) (hrgb : 2 ^ 24 ≤ rgb.toNat) :
    vertsOfWords (before.flatMap (fun v => [v.1, v.2.1, v.2.2]) ++ pos :: rgb :: txy :: after) = .error rgb := by
  induction before with
  | nil => simp [vertsOfWords, rgbOfWord_eq_none hrgb]
  | cons v vs ih =>
    obtain ⟨c, hc⟩ := rgbOfWord_eq_some (hb v (by simp))
    simp [vertsOfWords, hc, ih fun v' h => hb v' (by simp [h])]

/-- Settles O15: each descriptor reaches the check of its data words, whose first failure is the answer. -/
theorem reservedDataWordsAreRejected : Obligations.ReservedDataWordsAreRejected := by
  unfold Obligations.ReservedDataWordsAreRejected
  refine ⟨fun xy cw hcw => ?_, fun xy wh cw before after hb hcw hlen => ?_, fun w0 xy rgb txy page clut hw0 hop hrgb => ?_,
    fun w0 page clut pos rgb txy before after hw0 hop hb hrgb hlen => ?_⟩
  · have hh : decodeHeader 0x10000000#32 = some .vwr := by decide
    simp [decode, hh, decodeBody, decodeVwrBody, cellOfWord_eq_none hcw]
  · have hh : decodeHeader 0x30000000#32 = some .upld := by decide
    have hl : (before ++ cw :: after).length = (sizeOfWord wh).w.toNat * (sizeOfWord wh).h.toNat := by
      rw [← hlen, List.length_append, List.length_cons]
      omega
    simp only [decode, hh, decodeBody, decodeUpldBody, hl, if_true, cellsOfWords_first_reserved after hb hcw]
  · obtain ⟨h, hh⟩ := decodeHeader_of_not_reserved hw0
    obtain ⟨mk, hmk⟩ := decodeBody_frag (opcode_of_toNat hop) hh
    simp only [decode, hh, hmk, decodeFragBody, rgbOfWord_eq_none hrgb]
  · obtain ⟨h, hh⟩ := decodeHeader_of_not_reserved hw0
    obtain ⟨mk, kind, hmk⟩ := decodeBody_draw (opcode_of_toNat hop) hh
    have hflat : (before.flatMap fun v => [v.1, v.2.1, v.2.2]).length = 3 * before.length := by
      simp [List.length_flatMap, Nat.mul_comm]
    have hl : (before.flatMap (fun v => [v.1, v.2.1, v.2.2]) ++ pos :: rgb :: txy :: after).length = 3 * (w0.extractLsb' 9 4).toNat := by
      rw [field_toNat, List.length_append, hflat]
      simp only [List.length_cons]
      omega
    simp only [decode, hh, hmk, decodeDrawBody, hl, if_true, vertsOfWords_first_reserved after pos txy hb hrgb]

/-! ### Fixed descriptors, unread fields, records without a descriptor (R91, R223) -/

/-- Settles O16: each is a fixed list of words, which the decoder reads. -/
theorem sampleDescriptorsDecode : Obligations.SampleDescriptorsDecode := by
  unfold Obligations.SampleDescriptorsDecode
  decide

/-- FRAG sees of a fragment its position and what `Frag` answers (R154). -/
theorem fragOp_congr_of_frag {P : Params} {pass : Bool} {V : Plane} {f g : Fragment} (hx : f.x = g.x) (hy : f.y = g.y)
    (h : frag P V f pass = frag P V g pass) : fragOp P pass V f = fragOp P pass V g := by
  simp only [fragOp, hx, hy, h]

/-- An untextured fragment writes what its target, shade and flags say, whatever its texture fields hold (R91). -/
theorem fragOp_untextured_congr (P : Params) (fl : DrawFlags) (V : Plane) (depth : DepthMode) (target : Coord) (shade : Rgb)
    (t t' : TexCoord) (p p' c c' : Coord) :
    fragOp P fl.pass V (fragmentOf fl .noTexture depth ⟨target, shade, t, p, c⟩) =
      fragOp P fl.pass V (fragmentOf fl .noTexture depth ⟨target, shade, t', p', c'⟩) :=
  fragOp_congr_of_frag rfl rfl rfl

/-- At 16 bits per pixel a texel is resolved without the CLUT origin (R91, R129). -/
theorem resolveTexel_bpp16_clut (P : Params) (fl : DrawFlags) (blend : BlendMode) (V : Plane) (a : FragArgs) (c : Coord) :
    resolveTexel P V (fragmentOf fl blend .bpp16 { a with clut := c }) = resolveTexel P V (fragmentOf fl blend .bpp16 a) := by
  simp only [resolveTexel, fragmentOf]

/-- At 16 bits per pixel a fragment does not read its CLUT origin (R91). -/
theorem fragOp_bpp16_clut (P : Params) (fl : DrawFlags) (blend : BlendMode) (V : Plane) (a : FragArgs) (c : Coord) :
    fragOp P fl.pass V (fragmentOf fl blend .bpp16 { a with clut := c }) = fragOp P fl.pass V (fragmentOf fl blend .bpp16 a) := by
  refine fragOp_congr_of_frag rfl rfl ?_
  simp only [frag, resolveTexel_bpp16_clut]
  rfl

/-- Settles O17: FRAG by the two laws above; DRAW because the unread fields are cleared in the primitive. -/
theorem unreadFieldsHaveNoEffect : Obligations.UnreadFieldsHaveNoEffect := by
  unfold Obligations.UnreadFieldsHaveNoEffect
  refine ⟨fun fl d d' target shade t t' p p' c c' s => ?_, fun fl a c s => ⟨?_, ?_⟩, fun fl d d' a p c verts s hv => ?_,
    fun fl a c s => ⟨rfl, rfl⟩⟩
  · simp only [exec, execFragFlat, fragState]
    rw [fragOp_untextured_congr]
  · simp only [exec, execFragRaw, fragState, fragOp_bpp16_clut]
  · simp only [exec, execFragMod, fragState, fragOp_bpp16_clut]
  · have hlen : verts.length = a.verts.length := by simpa using congrArg List.length hv
    have hcount : vertexCountOk verts = vertexCountOk a.verts := by simp only [vertexCountOk, hlen]
    have hprim : primitiveOf fl .noTexture depthUnread ⟨a.kind, p, c, verts⟩ = primitiveOf fl .noTexture depthUnread a := by
      simp only [primitiveOf, vertsRead, pageRead, clutRead, hv]
    simp only [exec, execDrawFlat, drawRecord, hcount, hprim]

/-- Settles O18: only UPLD and DRAW have records that are not well formed, and each refuses them first. -/
theorem illFormedRecordsAreRefused : Obligations.IllFormedRecordsAreRefused := by
  unfold Obligations.IllFormedRecordsAreRefused
  intro i s h
  cases i with
  | upld o z b => exact if_neg (ne_true_of_eq_false h)
  | drawFlat fl d a => exact if_neg (ne_true_of_eq_false h)
  | drawRaw fl d a => exact if_neg (ne_true_of_eq_false h)
  | drawMod fl d a => exact if_neg (ne_true_of_eq_false h)
  | _ => cases h

end Sys2Proof.Machine

/-! ## Reset, the step and the fault latch (R221, R229, R240 to R242, R257) -/

namespace Sys2Proof.Machine

/-- A plane without a stored byte reads as the free value of its reset everywhere (R240). -/
theorem readByte_of_nothing_stored (n a : Nat) : readByte Config.params { mem := [], epoch := n } a = Config.initVram n a := rfl

/-- Settles O1: nothing is stored at reset, so `readByte_of_nothing_stored` says what every byte reads as. -/
theorem resetLeavesThePlaneFreeAndFaultClear : Obligations.ResetLeavesThePlaneFreeAndFaultClear := by
  unfold Obligations.ResetLeavesThePlaneFreeAndFaultClear
  exact ⟨rfl, rfl, rfl, rfl, readByte_of_nothing_stored 0⟩

/-- Settles O2: the plane has no stored byte, and there is no violation and no result. -/
theorem resetMeetsTheInvariant : Obligations.ResetMeetsTheInvariant := by
  unfold Obligations.ResetMeetsTheInvariant
  decide

theorem step_of_reset {s : State} {rest : List Input} (h : s.pending = .reset :: rest) :
    step s = .next (s.setPending rest).resetAgain := by
  simp only [step, h]

theorem step_of_instr {s : State} {ws : List Word32} {rest : List Input} {i : Instr} (h : s.pending = .descriptor ws :: rest)
    (hd : decode ws = .instr i) : step s = exec i (s.setPending rest) := by
  simp only [step, h, stepWords, hd]

theorem step_of_reserved {s : State} {ws : List Word32} {rest : List Input} {w : Word32} (h : s.pending = .descriptor ws :: rest)
    (hd : decode ws = .reserved w) : step s = .next ((s.setPending rest).raise (.reservedEncoding w)) := by
  simp only [step, h, stepWords, hd]

/-- Settles O5: the state after `step_of_reset`, field by field. -/
theorem resetEventFreesThePlaneAndClearsFault : Obligations.ResetEventFreesThePlaneAndClearsFault := by
  unfold Obligations.ResetEventFreesThePlaneAndClearsFault
  intro s rest h
  exact ⟨_, step_of_reset h, rfl, rfl, rfl, rfl, rfl, readByte_of_nothing_stored (s.plane.epoch + 1)⟩

/-- Settles O6: the first arm of `step`. -/
theorem nothingSubmittedNothingChanges : Obligations.NothingSubmittedNothingChanges := by
  unfold Obligations.NothingSubmittedNothingChanges
  intro s h
  simp only [step, h]

/-- Settles O7: `step_of_instr`. -/
theorem stepRunsTheDecodedInstruction : Obligations.StepRunsTheDecodedInstruction := by
  unfold Obligations.StepRunsTheDecodedInstruction
  exact fun s ws rest i => step_of_instr

/-- Settles O8: the raise of `step_of_reserved` is exactly these three fields. -/
theorem reservedWordRaisesAndChangesNothingElse : Obligations.ReservedWordRaisesAndChangesNothingElse := by
  unfold Obligations.ReservedWordRaisesAndChangesNothingElse
  exact fun s ws rest w h hd => step_of_reserved h hd

/-! ### The invariant -/

theorem State.inv_iff {s : State} :
    s.inv = true ↔
      Memory.wf s.plane.mem = true ∧ s.fault = s.lastViolation.isSome ∧ ∀ o ∈ s.outputs, outputInRange o = true := by
  simp [State.inv, and_assoc]

theorem State.inv_setPending (s : State) (l : List Input) : (s.setPending l).inv = s.inv := rfl

theorem State.inv_countDraw (s : State) : s.countDraw.inv = s.inv := rfl

theorem State.inv_setPlane {s : State} {V : Plane} (hs : s.inv = true) (hV : Memory.wf V.mem = true) : (s.setPlane V).inv = true := by
  obtain ⟨_, hfault, hout⟩ := State.inv_iff.mp hs
  exact State.inv_iff.mpr ⟨hV, hfault, hout⟩

/-- A raise sets the latch and records the violation together. -/
theorem State.inv_raise {s : State} (v : Violation) (hs : s.inv = true) : (s.raise v).inv = true := by
  obtain ⟨hwf, _, hout⟩ := State.inv_iff.mp hs
  exact State.inv_iff.mpr ⟨hwf, rfl, hout⟩

theorem State.inv_deliver {s : State} {o : Output} (hs : s.inv = true) (ho : outputInRange o = true) : (s.deliver o).inv = true := by
  obtain ⟨hwf, hfault, hout⟩ := State.inv_iff.mp hs
  refine State.inv_iff.mpr ⟨hwf, hfault, fun o' ho' => ?_⟩
  rcases List.mem_append.mp ho' with h | h
  · exact hout o' h
  · rwa [List.mem_singleton.mp h]

theorem State.inv_resetAgain (s : State) : s.resetAgain.inv = true :=
  State.inv_iff.mpr ⟨Memory.wf_nil, rfl, by simp⟩

theorem State.inv_finishWhole {s : State} {r : Except Violation Plane} (hs : s.inv = true)
    (hr : ∀ V, r = .ok V → Memory.wf V.mem = true) : (s.finishWhole r).inv = true := by
  cases r with
  | ok V => exact State.inv_setPlane hs (hr V rfl)
  | error v => exact State.inv_raise v hs

theorem State.inv_finishRead {s : State} {r : Except Violation Output} (hs : s.inv = true)
    (hr : ∀ o, r = .ok o → outputInRange o = true) : (s.finishRead r).inv = true := by
  cases r with
  | ok o => exact State.inv_deliver hs (hr o rfl)
  | error v => exact State.inv_raise v hs

theorem State.inv_finishWrite {s : State} {r : Plane × Option Violation} (hs : s.inv = true) (hr : Memory.wf r.1.mem = true) :
    (s.finishWrite r).inv = true := by
  obtain ⟨V, _ | v⟩ := r
  · exact State.inv_setPlane hs hr
  · exact State.inv_raise v (State.inv_setPlane hs hr)

theorem pixelInRange_iff {p : Pixel} :
    pixelInRange p = true ↔ (0 ≤ p.r ∧ p.r ≤ 1) ∧ (0 ≤ p.g ∧ p.g ≤ 1) ∧ (0 ≤ p.b ∧ p.b ≤ 1) ∧ 0 ≤ p.alpha ∧ p.alpha ≤ 1 := by
  simp [pixelInRange, and_assoc]

/-- A pixel of the 15-bit mode is made of levels over 31 and a byte over 255 (R202). -/
theorem pixelOfCell_inRange (fade : Byte) (v : Cell) : pixelInRange (pixelOfCell fade v) = true :=
  pixelInRange_iff.mpr ⟨channelOfLevel_mem _, channelOfLevel_mem _, channelOfLevel_mem _, channelOfByte_mem _⟩

/-- A pixel of the 24-bit mode is made of bytes over 255 (R206). -/
theorem pixelOfBits_inRange (fade : Byte) (v : BitVec 32) : pixelInRange (pixelOfBits fade v) = true :=
  pixelInRange_iff.mpr ⟨channelOfByte_mem _, channelOfByte_mem _, channelOfByte_mem _, channelOfByte_mem _⟩

theorem pixel15_inRange {P : Params} {V : Plane} {o : Coord} {fade : Byte} {ij : Nat × Nat} {p : Pixel}
    (h : pixel15 P V o fade ij = .ok p) : pixelInRange p = true := by
  unfold pixel15 at h
  split at h
  · cases h
  · cases h
    exact pixelOfCell_inRange _ _

theorem pixel24_inRange {P : Params} {V : Plane} {o : Coord} {fade : Byte} {ij : Nat × Nat} {p : Pixel}
    (h : pixel24 P V o fade ij = .ok p) : pixelInRange p = true := by
  unfold pixel24 at h
  dsimp only at h
  split at h
  · cases h
  · split at h
    · cases h
    · cases h
      exact pixelOfBits_inRange _ _

/-- What every result of `f` has, every element of the loop's answer has. -/
theorem readEach_all {α β : Type} {f : α → Except Violation β} {K : β → Prop} (hf : ∀ a b, f a = .ok b → K b) {l : List α}
    {bs : List β} (h : readEach f l = .ok bs) : ∀ b ∈ bs, K b := by
  have hall := readEach_eq_ok h
  clear h
  induction hall with
  | nil => simp
  | cons hab _ ih =>
    intro b hb
    rcases List.mem_cons.mp hb with rfl | hb
    · exact hf _ _ hab
    · exact ih b hb

/-- An image whose pixels are all in range is in range (R200). -/
theorem imageOf_inRange {pixel : Nat × Nat → Except Violation Pixel} {size : Size}
    (hp : ∀ ij p, pixel ij = .ok p → pixelInRange p = true) {o : Output} (h : (imageOf pixel size).map Output.image = .ok o) :
    outputInRange o = true := by
  cases himg : imageOf pixel size with
  | error v =>
    rw [himg] at h
    cases h
  | ok rows =>
    rw [himg] at h
    cases h
    have hrows := readEach_all (K := fun row : List Pixel => row.all pixelInRange = true)
      (fun _ _ hrow => List.all_eq_true.mpr (readEach_all hp hrow)) himg
    exact List.all_eq_true.mpr hrows

/-- Only an image has a range to keep. -/
theorem map_inRange {α : Type} {mk : α → Output} (hmk : ∀ a, outputInRange (mk a) = true) {r : Except Violation α} {o : Output}
    (h : r.map mk = .ok o) : outputInRange o = true := by
  cases r with
  | error v => cases h
  | ok a =>
    cases h
    exact hmk a

/-- A write of one cell keeps the canonical form. -/
theorem memWrite_wf {P : Params} {V V' : Plane} {kind : Access} {x y : Int} {v : Cell} (hV : Memory.wf V.mem = true)
    (h : memWrite P V kind x y v = .ok V') : Memory.wf V'.mem = true := by
  rcases memWrite_cases P V kind x y v with ⟨c, _, hw⟩ | ⟨e, _, hw⟩
  · cases hw.symm.trans h
    exact wf_writeCell V c v hV
  · cases hw.symm.trans h

/-- A DRAW keeps the invariant. -/
theorem inv_drawRecord {P : Params} {fl : DrawFlags} {b : BlendMode} {d : DepthMode} {a : DrawArgs} {s t : State} (hs : s.inv = true)
    (h : drawRecord P fl b d a s = .next t) : t.inv = true := by
  obtain ⟨hwf, _, _⟩ := State.inv_iff.mp hs
  unfold drawRecord at h
  split at h
  · cases h
    exact State.inv_finishWrite (s := s.countDraw) (s.inv_countDraw.trans hs) ((drawPixels_keeps P _ _ _ _).2.1 hwf)
  · cases h

/-- Every operation keeps the invariant. -/
theorem inv_exec {i : Instr} {s t : State} (hs : s.inv = true) (h : exec i s = .next t) : t.inv = true := by
  obtain ⟨hwf, _, _⟩ := State.inv_iff.mp hs
  cases i with
  | vwr cell value =>
    obtain rfl := Host.Outcome.next.inj h
    exact State.inv_finishWhole hs fun V => memWrite_wf hwf
  | vrd cell =>
    obtain rfl := Host.Outcome.next.inj h
    exact State.inv_finishRead hs fun o => map_inRange fun _ => rfl
  | upld origin size buf =>
    simp only [exec, execUpld] at h
    split at h
    · cases h
      exact State.inv_finishWrite hs ((blockUpload_keeps _ _ _ _ _).2.1 hwf)
    · cases h
  | dnld origin size =>
    cases h
    exact State.inv_finishRead hs fun o => map_inRange fun _ => rfl
  | fragFlat fl dshift args =>
    obtain rfl := Host.Outcome.next.inj h
    exact State.inv_finishWhole hs fun V hV => (fragOp_keeps hV).2.1 hwf
  | fragRaw fl depth args =>
    obtain rfl := Host.Outcome.next.inj h
    exact State.inv_finishWhole hs fun V hV => (fragOp_keeps hV).2.1 hwf
  | fragMod fl depth args =>
    obtain rfl := Host.Outcome.next.inj h
    exact State.inv_finishWhole hs fun V hV => (fragOp_keeps hV).2.1 hwf
  | drawFlat fl dshift args => exact inv_drawRecord hs h
  | drawRaw fl depth args => exact inv_drawRecord hs h
  | drawMod fl depth args => exact inv_drawRecord hs h
  | disp15 origin size fade =>
    cases h
    exact State.inv_finishRead hs fun o => imageOf_inRange fun _ _ => pixel15_inRange
  | disp24 origin size fade =>
    cases h
    exact State.inv_finishRead hs fun o => imageOf_inRange fun _ _ => pixel24_inRange

/-- Settles O3: by `step_cases`; a step that waits or resets keeps the invariant at once, one that raises by `State.inv_raise`, and one
that runs an operation by `inv_exec`. -/
theorem everyStepKeepsTheInvariant : Obligations.EveryStepKeepsTheInvariant := by
  unfold Obligations.EveryStepKeepsTheInvariant
  intro s s' hs h
  rcases step_cases s with ⟨_, hstep⟩ | ⟨rest, _, hstep⟩ | ⟨_, rest, i, _, _, hstep⟩ | ⟨_, rest, w, _, _, hstep⟩ | ⟨_, _, _, _, hstep⟩
  · cases hstep.symm.trans h
    exact hs
  · cases hstep.symm.trans h
    exact State.inv_resetAgain _
  · exact inv_exec ((s.inv_setPending rest).trans hs) (hstep.symm.trans h)
  · cases hstep.symm.trans h
    exact State.inv_raise _ ((s.inv_setPending rest).trans hs)
  · cases hstep.symm.trans h

/-! ### The latch and the plane -/

/-- An operation never clears the latch (R229). -/
theorem exec_fault {i : Instr} {s t : State} (h : exec i s = .next t) : t.fault = s.fault ∨ t.fault = true := by
  rcases exec_cases i s with ⟨r, hr⟩ | ⟨r, hr⟩ | ⟨r, hr⟩ | ⟨r, hr⟩ | hr
  · cases hr.symm.trans h
    cases r with
    | ok V => exact .inl rfl
    | error v => exact .inr rfl
  · cases hr.symm.trans h
    cases r with
    | ok o => exact .inl rfl
    | error v => exact .inr rfl
  · cases hr.symm.trans h
    obtain ⟨V, _ | v⟩ := r
    · exact .inl rfl
    · exact .inr rfl
  · cases hr.symm.trans h
    obtain ⟨V, _ | v⟩ := r
    · exact .inl rfl
    · exact .inr rfl
  · cases hr.symm.trans h

/-- An operation that does not write the plane (R27) leaves it. -/
theorem exec_plane_of_reader {i : Instr} {s t : State} (hi : writesPlane i = false) (h : exec i s = .next t) : t.plane = s.plane := by
  obtain ⟨r, hr⟩ := exec_of_reader hi s
  cases hr.symm.trans h
  exact State.finishRead_plane s r

/-- Settles O4: by `step_cases`; besides a reset only an operation does either, and `exec_fault` and `exec_plane_of_reader` say which. -/
theorem onlyResetClearsFaultAndOnlyWritersChangeThePlane : Obligations.OnlyResetClearsFaultAndOnlyWritersChangeThePlane := by
  unfold Obligations.OnlyResetClearsFaultAndOnlyWritersChangeThePlane
  intro s s' h
  rcases step_cases s with ⟨_, hstep⟩ | ⟨rest, hp, _⟩ | ⟨ws, rest, i, hp, hd, hstep⟩ | ⟨_, rest, w, _, _, hstep⟩ | ⟨_, _, _, _, hstep⟩
  · cases hstep.symm.trans h
    exact ⟨fun hf hf' => by simp [hf] at hf', fun hne => absurd rfl hne⟩
  · exact ⟨fun _ _ => ⟨rest, hp⟩, fun _ => .inl ⟨rest, hp⟩⟩
  · have hexec := hstep.symm.trans h
    refine ⟨fun hf hf' => ?_, fun hne => .inr ⟨ws, rest, i, hp, hd, ?_⟩⟩
    · rcases exec_fault hexec with hk | hk <;> simp [hf, hf'] at hk
    · by_contra hi
      exact hne (exec_plane_of_reader (s := s.setPending rest) (Bool.eq_false_of_not_eq_true hi) hexec)
  · cases hstep.symm.trans h
    exact ⟨fun _ hf' => by simp at hf', fun hne => absurd rfl hne⟩
  · cases hstep.symm.trans h

/-- From two states with one plane and one DRAW count an operation leaves one DRAW count. -/
theorem exec_drawCount_congr {i : Instr} {s t s' t' : State} (hp : t.plane = s.plane) (hd : t.drawCount = s.drawCount)
    (hs : exec i s = .next s') (ht : exec i t = .next t') : t'.drawCount = s'.drawCount := by
  rcases exec_cases_of_plane_eq i hp hd with ⟨r, h, h'⟩ | ⟨r, h, h'⟩ | ⟨r, h, h'⟩ | ⟨r, h, h'⟩ | h
  · cases h.symm.trans hs
    cases h'.symm.trans ht
    simp [hd]
  · cases h.symm.trans hs
    cases h'.symm.trans ht
    simp [hd]
  · cases h.symm.trans hs
    cases h'.symm.trans ht
    simp [hd]
  · cases h.symm.trans hs
    cases h'.symm.trans ht
    simp [hd]
  · cases h.symm.trans hs

/-- Settles O10: the latch and its record leave the plane and the DRAW count as they are, which is all that an operation sees. -/
theorem executionDoesNotDependOnTheLatch : Obligations.ExecutionDoesNotDependOnTheLatch := by
  unfold Obligations.ExecutionDoesNotDependOnTheLatch
  intro i s t b v h
  obtain ⟨t', returned, ht', hplane, hout, hout'⟩ :=
    exec_congr_of_plane_eq (s := s) (t := { s with fault := b, lastViolation := v }) rfl rfl h
  refine ⟨t', ht', hplane, hout'.trans hout.symm,
    exec_drawCount_congr (s := s) (t := { s with fault := b, lastViolation := v }) rfl rfl h ht', ?_⟩
  rw [exec_pending ht', exec_pending h]

/-! ### A run of several operations -/

/-- The first of the submitted operations runs, and the rest stay submitted (R23). -/
theorem step_withOps_cons {i : Instr} {s t : State} (ops : List Instr) (hi : i.wf = true) (h : exec i s = .next t) :
    step (s.withOps (i :: ops)) = .next (t.withOps ops) := by
  have hstep := step_of_instr (s := s.withOps (i :: ops)) rfl (decodeOfEncodeIsTheInstruction i hi)
  have hexec := exec_setPending (ops.map (fun i => .descriptor (encode i)) ++ s.pending) h
  have ht : t.withOps ops = t.setPending (ops.map (fun i => .descriptor (encode i)) ++ s.pending) := by
    rw [State.withOps, exec_pending h]
  rw [ht]
  exact hstep.trans hexec

/-- Settles O9: induction on the operations; each step runs the first one and leaves the rest submitted. -/
theorem runIsSequentialExecution : Obligations.RunIsSequentialExecution := by
  unfold Obligations.RunIsSequentialExecution
  intro ops
  induction ops with
  | nil => exact fun s _ => ⟨s, rfl, rfl⟩
  | cons i ops ih =>
    intro s hwf
    obtain ⟨u, hu⟩ := exec_of_wf (hwf i (by simp)) s
    obtain ⟨t, hrun, hops⟩ := ih u fun j hj => hwf j (by simp [hj])
    refine ⟨t, ?_, by simp only [runOps, hu, hops]⟩
    exact (run_next core (s := s.withOps (i :: ops)) (s' := u.withOps ops) (step_withOps_cons ops (hwf i (by simp)) hu)).trans hrun

end Sys2Proof.Machine

/-! ## Addresses (R49) and point access (R181, R182) -/

namespace Sys2Proof.Machine

theorem insidePlane_eq_false_iff {x y : Int} : insidePlane x y = false ↔ ¬ (0 ≤ x ∧ x < 1024 ∧ 0 ≤ y ∧ y < 512) := by
  rw [← insidePlane_iff, Bool.not_eq_true]

/-- A position in the plane is a cell of it, which `Addr` answers under every policy (R49). -/
theorem exists_cell_of_insidePlane {x y : Int} (h : insidePlane x y = true) : ∃ c, isCell x y c = true := by
  obtain ⟨c, hc⟩ := cell_of_inside (insidePlane_iff.mp h)
  exact ⟨c, isCell_iff.mpr hc⟩

theorem addr_of_isCell (p : OobPolicy) (kind : Access) {x y : Int} {c : CellAddr} (h : isCell x y c = true) :
    addr p kind x y = .ok c :=
  addr_inside p kind (isCell_iff.mp h).1 (isCell_iff.mp h).2

theorem insidePlane_of_isCell {x y : Int} {c : CellAddr} (h : isCell x y c = true) : insidePlane x y = true := by
  obtain ⟨hx, hy⟩ := isCell_iff.mp h
  have hcx := c.x.isLt
  have hcy := c.y.isLt
  rw [insidePlane_iff]
  omega

theorem addr_fault_outside (kind : Access) {x y : Int} (h : insidePlane x y = false) :
    addr .fault kind x y = .error (.outOfBounds kind x y) :=
  addr_outside (not_insidePlane h)

theorem addr_wrap_outside (kind : Access) {x y : Int} (h : insidePlane x y = false) :
    ∃ c, addr .wrap kind x y = .ok c ∧ isCell (x % 1024) (y % 512) c = true := by
  refine ⟨_, if_neg (not_insidePlane h), ?_⟩
  rw [isCell_iff]
  simp only [wrapTo]
  omega

theorem addr_clamp_outside (kind : Access) {x y : Int} (h : insidePlane x y = false) :
    ∃ c, addr .clamp kind x y = .ok c ∧ isCell (min 1023 (max 0 x)) (min 511 (max 0 y)) c = true := by
  refine ⟨_, if_neg (not_insidePlane h), ?_⟩
  rw [isCell_iff]
  simp only [clampTo]
  omega

/-- Settles O19: inside the plane by `addr_of_isCell`, outside it by the law of the policy. -/
theorem addrFollowsThePolicy : Obligations.AddrFollowsThePolicy := by
  unfold Obligations.AddrFollowsThePolicy
  intro p kind x y
  split
  · next h =>
    obtain ⟨c, hc⟩ := exists_cell_of_insidePlane h
    exact ⟨c, addr_of_isCell p kind hc, hc⟩
  · next h =>
    have hout : insidePlane x y = false := Bool.eq_false_of_not_eq_true h
    cases p with
    | fault => exact addr_fault_outside kind hout
    | wrap => exact addr_wrap_outside kind hout
    | clamp => exact addr_clamp_outside kind hout

theorem exec_vwr_of_addr {cell : Coord} {c : CellAddr} (value : Cell) (s : State)
    (h : addr Config.params.oobPolicy .transfer cell.x.toNat cell.y.toNat = .ok c) :
    exec (.vwr cell value) s = .next { s with plane := writeCell s.plane c value } := by
  rw [exec, execVwr, pointWrite, memWrite_of_addr Config.params s.plane value h]
  rfl

theorem exec_vrd_of_addr {cell : Coord} {c : CellAddr} (s : State)
    (h : addr Config.params.oobPolicy .transfer cell.x.toNat cell.y.toNat = .ok c) :
    exec (.vrd cell) s = .next { s with outputs := s.outputs ++ [.value (readCell Config.params s.plane c)] } := by
  rw [exec, execVrd, pointRead, memRead_of_addr Config.params s.plane h]
  rfl

/-- Settles O20: the state after `exec_vwr_of_addr`, and the laws of a cell write. -/
theorem vwrWritesItsCellOnly : Obligations.VwrWritesItsCellOnly := by
  unfold Obligations.VwrWritesItsCellOnly
  intro cell value s c hc
  refine ⟨_, exec_vwr_of_addr value s (addr_of_isCell _ _ hc), rfl, readCell_writeCell_same _ _ _ _, fun a ha => ?_⟩
  obtain ⟨hlo, hhi⟩ := byteOfCell_eq_false.mp ha
  exact readByte_writeCell_ne _ _ _ _ hlo hhi

/-- Settles O21: the state after `exec_vrd_of_addr`. -/
theorem vrdReturnsItsCell : Obligations.VrdReturnsItsCell := by
  unfold Obligations.VrdReturnsItsCell
  exact fun cell s c hc => exec_vrd_of_addr s (addr_of_isCell _ _ hc)

/-- Settles O22: what `Addr` answers under the policy decides both accesses. -/
theorem pointAccessOutsideThePlane : Obligations.PointAccessOutsideThePlane := by
  unfold Obligations.PointAccessOutsideThePlane
  intro cell value s hout
  cases hp : Config.oobPolicy with
  | fault =>
    have haddr : addr Config.params.oobPolicy .transfer cell.x.toNat cell.y.toNat = _ := hp ▸ addr_fault_outside .transfer hout
    constructor
    · simp only [exec, execVwr, pointWrite, memWrite, haddr]
      rfl
    · simp only [exec, execVrd, pointRead, memRead, haddr]
      rfl
  | wrap =>
    obtain ⟨c, haddr, hc⟩ := addr_wrap_outside .transfer hout
    rw [← hp] at haddr
    exact ⟨c, hc, exec_vwr_of_addr value s haddr, exec_vrd_of_addr s haddr⟩
  | clamp =>
    obtain ⟨c, haddr, hc⟩ := addr_clamp_outside .transfer hout
    rw [← hp] at haddr
    rw [max_eq_right (Int.natCast_nonneg _), max_eq_right (Int.natCast_nonneg _)] at hc
    exact ⟨c, hc, exec_vwr_of_addr value s haddr, exec_vrd_of_addr s haddr⟩

end Sys2Proof.Machine

/-! ## Block transfer (R183 to R188) -/

namespace Sys2Proof.Machine

/-- The cell of a position in the plane; outside it the wrapped one, so that it is a function of every position. -/
def cellAt (xy : Int × Int) : CellAddr := { x := wrapTo 1024 (by decide) xy.1, y := wrapTo 512 (by decide) xy.2 }

theorem isCell_cellAt {xy : Int × Int} (h : insidePlane xy.1 xy.2 = true) : isCell xy.1 xy.2 (cellAt xy) = true := by
  have := insidePlane_iff.mp h
  rw [isCell_iff]
  simp only [cellAt, wrapTo]
  omega

theorem cellAt_eq_of_isCell {xy : Int × Int} {c : CellAddr} (h : isCell xy.1 xy.2 c = true) : cellAt xy = c := by
  obtain ⟨hx, hy⟩ := isCell_iff.mp h
  obtain ⟨hx', hy'⟩ := isCell_iff.mp (isCell_cellAt (insidePlane_of_isCell h))
  exact cellAddr_ext (by omega) (by omega)

theorem bufferFits_iff {size : Size} {buf : List Cell} : bufferFits size buf = true ↔ buf.length = size.w.toNat * size.h.toNat := by
  simp [bufferFits]

/-- Element m of an upload: its position in the rectangle (R183) and the buffer element of the same number (R184). -/
theorem getElem_uploadList (origin : Coord) {size : Size} {buf : List Cell} (hfit : bufferFits size buf = true) {m : Nat}
    (hm : m < size.w.toNat * size.h.toNat) :
    ∃ v, buf[m]? = some v ∧
      ((rectCells origin size).zip buf)[m]? =
        some (((origin.x.toNat : Int) + (m : Int) % size.w.toNat, (origin.y.toNat : Int) + (m : Int) / size.w.toNat), v) := by
  have hlen : m < buf.length := by rwa [bufferFits_iff.mp hfit]
  refine ⟨buf[m], List.getElem?_eq_getElem hlen, ?_⟩
  rw [List.getElem?_zip_eq_some]
  exact ⟨by rw [getElem_rectCells_of_lt origin size hm]; push_cast; rfl, List.getElem?_eq_getElem hlen⟩

/-- An upload's positions are those of its rectangle, each once. -/
theorem map_fst_uploadList (origin : Coord) {size : Size} {buf : List Cell} (hfit : bufferFits size buf = true) :
    ((rectCells origin size).zip buf).map Prod.fst = rectCells origin size :=
  List.map_fst_zip (by rw [length_rectCells, bufferFits_iff.mp hfit])

/-- What a loop of writes keeps on every path: every byte outside the cells it addresses. -/
theorem readByte_writeEach_uploadCell (P : Params) (V : Plane) (l : List ((Int × Int) × Cell)) (a : Nat)
    (ha : ∀ e ∈ l, ∀ c, addr P.oobPolicy .transfer e.1.1 e.1.2 = .ok c → byteOfCell c a = false) :
    readByte P (writeEach (uploadCell P) V l).1 a = readByte P V a := by
  refine writeEach_keeps (K := fun W => readByte P W a = readByte P V a) (fun W W' e he hK h => ?_) rfl
  rcases memWrite_cases P W .transfer e.1.1 e.1.2 e.2 with ⟨c, hc, hw⟩ | ⟨v, _, hw⟩
  · cases hw.symm.trans h
    obtain ⟨hlo, hhi⟩ := byteOfCell_eq_false.mp (ha e he c hc)
    exact (readByte_writeCell_ne P W c _ hlo hhi).trans hK
  · cases hw.symm.trans h

/-- An upload whose first k positions lie in the plane writes these (R184). -/
theorem uploadFirst_inside (P : Params) (V : Plane) {origin : Coord} {size : Size} {buf : List Cell} {k : Nat}
    (hfit : bufferFits size buf = true) (hk : k ≤ size.w.toNat * size.h.toNat)
    (hin : ∀ m : Nat, m < k → insidePlane (origin.x.toNat + m % size.w.toNat) (origin.y.toNat + m / size.w.toNat) = true) :
    (writeEach (uploadCell P) V (((rectCells origin size).zip buf).take k)).2 = none ∧
    (∀ (m : Nat) (c : CellAddr), m < k → isCell (origin.x.toNat + m % size.w.toNat) (origin.y.toNat + m / size.w.toNat) c = true →
      some (readCell P (writeEach (uploadCell P) V (((rectCells origin size).zip buf).take k)).1 c) = buf[m]?) ∧
    ∀ a, (∀ (m : Nat) (c : CellAddr), m < k →
        isCell (origin.x.toNat + m % size.w.toNat) (origin.y.toNat + m / size.w.toNat) c = true → byteOfCell c a = false) →
      readByte P (writeEach (uploadCell P) V (((rectCells origin size).zip buf).take k)).1 a = readByte P V a := by
  have hmem : ∀ e ∈ ((rectCells origin size).zip buf).take k, ∃ m : Nat, m < k ∧
      e.1 = ((origin.x.toNat : Int) + (m : Int) % size.w.toNat, (origin.y.toNat : Int) + (m : Int) / size.w.toNat) := by
    intro e he
    obtain ⟨m, hm⟩ := List.mem_iff_getElem?.mp he
    rw [List.getElem?_take, Option.ite_none_right_eq_some] at hm
    obtain ⟨hmk, hm⟩ := hm
    obtain ⟨v, _, hzip⟩ := getElem_uploadList origin hfit (m := m) (by omega)
    rw [hzip, Option.some.injEq] at hm
    exact ⟨m, hmk, by rw [← hm]⟩
  have hinside : ∀ e ∈ ((rectCells origin size).zip buf).take k, insidePlane e.1.1 e.1.2 = true := by
    intro e he
    obtain ⟨m, hmk, hpos⟩ := hmem e he
    rw [hpos]
    exact hin m hmk
  have hnodup : ((((rectCells origin size).zip buf).take k).map Prod.fst).Nodup := by
    rw [List.map_take, map_fst_uploadList origin hfit]
    exact (List.take_sublist _ _).nodup (rectCells_nodup origin size)
  obtain ⟨hnone, hwritten, _⟩ := writeEach_uploadCell P _ V hinside hnodup
  refine ⟨hnone, fun m c hmk hc => ?_, fun a ha => readByte_writeEach_uploadCell P V _ a fun e he c hc => ?_⟩
  · obtain ⟨v, hv, hzip⟩ := getElem_uploadList origin hfit (m := m) (by omega)
    rw [hv, hwritten _ (List.mem_of_getElem? ((List.getElem?_take_of_lt hmk).trans hzip)) c hc]
  · obtain ⟨m, hmk, hpos⟩ := hmem e he
    obtain ⟨c', hc'⟩ := exists_cell_of_insidePlane (hinside e he)
    obtain rfl : c = c' := Except.ok.inj (hc.symm.trans (addr_of_isCell _ _ hc'))
    rw [hpos] at hc'
    exact ha m c hmk hc'

/-- The upload is the loop over all its elements. -/
theorem take_uploadList (origin : Coord) (size : Size) (buf : List Cell) :
    ((rectCells origin size).zip buf).take (size.w.toNat * size.h.toNat) = (rectCells origin size).zip buf := by
  apply List.take_of_length_le
  rw [List.length_zip, length_rectCells]
  exact min_le_left _ _

/-- Column and row of element j × w + i (R183). -/
theorem rowMajor {w i : Nat} (j : Nat) (hi : i < w) :
    ((j * w + i : Nat) : Int) % (w : Int) = i ∧ ((j * w + i : Nat) : Int) / (w : Int) = j := by
  have hmod : (j * w + i) % w = i := Nat.mul_add_mod_of_lt hi
  have hdiv : (j * w + i) / w = j := by
    rw [Nat.mul_comm, Nat.mul_add_div (by omega), Nat.div_eq_of_lt hi, Nat.add_zero]
  exact ⟨by exact_mod_cast hmod, by exact_mod_cast hdiv⟩

/-- Element j × w + i is one of the rectangle's. -/
theorem rowMajor_lt {w h i j : Nat} (hi : i < w) (hj : j < h) : j * w + i < w * h := by
  calc j * w + i < j * w + w := by omega
    _ = (j + 1) * w := by ring
    _ ≤ h * w := Nat.mul_le_mul_right w hj
    _ = w * h := Nat.mul_comm _ _

theorem insidePlane_element {origin : Coord} {size : Size} (h : rectInside origin size = true) {m : Nat}
    (hm : m < size.w.toNat * size.h.toNat) :
    insidePlane (origin.x.toNat + m % size.w.toNat) (origin.y.toNat + m / size.w.toNat) = true := by
  have := insidePlane_of_rectInside h (List.mem_of_getElem? (getElem_rectCells_of_lt origin size hm))
  exact_mod_cast this

theorem cellInRect_of_element {origin : Coord} {size : Size} {m : Nat} {c : CellAddr} (hm : m < size.w.toNat * size.h.toNat)
    (hc : isCell (origin.x.toNat + m % size.w.toNat) (origin.y.toNat + m / size.w.toNat) c = true) : cellInRect origin size c = true := by
  have hw : 0 < size.w.toNat := Nat.pos_of_lt_mul_right hm
  have hcol := Nat.mod_lt m hw
  have hrow := Nat.div_lt_of_lt_mul hm
  obtain ⟨hx, hy⟩ := isCell_iff.mp hc
  have hx' : origin.x.toNat + m % size.w.toNat = c.x.val := by exact_mod_cast hx
  have hy' : origin.y.toNat + m / size.w.toNat = c.y.val := by exact_mod_cast hy
  simp only [cellInRect, Bool.and_eq_true, decide_eq_true_eq, ← hx', ← hy']
  exact ⟨⟨⟨Nat.le_add_right _ _, Nat.add_lt_add_left hcol _⟩, Nat.le_add_right _ _⟩, Nat.add_lt_add_left hrow _⟩

/-- An upload of a rectangle in the plane: nothing is raised and every element is written (R184). -/
theorem blockUpload_inside (P : Params) (V : Plane) {origin : Coord} {size : Size} {buf : List Cell} (hfit : bufferFits size buf = true)
    (hin : rectInside origin size = true) :
    (blockUpload P V origin size buf).2 = none ∧
    (∀ (i j : Nat) (c : CellAddr), i < size.w.toNat → j < size.h.toNat →
      isCell (origin.x.toNat + i) (origin.y.toNat + j) c = true →
        some (readCell P (blockUpload P V origin size buf).1 c) = buf[j * size.w.toNat + i]?) ∧
    ∀ a, (∀ c, cellInRect origin size c = true → byteOfCell c a = false) →
      readByte P (blockUpload P V origin size buf).1 a = readByte P V a := by
  obtain ⟨hnone, hwritten, hkept⟩ := uploadFirst_inside P V hfit le_rfl fun m hm => insidePlane_element hin hm
  rw [take_uploadList] at hnone hwritten hkept
  refine ⟨hnone, fun i j c hi hj hc => ?_, fun a ha => hkept a fun m c hm hc => ha c (cellInRect_of_element hm hc)⟩
  obtain ⟨hcol, hrow⟩ := rowMajor j hi
  exact hwritten _ c (rowMajor_lt hi hj) (by rwa [hcol, hrow])

theorem exec_upld {origin : Coord} {size : Size} {buf : List Cell} (hfit : bufferFits size buf = true) (s : State) :
    exec (.upld origin size buf) s = .next (s.finishWrite (blockUpload Config.params s.plane origin size buf)) :=
  if_pos hfit

theorem exec_upld_inside {origin : Coord} {size : Size} {buf : List Cell} (hfit : bufferFits size buf = true)
    (hin : rectInside origin size = true) (s : State) :
    exec (.upld origin size buf) s = .next { s with plane := (blockUpload Config.params s.plane origin size buf).1 } := by
  obtain ⟨hnone, _, _⟩ := blockUpload_inside Config.params s.plane hfit hin
  rw [exec_upld hfit, State.finishWrite, hnone]
  rfl

/-- Settles O23: `exec_upld_inside`, and what `blockUpload_inside` says of the plane it leaves. -/
theorem upldWritesTheRectangleOnly : Obligations.UpldWritesTheRectangleOnly := by
  unfold Obligations.UpldWritesTheRectangleOnly
  intro origin size buf s hfit hin
  obtain ⟨_, hwritten, hkept⟩ := blockUpload_inside Config.params s.plane hfit hin
  exact ⟨_, exec_upld_inside hfit hin s, (blockUpload_keeps _ _ _ _ _).1, hwritten, hkept⟩

/-- A download of a rectangle in the plane returns its cells in row-major order (R186). -/
theorem blockDownload_inside (P : Params) (V : Plane) {origin : Coord} {size : Size} (hin : rectInside origin size = true) :
    blockDownload P V origin size = .ok ((rectCells origin size).map fun xy => readCell P V (cellAt xy)) := by
  refine readEach_ok fun xy hxy => ?_
  exact memRead_of_addr P V (addr_of_isCell _ _ (isCell_cellAt (insidePlane_of_rectInside hin hxy)))

/-- Element j × w + i of a download is the cell in column i and row j (R183). -/
theorem getElem_download (P : Params) (V : Plane) {origin : Coord} {size : Size} {i j : Nat} {c : CellAddr} (hi : i < size.w.toNat)
    (hj : j < size.h.toNat) (hc : isCell (origin.x.toNat + i) (origin.y.toNat + j) c = true) :
    ((rectCells origin size).map fun xy => readCell P V (cellAt xy))[j * size.w.toNat + i]? = some (readCell P V c) := by
  rw [List.getElem?_map, getElem_rectCells origin size hi hj, Option.map_some, cellAt_eq_of_isCell hc]

theorem exec_dnld_inside {origin : Coord} {size : Size} (hin : rectInside origin size = true) (s : State) :
    exec (.dnld origin size) s = .next { s with outputs := s.outputs ++
      [.buffer ((rectCells origin size).map fun xy => readCell Config.params s.plane (cellAt xy))] } := by
  rw [exec, execDnld, blockDownload_inside _ _ hin]
  rfl

/-- Settles O24: `exec_dnld_inside`, and the elements of its buffer by `getElem_download`. -/
theorem dnldReturnsTheRectangle : Obligations.DnldReturnsTheRectangle := by
  unfold Obligations.DnldReturnsTheRectangle
  intro origin size s hin
  exact ⟨_, exec_dnld_inside hin s, by rw [List.length_map, length_rectCells],
    fun i j c hi hj hc => getElem_download _ _ hi hj hc⟩

/-- The cells an upload leaves in its rectangle are the buffer (R187). -/
theorem download_of_upload (P : Params) (V : Plane) {origin : Coord} {size : Size} {buf : List Cell} (hfit : bufferFits size buf = true)
    (hin : rectInside origin size = true) :
    (rectCells origin size).map (fun xy => readCell P (blockUpload P V origin size buf).1 (cellAt xy)) = buf := by
  have hlen := bufferFits_iff.mp hfit
  obtain ⟨_, hwritten, _⟩ := uploadFirst_inside P V hfit le_rfl fun m hm => insidePlane_element hin hm
  rw [take_uploadList] at hwritten
  refine List.ext_getElem? fun m => ?_
  by_cases hm : m < size.w.toNat * size.h.toNat
  · have hpos := getElem_rectCells_of_lt origin size hm
    have hcell := isCell_cellAt (insidePlane_of_rectInside hin (List.mem_of_getElem? hpos))
    rw [List.getElem?_map, hpos, Option.map_some]
    exact hwritten m _ hm (by exact_mod_cast hcell)
  · rw [List.getElem?_eq_none (by rw [List.length_map, length_rectCells]; omega), List.getElem?_eq_none (by omega)]

/-- Settles O25: the download reads the plane that the upload left, by `download_of_upload`. -/
theorem uploadThenDownloadReturnsTheBuffer : Obligations.UploadThenDownloadReturnsTheBuffer := by
  unfold Obligations.UploadThenDownloadReturnsTheBuffer
  intro origin size buf s hfit hin
  refine ⟨_, by rw [runOps, exec_upld_inside hfit hin]; dsimp only; rw [runOps, exec_dnld_inside hin]; rfl, ?_⟩
  dsimp only
  rw [download_of_upload _ _ hfit hin]

/-- Settles O27: the loop over the k elements before, by `uploadFirst_inside`, and then the k-th raises. -/
theorem uploadStopsAtTheFirstCellOutside : Obligations.UploadStopsAtTheFirstCellOutside := by
  unfold Obligations.UploadStopsAtTheFirstCellOutside
  intro P V origin size buf k hP hfit hk hbefore hout
  obtain ⟨hnone, hwritten, hkept⟩ := uploadFirst_inside P V hfit hk.le hbefore
  obtain ⟨v, _, hzip⟩ := getElem_uploadList origin hfit hk
  obtain ⟨hklt, hzip⟩ := List.getElem?_eq_some_iff.mp hzip
  have hraise (W : Plane) : uploadCell P W ((rectCells origin size).zip buf)[k] =
      .error (.outOfBounds .transfer (origin.x.toNat + k % size.w.toNat) (origin.y.toNat + k / size.w.toNat)) := by
    rw [hzip]
    simp only [uploadCell, memWrite, hP, addr_fault_outside .transfer hout]
  have hloop : blockUpload P V origin size buf = ((writeEach (uploadCell P) V (((rectCells origin size).zip buf).take k)).1,
      some (.outOfBounds .transfer (origin.x.toNat + k % size.w.toNat) (origin.y.toNat + k / size.w.toNat))) := by
    rw [blockUpload, ← List.take_append_drop k ((rectCells origin size).zip buf), writeEach_append, List.take_append_drop, hnone,
      List.drop_eq_getElem_cons hklt]
    simp only [writeEach, hraise]
  rw [hloop]
  exact ⟨rfl, hwritten, hkept⟩

/-- Settles O28: the plane by `blockUpload_keeps`, the other fields by the laws of the end of a write. -/
theorem upldFrame : Obligations.UpldFrame := by
  unfold Obligations.UpldFrame
  intro origin size buf s t h
  have hfault := exec_fault h
  by_cases hfit : bufferFits size buf = true
  · rw [exec_upld hfit] at h
    obtain rfl := Host.Outcome.next.inj h
    obtain ⟨hepoch, _, hbytes⟩ := blockUpload_keeps Config.params s.plane origin size buf
    refine ⟨by rwa [State.finishWrite_plane], by simp, by simp, by simp, hfault, fun a ha => ?_⟩
    rw [State.finishWrite_plane]
    exact hbytes a fun xy hxy c hc => byteOfCell_eq_false.mp (ha xy hxy c hc)
  · exact absurd (h.symm.trans (if_neg hfit)) (by simp)

/-- Settles O29: a reader ends as a read (`exec_of_reader`), with its result or a raise. -/
theorem readersReturnOneResultOrRaise : Obligations.ReadersReturnOneResultOrRaise := by
  unfold Obligations.ReadersReturnOneResultOrRaise
  intro i s hi
  obtain ⟨r, hr⟩ := exec_of_reader hi s
  cases r with
  | ok o => exact .inl ⟨o, hr⟩
  | error v => exact .inr ⟨v, hr⟩

/-- A read that raises does so at a position outside the plane, which it records (R49). -/
theorem memRead_error {P : Params} {V : Plane} {kind : Access} {x y : Int} {v : Violation} (h : memRead P V kind x y = .error v) :
    insidePlane x y = false ∧ v = .outOfBounds kind x y := by
  rcases memRead_cases P V kind x y with ⟨c, _, hr⟩ | ⟨e, he, hr⟩
  · cases hr.symm.trans h
  · cases hr.symm.trans h
    obtain ⟨_, hout, hv⟩ := addr_error he
    exact ⟨insidePlane_eq_false_iff.mpr hout, hv⟩

theorem memRead_fault_outside {P : Params} (hP : P.oobPolicy = .fault) (V : Plane) (kind : Access) {x y : Int}
    (h : insidePlane x y = false) : memRead P V kind x y = .error (.outOfBounds kind x y) := by
  simp only [memRead, hP, addr_fault_outside kind h]

/-- Settles O31: the loop of reads meets a violation, and the one it answers was raised outside the plane. -/
theorem downloadOutsideThePlaneReturnsNothing : Obligations.DownloadOutsideThePlaneReturnsNothing := by
  unfold Obligations.DownloadOutsideThePlaneReturnsNothing
  rintro P origin size s hP ⟨xy, hxy, hout⟩
  obtain ⟨n, hn, rfl⟩ := List.getElem_of_mem hxy
  obtain ⟨m, hm, v, hv, _, hread⟩ := readEach_first_error (f := fun xy => memRead P s.plane .transfer xy.1 xy.2) hn
    (memRead_fault_outside hP s.plane .transfer hout)
  obtain ⟨hin, rfl⟩ := memRead_error hv
  refine ⟨_, _, hin, ?_⟩
  rw [blockDownload, hread]
  rfl

/-! ### Regions of zero size (R188) -/

/-- A region of zero size has no cell. -/
theorem rectCells_eq_nil (origin : Coord) {size : Size} (h : size.w = 0#16 ∨ size.h = 0#16) : rectCells origin size = [] := by
  rw [← List.length_eq_zero_iff, length_rectCells]
  rcases h with h | h <;> simp [h]

theorem bufferFits_nil {size : Size} (h : size.w = 0#16 ∨ size.h = 0#16) : bufferFits size [] = true := by
  rw [bufferFits_iff]
  rcases h with h | h <;> simp [h]

/-- The rows of a region of zero size have no pixel, and there are none or only such rows. -/
theorem regionRows_empty {size : Size} (h : size.w = 0#16 ∨ size.h = 0#16) : ∀ row ∈ regionRows size, row = [] := by
  rcases h with h | h <;> simp [regionRows, h]

/-- The image of a region of zero size does not depend on the pixels (R203, R207). -/
theorem imageOf_empty (pixel : Nat × Nat → Except Violation Pixel) {size : Size} (h : size.w = 0#16 ∨ size.h = 0#16) :
    imageOf pixel size = .ok ((regionRows size).map fun _ => []) := by
  refine readEach_ok fun row hrow => ?_
  rw [regionRows_empty h row hrow]
  rfl

/-- Settles O26: every loop of the four operations is over the empty list. -/
theorem emptyRegionsTouchNothing : Obligations.EmptyRegionsTouchNothing := by
  unfold Obligations.EmptyRegionsTouchNothing
  intro origin size fade s h
  refine ⟨?_, ?_, (regionRows size).map fun _ => [], by simp, ?_, ?_⟩
  · rw [exec_upld (bufferFits_nil h), blockUpload, List.zip_nil_right]
    rfl
  · rw [exec, execDnld, blockDownload, rectCells_eq_nil origin h]
    rfl
  · rw [exec, execDisp15, display15, imageOf_empty _ h]
    rfl
  · rw [exec, execDisp24, display24, imageOf_empty _ h]
    rfl

end Sys2Proof.Machine

/-! ## Rounding and packing (R10, R103 to R109, R161) -/

namespace Sys2Proof.Machine

theorem roundQ_halfUp_eq_iff {q : ℚ} {n : Int} : roundQ .halfUp q = n ↔ (n : ℚ) - 1 / 2 ≤ q ∧ q < (n : ℚ) + 1 / 2 := by
  rw [roundQ, Int.floor_eq_iff]
  constructor <;> rintro ⟨h1, h2⟩ <;> constructor <;> linarith

/-- The integers at most one half away, at exactly one half the even ones only: what half_even answers (R10). -/
def IsHalfEven (q : ℚ) (n : Int) : Prop :=
  ((n : ℚ) - 1 / 2 < q ∨ q = (n : ℚ) - 1 / 2 ∧ n % 2 = 0) ∧ (q < (n : ℚ) + 1 / 2 ∨ q = (n : ℚ) + 1 / 2 ∧ n % 2 = 0)

theorem roundQ_isHalfEven (q : ℚ) : IsHalfEven q (roundQ .halfEven q) := by
  have hfract := Int.floor_add_fract q
  simp only [roundQ]
  split
  · next htie =>
    rw [htie] at hfract
    split
    · next heven => exact ⟨.inl (by linarith), .inr ⟨by linarith, heven⟩⟩
    · next hodd =>
      refine ⟨.inr ⟨by push_cast; linarith, by omega⟩, .inl (by push_cast; linarith)⟩
  · next htie =>
    have hle := Int.floor_le (q + 1 / 2)
    have hlt := Int.lt_floor_add_one (q + 1 / 2)
    refine ⟨.inl (lt_of_le_of_ne (by linarith) fun heq => htie ?_), .inl (by linarith)⟩
    have hq : q = ((⌊q + 1 / 2⌋ - 1 : Int) : ℚ) + 1 / 2 := by push_cast; linarith
    rw [hq, Int.fract_intCast_add]
    norm_num

theorem isHalfEven_le {q : ℚ} {m n : Int} (hm : IsHalfEven q m) (hn : IsHalfEven q n) : m ≤ n := by
  obtain ⟨hlo, _⟩ := hm
  obtain ⟨_, hhi⟩ := hn
  have hle : (m : ℚ) ≤ n + 1 := by rcases hlo with h | ⟨h, _⟩ <;> rcases hhi with h' | ⟨h', _⟩ <;> linarith
  have hle' : m ≤ n + 1 := by exact_mod_cast hle
  by_contra hlt
  have heq : m = n + 1 := by omega
  have heq' : (m : ℚ) = n + 1 := by exact_mod_cast heq
  rcases hlo with h | ⟨h, he⟩ <;> rcases hhi with h' | ⟨h', he'⟩
  · linarith
  · linarith
  · linarith
  · omega

theorem roundQ_halfEven_eq_iff {q : ℚ} {n : Int} : roundQ .halfEven q = n ↔ IsHalfEven q n := by
  refine ⟨fun h => h ▸ roundQ_isHalfEven q, fun h => ?_⟩
  exact le_antisymm (isHalfEven_le (roundQ_isHalfEven q) h) (isHalfEven_le h (roundQ_isHalfEven q))

theorem levelOf_toNat_eq_iff {t : RoundTie} {c : ℚ} {n : Nat} (h0 : 0 ≤ c) (h1 : c ≤ 1) :
    (levelOf t c).toNat = n ↔ roundQ t (31 * c) = n := by
  rw [← Int.natCast_inj, levelOf_toNat, clamp01_of_mem h0 h1]

/-- Settles O34: the level is `round` of 31 times the channel, and each direction of a tie has its law above. -/
theorem levelThresholds : Obligations.LevelThresholds := by
  unfold Obligations.LevelThresholds
  intro c n h0 h1 _
  have hlo : (2 * (n : ℚ) - 1) / 62 * 31 = n - 1 / 2 := by ring
  have hhi : (2 * (n : ℚ) + 1) / 62 * 31 = n + 1 / 2 := by ring
  have heven : ((n : Int) % 2 = 0) ↔ n % 2 = 0 := by omega
  constructor
  · rw [levelOf_toNat_eq_iff h0 h1, roundQ_halfUp_eq_iff, Int.cast_natCast]
    constructor <;> rintro ⟨h1, h2⟩ <;> constructor <;> linarith
  · rw [levelOf_toNat_eq_iff h0 h1, roundQ_halfEven_eq_iff, IsHalfEven, Int.cast_natCast, heven, ← hlo, ← hhi, mul_comm 31 c,
      mul_lt_mul_iff_left₀ (by norm_num), mul_lt_mul_iff_left₀ (by norm_num), mul_left_inj' (by norm_num), mul_left_inj' (by norm_num)]

/-! ### The fields of a packed cell -/

theorem redLevel_pack (t : RoundTie) (c : Colour) : redLevel (pack t c) = levelOf t c.r := extract_append_low _ _

theorem greenLevel_pack (t : RoundTie) (c : Colour) : greenLevel (pack t c) = levelOf t c.g :=
  (extract_append_above _ _ 0 5).trans (extract_append_low _ _)

theorem blueLevel_pack (t : RoundTie) (c : Colour) : blueLevel (pack t c) = levelOf t c.b :=
  (extract_append_above _ _ 5 5).trans ((extract_append_above _ _ 0 5).trans (extract_append_low _ _))

theorem maskBit_pack (t : RoundTie) (c : Colour) : maskBit (pack t c) = (maskOf t c.a).getLsbD 0 := by
  simp only [maskBit, pack, BitVec.getLsbD_append]
  rfl

theorem alphaOfBit_getLsbD (m : BitVec 1) : alphaOfBit (m.getLsbD 0) = m.toNat := by
  have hm : m = 0#1 ∨ m = 1#1 := by revert m; decide
  rcases hm with rfl | rfl <;> simp [alphaOfBit]

/-- Unpacked, a packed channel is at most half a level away (R109). -/
theorem channelOfLevel_levelOf_near (t : RoundTie) {c : ℚ} (h0 : 0 ≤ c) (h1 : c ≤ 1) : |channelOfLevel (levelOf t c) - c| ≤ 1 / 62 := by
  have hround := levelOf_toNat t c
  rw [clamp01_of_mem h0 h1] at hround
  have hround' : ((levelOf t c).toNat : ℚ) = (roundQ t (31 * c) : ℚ) := by exact_mod_cast hround
  have hnear := roundQ_near t (31 * c)
  rw [abs_le] at hnear ⊢
  rw [channelOfLevel, hround']
  constructor <;> linarith

/-- Unpacked, a packed alpha is at most one half away (R109). -/
theorem alphaOfBit_maskOf_near (t : RoundTie) {a : ℚ} (h0 : 0 ≤ a) (h1 : a ≤ 1) : |alphaOfBit ((maskOf t a).getLsbD 0) - a| ≤ 1 / 2 := by
  have hround := maskOf_toNat t a
  rw [clamp01_of_mem h0 h1] at hround
  have hround' : ((maskOf t a).toNat : ℚ) = (roundQ t a : ℚ) := by exact_mod_cast hround
  rw [alphaOfBit_getLsbD, hround']
  exact roundQ_near t a

/-- Settles O35: exact on unpacked cells because packing undoes unpacking (O32), and near in each channel by the laws above. -/
theorem unpackOfPackIsTheNearestColour : Obligations.UnpackOfPackIsTheNearestColour := by
  unfold Obligations.UnpackOfPackIsTheNearestColour
  intro t c hr0 hr1 hg0 hg1 hb0 hb1 ha0 ha1
  refine ⟨⟨fun h => ⟨_, h⟩, ?_⟩, ?_, ?_, ?_, ?_⟩
  · rintro ⟨v, rfl⟩
    rw [packUndoesUnpack t v]
  · simpa only [unpack, redLevel_pack] using channelOfLevel_levelOf_near t hr0 hr1
  · simpa only [unpack, greenLevel_pack] using channelOfLevel_levelOf_near t hg0 hg1
  · simpa only [unpack, blueLevel_pack] using channelOfLevel_levelOf_near t hb0 hb1
  · simpa only [unpack, maskBit_pack] using alphaOfBit_maskOf_near t ha0 ha1

/-- Settles O36: such a channel has no tie, so the thresholds of half_up (O34) decide, and they are those of the integer division. -/
theorem eightBitChannelLevels : Obligations.EightBitChannelLevels := by
  unfold Obligations.EightBitChannelLevels
  intro t k hk
  have hk' : (k : ℚ) ≤ 255 := by exact_mod_cast hk
  have hk0 : (0 : ℚ) ≤ k := Nat.cast_nonneg k
  have htie : 31 * ((k : ℚ) / 255) = ((31 * k : Int) : ℚ) / 255 := by push_cast; ring
  obtain ⟨n, hn⟩ : ∃ n, n = (62 * k + 255) / 510 := ⟨_, rfl⟩
  have hlo : 510 * (n : ℚ) ≤ 62 * k + 255 := by
    have : 510 * n ≤ 62 * k + 255 := by omega
    exact_mod_cast this
  have hhi : 62 * (k : ℚ) + 255 < 510 * n + 510 := by
    have : 62 * k + 255 < 510 * n + 510 := by omega
    exact_mod_cast this
  rw [levelOf_tie_irrelevant htie t .halfUp, ← hn]
  refine ((levelThresholds _ n (by positivity) (by linarith) (by omega)).1).mpr ⟨by linarith, by linarith⟩

/-- The clamp at the modulation works at the top only, where the dither does not leave the last level (R161). -/
theorem levelOf_near_top (t : RoundTie) {c : ℚ} (h : 1 - 4 / 255 ≤ c) : levelOf t c = 31#5 := by
  rw [← levelOf_clamp01]
  have hge : 1 - 4 / 255 ≤ clamp01 c := by
    rcases le_total c 1 with h1 | h1
    · rwa [clamp01_of_mem (by linarith) h1]
    · rw [clamp01_of_one_le h1]
      norm_num
  have hle := clamp01_le_one c
  apply levelOf_near
  rw [abs_lt]
  constructor <;> norm_num <;> linarith

/-- Settles O49: a product of at most 1 is not clamped; above 1 both sides are in the last level. -/
theorem innerClampIsInvisibleInThePackedLevel : Obligations.InnerClampIsInvisibleInThePackedLevel := by
  unfold Obligations.InnerClampIsInvisibleInThePackedLevel
  intro t shade level x y flag
  obtain ⟨hs, _⟩ := channelOfByte_mem shade
  obtain ⟨hl, _⟩ := channelOfLevel_mem level
  have h0 : 0 ≤ 2 * channelOfByte shade * channelOfLevel level := by positivity
  obtain ⟨hd, _⟩ := abs_le.mp (ditherStep_small flag x y)
  rcases le_total (2 * channelOfByte shade * channelOfLevel level) 1 with h1 | h1
  · rw [modulate, clamp01_of_mem h0 h1]
  · rw [modulate, clamp01_of_one_le h1, levelOf_near_top t (by linarith), levelOf_near_top t (by linarith)]

end Sys2Proof.Machine

/-! ## Texel addressing by the floors of the coordinates (R127, R130) -/

namespace Sys2Proof.Machine

theorem tpc_pos (d : DepthMode) : 0 < tpc d := by
  cases d <;> decide

/-- The column of the cell that holds a texel (R122). -/
theorem floor_cellX (d : DepthMode) (tx : ℚ) : ⌊cellX d tx⌋ = ⌊tx⌋ / (tpc d : Int) :=
  Int.floor_div_natCast tx (tpc d)

/-- The place of a texel in its cell is what remains of its column (R126). -/
theorem texelAlign_eq_emod (d : DepthMode) (tx : ℚ) : (texelAlign d tx : Int) = ⌊tx⌋ % (tpc d : Int) := by
  have hn : (tpc d : ℚ) ≠ 0 := by exact_mod_cast (tpc_pos d).ne'
  have hmul : Int.fract (cellX d tx) * (tpc d : ℚ) = tx - ((⌊tx⌋ / (tpc d : Int) * (tpc d : Int) : Int) : ℚ) := by
    rw [Int.fract, floor_cellX, sub_mul, cellX, div_mul_cancel₀ tx hn]
    push_cast
    rfl
  have hfloor : ⌊Int.fract (cellX d tx) * (tpc d : ℚ)⌋ = ⌊tx⌋ % (tpc d : Int) := by
    rw [hmul, Int.floor_sub_intCast, Int.emod_def, mul_comm]
  rw [texelAlign, hfloor]
  exact Int.toNat_of_nonneg (Int.emod_nonneg _ (by exact_mod_cast (tpc_pos d).ne'))

/-- Settles O38: the floor of a quotient by a whole number is the quotient of the floor, and the place in the cell its remainder. -/
theorem offsetAndAlignClosedForm : Obligations.OffsetAndAlignClosedForm := by
  unfold Obligations.OffsetAndAlignClosedForm
  exact fun d tx ty => ⟨by rw [offsetX, floor_cellX], rfl, texelAlign_eq_emod d tx⟩

theorem offsetY_add_page (ty : ℚ) : offsetY (ty + 256) = offsetY ty := by
  rw [offsetY, offsetY, Int.floor_add_ofNat]
  exact Int.add_emod_right _ 256

theorem cellX_add_page (d : DepthMode) (tx : ℚ) : cellX d (tx + 256 * (tpc d : ℚ)) = cellX d tx + 256 := by
  have hn : (tpc d : ℚ) ≠ 0 := by exact_mod_cast (tpc_pos d).ne'
  rw [cellX, cellX, add_div, mul_div_cancel_right₀ _ hn]

theorem offsetX_add_page (d : DepthMode) (tx : ℚ) : offsetX d (tx + 256 * (tpc d : ℚ)) = offsetX d tx := by
  rw [offsetX, offsetX, cellX_add_page, Int.floor_add_ofNat]
  exact Int.add_emod_right _ 256

theorem texelAlign_add_page (d : DepthMode) (tx : ℚ) : texelAlign d (tx + 256 * (tpc d : ℚ)) = texelAlign d tx := by
  rw [texelAlign, texelAlign, cellX_add_page, Int.fract_add_ofNat]

/-- A texel is resolved from its cell, its place in the cell, the CLUT origin and the depth only (R129). -/
theorem resolveTexel_congr_coord (P : Params) (V : Plane) {f g : Fragment} (hd : g.depth = f.depth) (hc : g.clut = f.clut)
    (hcell : texCell g.page g.depth g.tx g.ty = texCell f.page f.depth f.tx f.ty)
    (halign : texelAlign f.depth g.tx = texelAlign f.depth f.tx) : resolveTexel P V g = resolveTexel P V f := by
  unfold resolveTexel
  rw [hcell, hd, hc]
  cases hf : f.depth with
  | bpp16 => rfl
  | bpp8 =>
    rw [hf] at halign
    rw [halign]
  | bpp4 =>
    rw [hf] at halign
    rw [halign]

/-- Settles O39: both offsets are residues of 256, and neither they nor the place in the cell change over one page. -/
theorem texturePageWrapsAt256 : Obligations.TexturePageWrapsAt256 := by
  unfold Obligations.TexturePageWrapsAt256
  intro P V f
  have hx : 0 ≤ offsetX f.depth f.tx ∧ offsetX f.depth f.tx < 256 := by
    simp only [offsetX]
    omega
  have hy : 0 ≤ offsetY f.ty ∧ offsetY f.ty < 256 := by
    simp only [offsetY]
    omega
  refine ⟨?_, ?_, ?_⟩
  · simp only [texCell]
    omega
  · refine resolveTexel_congr_coord P V rfl rfl ?_ rfl
    simp only [texCell, offsetY_add_page]
  · refine resolveTexel_congr_coord P V rfl rfl ?_ (texelAlign_add_page _ _)
    simp only [texCell, offsetX_add_page]

end Sys2Proof.Machine

/-! ## Fragments (R106, R140 to R156, R224) -/

namespace Sys2Proof.Machine

/-- The colours `Frag` answers: that of an untextured fragment, or that of some texel, dithered (R151). -/
theorem frag_eq_some {P : Params} {V : Plane} {f : Fragment} {pass : Bool} {c : Colour} (h : frag P V f pass = .ok (some c)) :
    f.blend = .noTexture ∧ c = ditherColour f (flatColour P f) ∨
      f.blend ≠ .noTexture ∧ ∃ t, c = ditherColour f (texturedColour f (unpack t)) := by
  by_cases hb : f.blend = .noTexture
  · rw [frag_untextured P V pass hb] at h
    split at h
    · exact .inl ⟨hb, (Option.some.inj (Except.ok.inj h)).symm⟩
    · cases h
  · refine .inr ⟨hb, ?_⟩
    cases hr : resolveTexel P V f with
    | error v =>
      cases hf : f.blend with
      | noTexture => exact absurd hf hb
      | rawTexture => simp [frag, hf, hr] at h
      | textureBlend => simp [frag, hf, hr] at h
    | ok t =>
      rw [frag_textured P V f pass hb hr, fragTextured] at h
      split at h
      · cases h
      · split at h
        · exact ⟨t, (Option.some.inj (Except.ok.inj h)).symm⟩
        · cases h

@[simp] theorem texturedColour_a (f : Fragment) (c : Colour) : (texturedColour f c).a = c.a := by
  unfold texturedColour
  split <;> rfl

theorem alphaOfBit_eq (b : Bool) : alphaOfBit b = 0 ∨ alphaOfBit b = 1 := by
  cases b <;> simp [alphaOfBit]

/-- Settles O48: each channel comes out of the clamp after the dither, which leaves the alpha of the flag or of the texel. -/
theorem fragColourIsNormalized : Obligations.FragColourIsNormalized := by
  unfold Obligations.FragColourIsNormalized
  intro P V f pass c h
  have range (col : Colour) (ha : col.a = 0 ∨ col.a = 1) :
      0 ≤ (ditherColour f col).r ∧ (ditherColour f col).r ≤ 1 ∧ 0 ≤ (ditherColour f col).g ∧ (ditherColour f col).g ≤ 1 ∧
        0 ≤ (ditherColour f col).b ∧ (ditherColour f col).b ≤ 1 ∧ ((ditherColour f col).a = 0 ∨ (ditherColour f col).a = 1) :=
    ⟨clamp01_nonneg _, clamp01_le_one _, clamp01_nonneg _, clamp01_le_one _, clamp01_nonneg _, clamp01_le_one _, ha⟩
  rcases frag_eq_some h with ⟨_, rfl⟩ | ⟨_, t, rfl⟩
  · exact range _ (alphaOfBit_eq _)
  · exact range _ (by rw [texturedColour_a]; exact alphaOfBit_eq _)

/-! ### The direction of a tie (R106) -/

/-- 31 times the channel is an integer over 255. -/
def IsByteChannel (c : ℚ) : Prop := ∃ n : Int, 31 * c = (n : ℚ) / 255

theorem isByteChannel_channelOfByte (s : Byte) : IsByteChannel (channelOfByte s) :=
  ⟨31 * s.toNat, by rw [channelOfByte]; push_cast; ring⟩

/-- A modulated channel of a descriptor: an integer over 255 · 31, or clamped to 1 (R148). -/
theorem isByteChannel_modulate (s : Byte) (l : BitVec 5) : IsByteChannel (modulate (channelOfByte s) (channelOfLevel l)) := by
  obtain ⟨hs, _⟩ := channelOfByte_mem s
  obtain ⟨hl, _⟩ := channelOfLevel_mem l
  rcases le_total (2 * channelOfByte s * channelOfLevel l) 1 with h1 | h1
  · rw [modulate, clamp01_of_mem (by positivity) h1]
    exact ⟨2 * s.toNat * l.toNat, by rw [channelOfByte, channelOfLevel]; push_cast; ring⟩
  · rw [modulate, clamp01_of_one_le h1]
    exact ⟨7905, by norm_num⟩

/-- The dither keeps such a channel without a tie. -/
theorem levelOf_dithered_tie_irrelevant {c : ℚ} (h : IsByteChannel c) (flag : Bool) (x y : Int) (t t' : RoundTie) :
    levelOf t (clamp01 (c + ditherStep flag x y)) = levelOf t' (clamp01 (c + ditherStep flag x y)) := by
  obtain ⟨n, hn⟩ := h
  rw [levelOf_clamp01, levelOf_clamp01]
  refine levelOf_tie_irrelevant (n := n + 31 * (dither x y * if flag then 1 else 0)) ?_ t t'
  rw [mul_add, hn, ditherStep]
  push_cast
  ring

/-- A dithered colour of such channels, its alpha a bit, packs to one cell under both directions of a tie. -/
theorem pack_dithered_tie_irrelevant (f : Fragment) {c : Colour} {b : Bool} (hr : IsByteChannel c.r) (hg : IsByteChannel c.g)
    (hb : IsByteChannel c.b) (ha : c.a = alphaOfBit b) (t t' : RoundTie) : pack t (ditherColour f c) = pack t' (ditherColour f c) := by
  simp only [pack, ditherColour, ha, maskOf_alphaOfBit, levelOf_dithered_tie_irrelevant hr _ _ _ t t',
    levelOf_dithered_tie_irrelevant hg _ _ _ t t', levelOf_dithered_tie_irrelevant hb _ _ _ t t']

/-- What `Frag` answers for a FRAG descriptor packs to one cell under both directions of a tie (R106). -/
theorem pack_frag_tie_irrelevant {P : Params} {V : Plane} {fl : DrawFlags} {blend : BlendMode} {depth : DepthMode} {a : FragArgs}
    {out : Colour} (h : frag P V (fragmentOf fl blend depth a) fl.pass = .ok (some out)) (t t' : RoundTie) : pack t out = pack t' out := by
  rcases frag_eq_some h with ⟨_, rfl⟩ | ⟨hb, v, rfl⟩
  · exact pack_dithered_tie_irrelevant _ (isByteChannel_channelOfByte _) (isByteChannel_channelOfByte _)
      (isByteChannel_channelOfByte _) rfl t t'
  · cases blend with
    | noTexture => exact absurd rfl hb
    | rawTexture => exact (pack_ditherColour_unpack t _ v).trans (pack_ditherColour_unpack t' _ v).symm
    | textureBlend =>
      exact pack_dithered_tie_irrelevant _ (isByteChannel_modulate _ _) (isByteChannel_modulate _ _) (isByteChannel_modulate _ _) rfl t t'

theorem memRead_roundTie (P : Params) (V : Plane) (kind : Access) (x y : Int) (t : RoundTie) :
    memRead { P with roundTie := t } V kind x y = memRead P V kind x y := rfl

theorem memWrite_roundTie (P : Params) (V : Plane) (kind : Access) (x y : Int) (v : Cell) (t : RoundTie) :
    memWrite { P with roundTie := t } V kind x y v = memWrite P V kind x y v := rfl

theorem resolveTexel_roundTie (P : Params) (V : Plane) (f : Fragment) (t : RoundTie) :
    resolveTexel { P with roundTie := t } V f = resolveTexel P V f := by
  simp only [resolveTexel, memRead_roundTie]

theorem frag_roundTie (P : Params) (V : Plane) (f : Fragment) (pass : Bool) (t : RoundTie) :
    frag { P with roundTie := t } V f pass = frag P V f pass := by
  have hflat : fragUntextured { P with roundTie := t } f pass = fragUntextured P f pass := rfl
  simp only [frag, resolveTexel_roundTie, hflat]

/-- A write of one colour sees the direction of a tie in `PACK` only (R152, R153). -/
theorem writeBack_roundTie (P : Params) (V : Plane) (x y : Int) {out : Colour} (pass : Bool) {t t' : RoundTie}
    (h : pack t out = pack t' out) :
    writeBack { P with roundTie := t } V x y out pass = writeBack { P with roundTie := t' } V x y out pass := by
  simp only [writeBack, memRead_roundTie, memWrite_roundTie, h]

/-- Settles O37: the direction of a tie is read in `PACK` only, and there `pack_frag_tie_irrelevant` applies. -/
theorem tieDirectionIsUnobservableInFrag : Obligations.TieDirectionIsUnobservableInFrag := by
  unfold Obligations.TieDirectionIsUnobservableInFrag
  intro P V fl blend depth a
  simp only [fragOp, frag_roundTie]
  split
  · rfl
  · split
    · rfl
    · rfl
    · next out hout => exact writeBack_roundTie P V _ _ _ (pack_frag_tie_irrelevant hout .halfUp .halfEven)

/-! ### The single-pass reference (R156) -/

/-- The reference on a textured fragment whose texel resolves. -/
theorem fragSinglePass_textured (P : Params) (V : Plane) {f : Fragment} {t : Cell} (hb : f.blend ≠ .noTexture)
    (hr : resolveTexel P V f = .ok t) :
    fragSinglePass P V f =
      .ok (if isSentinel t then none else some (effTextured f.semi t, ditherColour f (texturedColour f (unpack t)))) := by
  cases hf : f.blend with
  | noTexture => exact absurd hf hb
  | rawTexture => simp only [fragSinglePass, hf, hr]
  | textureBlend => simp only [fragSinglePass, hf, hr]

/-- A textured fragment whose texel does not resolve raises in the reference and in every pass. -/
theorem frag_unresolved (P : Params) (V : Plane) {f : Fragment} {v : Violation} (hb : f.blend ≠ .noTexture)
    (hr : resolveTexel P V f = .error v) : fragSinglePass P V f = .error v ∧ ∀ pass, frag P V f pass = .error v := by
  cases hf : f.blend with
  | noTexture => exact absurd hf hb
  | rawTexture => exact ⟨by simp only [fragSinglePass, hf, hr], fun pass => by simp only [frag, hf, hr]⟩
  | textureBlend => exact ⟨by simp only [fragSinglePass, hf, hr], fun pass => by simp only [frag, hf, hr]⟩

/-- Settles O47: the two passes test for the value that the reference computes, after the same sentinel. -/
theorem passesPartitionTheSinglePass : Obligations.PassesPartitionTheSinglePass := by
  unfold Obligations.PassesPartitionTheSinglePass
  intro P V f
  by_cases hb : f.blend = .noTexture
  · have href : fragSinglePass P V f = .ok (some (effFlat f.semi, ditherColour f (flatColour P f))) := by
      simp only [fragSinglePass, hb]
    rw [href]
    simp [frag_untextured P V _ hb, effFlat]
  · cases hr : resolveTexel P V f with
    | error v =>
      obtain ⟨href, hfrag⟩ := frag_unresolved P V hb hr
      rw [href]
      exact hfrag
    | ok t =>
      rw [fragSinglePass_textured P V hb hr]
      by_cases ht : isSentinel t = true
      · simp [ht, frag_textured P V f _ hb hr, fragTextured]
      · simp [ht, frag_textured P V f _ hb hr, fragTextured]

/-! ### What FRAG keeps (R54, R155, R222) -/

/-- FRAG ends with a raise and the plane as it was, or without one. -/
theorem fragState_latch (P : Params) (f : Fragment) (pass : Bool) (s : State) :
    (fragState P f pass s).fault = s.fault ∧ (fragState P f pass s).lastViolation = s.lastViolation ∨
      (fragState P f pass s).fault = true ∧ (fragState P f pass s).plane = s.plane := by
  unfold fragState
  cases fragOp P pass s.plane f with
  | ok V => exact .inl ⟨rfl, rfl⟩
  | error v => exact .inr ⟨rfl, rfl⟩

theorem fragState_plane_keeps (P : Params) (f : Fragment) (pass : Bool) (s : State) :
    (fragState P f pass s).plane.epoch = s.plane.epoch ∧
    ∀ b, (∀ c, addr P.oobPolicy .target f.x f.y = .ok c → byteOfCell c b = false) →
      readByte P (fragState P f pass s).plane b = readByte P s.plane b := by
  rw [fragState, State.finishWhole_plane]
  cases h : fragOp P pass s.plane f with
  | error v => exact ⟨rfl, fun _ _ => rfl⟩
  | ok V =>
    obtain ⟨hepoch, _, hbytes⟩ := fragOp_keeps h
    exact ⟨hepoch, fun b hb => hbytes b fun c hc => byteOfCell_eq_false.mp (hb c hc)⟩

/-- The three forms of FRAG are `fragState` of a fragment at the target. -/
theorem exec_frag_form {i : Instr} {a : FragArgs} (s : State)
    (h : ∃ fl, (∃ d, i = .fragFlat fl d a) ∨ (∃ d, i = .fragRaw fl d a) ∨ (∃ d, i = .fragMod fl d a)) :
    ∃ (f : Fragment) (pass : Bool), f.x = a.target.x.toNat ∧ f.y = a.target.y.toNat ∧
      exec i s = .next (fragState Config.params f pass s) := by
  obtain ⟨fl, ⟨d, rfl⟩ | ⟨d, rfl⟩ | ⟨d, rfl⟩⟩ := h
  · exact ⟨fragmentOf fl .noTexture depthUnread a, fl.pass, rfl, rfl, rfl⟩
  · exact ⟨fragmentOf fl .rawTexture d a, fl.pass, rfl, rfl, rfl⟩
  · exact ⟨fragmentOf fl .textureBlend d a, fl.pass, rfl, rfl, rfl⟩

/-- Settles O45: the three forms are `fragState`, which keeps what `fragState_plane_keeps` and `fragState_latch` say. -/
theorem fragFrame : Obligations.FragFrame := by
  unfold Obligations.FragFrame
  intro i a s t hi h
  obtain ⟨f, pass, hx, hy, hexec⟩ := exec_frag_form s hi
  obtain rfl := Host.Outcome.next.inj (hexec.symm.trans h)
  obtain ⟨hepoch, hbytes⟩ := fragState_plane_keeps Config.params f pass s
  rw [hx, hy] at hbytes
  exact ⟨hepoch, State.finishWhole_outputs _ _, State.finishWhole_pending _ _, State.finishWhole_drawCount _ _,
    fragState_latch _ _ _ _, hbytes⟩

/-! ### Where FRAG raises (R224) -/

/-- FRAG with its target in the plane and a texture raises what its texel raises (R154). -/
theorem fragOp_unresolved {P : Params} {V : Plane} {f : Fragment} {v : Violation} (pass : Bool) (hin : insidePlane f.x f.y = true)
    (hb : f.blend ≠ .noTexture) (hr : resolveTexel P V f = .error v) : fragOp P pass V f = .error v := by
  obtain ⟨c, hc⟩ := exists_cell_of_insidePlane hin
  simp only [fragOp, addr_of_isCell _ _ hc, (frag_unresolved P V hb hr).2 pass]

/-- Under the policy `fault` a texel cell outside the plane raises (R129). -/
theorem resolveTexel_texel_outside {P : Params} (hP : P.oobPolicy = .fault) (V : Plane) {f : Fragment}
    (h : insidePlane (texCell f.page f.depth f.tx f.ty).1 (texCell f.page f.depth f.tx f.ty).2 = false) :
    resolveTexel P V f = .error (.outOfBounds .texel (texCell f.page f.depth f.tx f.ty).1 (texCell f.page f.depth f.tx f.ty).2) := by
  simp only [resolveTexel, memRead_fault_outside hP V .texel h]

/-- A paletted texel whose cell is in the plane is the read of its CLUT cell (R129). -/
theorem resolveTexel_paletted (P : Params) (V : Plane) {f : Fragment} {tc : CellAddr} (hd : f.depth ≠ .bpp16)
    (hc : isCell (texCell f.page f.depth f.tx f.ty).1 (texCell f.page f.depth f.tx f.ty).2 tc = true) :
    resolveTexel P V f = memRead P V .clut
      (clutCell f.clut (paletteIndex f.depth (readCell P V tc) (texelAlign f.depth f.tx))).1
      (clutCell f.clut (paletteIndex f.depth (readCell P V tc) (texelAlign f.depth f.tx))).2 := by
  have hread := memRead_of_addr P V (addr_of_isCell P.oobPolicy .texel hc)
  simp only [resolveTexel, hread]
  cases hf : f.depth with
  | bpp16 => exact absurd hf hd
  | bpp8 => rfl
  | bpp4 => rfl

/-- A texel at 16 bits per pixel is its cell (R129). -/
theorem resolveTexel_direct (P : Params) (V : Plane) {f : Fragment} {tc : CellAddr} (hd : f.depth = .bpp16)
    (hc : isCell (texCell f.page f.depth f.tx f.ty).1 (texCell f.page f.depth f.tx f.ty).2 tc = true) :
    resolveTexel P V f = .ok (readCell P V tc) := by
  have hread := memRead_of_addr P V (addr_of_isCell P.oobPolicy .texel hc)
  simp only [resolveTexel, hread]
  rw [hd]

theorem fragState_of_error {P : Params} {pass : Bool} {s : State} {f : Fragment} {v : Violation}
    (h : fragOp P pass s.plane f = .error v) : fragState P f pass s = { s with fault := true, lastViolation := some v } := by
  rw [fragState, h]
  rfl

/-- Settles O50: the target is looked up first, then the texel cell, then the CLUT cell. -/
theorem fragChecksItsTargetFirst : Obligations.FragChecksItsTargetFirst := by
  unfold Obligations.FragChecksItsTargetFirst
  intro P pass s f hP raises tpcQ texelX texelY
  have raisesOf : ∀ v, fragOp P pass s.plane f = .error v → raises v := fun v h => ⟨h, fragState_of_error h⟩
  refine ⟨fun hout => raisesOf _ ?_, fun hin hb hout => raisesOf _ ?_, ?_⟩
  · simp only [fragOp, hP, addr_fault_outside .target hout]
  · exact fragOp_unresolved pass hin hb (resolveTexel_texel_outside hP s.plane hout)
  · intro tc hin hb hd hc index hout
    refine raisesOf _ (fragOp_unresolved pass hin hb ?_)
    rw [resolveTexel_paletted P s.plane hd hc, clutCell, ← Nat.cast_add]
    exact memRead_fault_outside hP s.plane .clut hout

end Sys2Proof.Machine

/-! ## What FRAG writes (R142 to R148, R152 to R154) -/

namespace Sys2Proof.Machine

theorem ditherStep_eq_ite (flag : Bool) (x y : Int) : ditherStep flag x y = if flag then (dither x y : ℚ) / 255 else 0 := by
  cases flag
  · exact ditherStep_false x y
  · exact ditherStep_true x y

/-- The dithered colour of a FRAG whose target is the cell c: the increment is that of the cell's position (R149, R172). -/
theorem ditherColour_fragmentOf (fl : DrawFlags) (blend : BlendMode) (depth : DepthMode) {a : FragArgs} {c : CellAddr} (col : Colour)
    (hc : isCell a.target.x.toNat a.target.y.toNat c = true) :
    ditherColour (fragmentOf fl blend depth a) col =
      { r := clamp01 (col.r + if fl.dither then (dither c.x.val c.y.val : ℚ) / 255 else 0)
        g := clamp01 (col.g + if fl.dither then (dither c.x.val c.y.val : ℚ) / 255 else 0)
        b := clamp01 (col.b + if fl.dither then (dither c.x.val c.y.val : ℚ) / 255 else 0), a := col.a } := by
  obtain ⟨hx, hy⟩ := isCell_iff.mp hc
  simp only [ditherColour, fragmentOf, hx, hy, ditherStep_eq_ite]

/-- FRAG on an untextured fragment with its target in the plane: the pass of its flag writes (R142, R143, R152). -/
theorem fragOp_untextured (P : Params) (pass : Bool) (V : Plane) {f : Fragment} {c : CellAddr} (hb : f.blend = .noTexture)
    (hc : isCell f.x f.y c = true) :
    fragOp P pass V f =
      if f.semi ≠ pass then .ok V
      else .ok (writeCell V c (if pass then P.semiBlend (readCell P V c) (ditherColour f (flatColour P f))
        else pack P.roundTie (ditherColour f (flatColour P f)))) := by
  obtain ⟨hx, hy⟩ := isCell_iff.mp hc
  rw [fragOp_of_frag P pass V f hx hy, frag_untextured P V pass hb]
  by_cases h : f.semi = pass <;> simp [h]

theorem fragmentOf_semi (fl : DrawFlags) (blend : BlendMode) (depth : DepthMode) (a : FragArgs) :
    (fragmentOf fl blend depth a).semi = fl.semi := rfl

/-- Settles O42: `fragOp_untextured` on the fragment of the descriptor, whose dithered colour is the one stated. -/
theorem fragFlatWritesItsPixel : Obligations.FragFlatWritesItsPixel := by
  unfold Obligations.FragFlatWritesItsPixel
  intro fl dshift a s c hc d out
  have hout : ditherColour (fragmentOf fl .noTexture depthUnread a) (flatColour Config.params (fragmentOf fl .noTexture depthUnread a)) =
      out := ditherColour_fragmentOf fl _ _ _ hc
  have hop := fragOp_untextured Config.params fl.pass s.plane (f := fragmentOf fl .noTexture depthUnread a) rfl hc
  rw [hout] at hop
  rw [exec, execFragFlat, fragState, hop, fragmentOf_semi]
  by_cases hsemi : fl.semi = fl.pass
  · rw [if_neg (not_not_intro hsemi), if_neg (not_not_intro hsemi)]
    cases fl.pass <;> rfl
  · rw [if_pos hsemi, if_pos hsemi]
    rfl

/-- The texel cell of a FRAG, its coordinates whole numbers of texels (R127). -/
theorem texCell_natCast (page : Coord) (depth : DepthMode) (u v : Nat) :
    texCell page depth u v = (((page.x.toNat + u / tpc depth % 256 : Nat) : Int), ((page.y.toNat + v % 256 : Nat) : Int)) := by
  rw [texCell, offsetX, floor_cellX, offsetY, Int.floor_natCast, Int.floor_natCast]
  push_cast
  rfl

theorem texelAlign_natCast (depth : DepthMode) (u : Nat) : texelAlign depth u = u % tpc depth := by
  have h := texelAlign_eq_emod depth u
  rw [Int.floor_natCast] at h
  exact_mod_cast h

/-- The texel of a FRAG whose texel cell and, at the paletted depths, CLUT cell are cells of the plane (R129). -/
theorem resolveTexel_fragmentOf (P : Params) (V : Plane) (fl : DrawFlags) (blend : BlendMode) {depth : DepthMode} {a : FragArgs}
    {tc cc : CellAddr}
    (htc : isCell (a.page.x.toNat + a.tex.u.toNat / tpc depth % 256 : Nat) (a.page.y.toNat + a.tex.v.toNat % 256 : Nat) tc = true)
    (hcc : depth ≠ .bpp16 → isCell (a.clut.x.toNat + paletteIndex depth (readCell P V tc) (a.tex.u.toNat % tpc depth) : Nat)
      a.clut.y.toNat cc = true) :
    resolveTexel P V (fragmentOf fl blend depth a) = .ok (if depth = .bpp16 then readCell P V tc else readCell P V cc) := by
  have hcell : texCell (fragmentOf fl blend depth a).page (fragmentOf fl blend depth a).depth (fragmentOf fl blend depth a).tx
      (fragmentOf fl blend depth a).ty = _ := texCell_natCast a.page depth a.tex.u.toNat a.tex.v.toNat
  have halign : texelAlign (fragmentOf fl blend depth a).depth (fragmentOf fl blend depth a).tx = _ :=
    texelAlign_natCast depth a.tex.u.toNat
  by_cases hd : depth = .bpp16
  · rw [if_pos hd]
    exact resolveTexel_direct P V hd (by rw [hcell]; exact htc)
  · rw [if_neg hd, resolveTexel_paletted P V (tc := tc) hd (by rw [hcell]; exact htc), halign, clutCell, ← Nat.cast_add]
    exact memRead_of_addr P V (addr_of_isCell _ _ (hcc hd))

/-- FRAG on a textured fragment of a descriptor with its target in the plane and its texel resolved, as a state: the sentinel, the other
pass, or one write (R144, R146, R152). -/
theorem fragState_textured (P : Params) (s : State) (fl : DrawFlags) {blend : BlendMode} (depth : DepthMode) {a : FragArgs}
    {c : CellAddr} {t : Cell} (hb : blend ≠ .noTexture) (hc : isCell a.target.x.toNat a.target.y.toNat c = true)
    (hr : resolveTexel P s.plane (fragmentOf fl blend depth a) = .ok t) :
    fragState P (fragmentOf fl blend depth a) fl.pass s =
      if t = 0x0000#16 then s
      else if (maskBit t && fl.semi) ≠ fl.pass then s
      else if fl.pass then { s with plane := writeCell s.plane c (P.semiBlend (readCell P s.plane c)
        (ditherColour (fragmentOf fl blend depth a) (texturedColour (fragmentOf fl blend depth a) (unpack t)))) }
      else { s with plane := writeCell s.plane c (pack P.roundTie
        (ditherColour (fragmentOf fl blend depth a) (texturedColour (fragmentOf fl blend depth a) (unpack t)))) } := by
  obtain ⟨hx, hy⟩ := isCell_iff.mp hc
  have hop := fragOp_textured P fl.pass s.plane (fragmentOf fl blend depth a) hb hr hx hy
  rw [fragState, hop, fragmentOf_semi, effTextured]
  by_cases h0 : t = 0x0000#16
  · rw [if_pos h0, if_pos h0]
    rfl
  · rw [if_neg h0, if_neg h0]
    by_cases hpass : (maskBit t && fl.semi) = fl.pass
    · rw [if_neg (not_not_intro hpass), if_neg (not_not_intro hpass)]
      cases fl.pass <;> rfl
    · rw [if_pos hpass, if_pos hpass]
      rfl

/-- Settles O43: the texture colour is the texel's own, and dithered it still packs to the texel (R162). -/
theorem fragRawWritesTheTexel : Obligations.FragRawWritesTheTexel := by
  unfold Obligations.FragRawWritesTheTexel
  intro fl depth a s c tc cc hc htc hcc t d out
  have hout : ditherColour (fragmentOf fl .rawTexture depth a) (texturedColour (fragmentOf fl .rawTexture depth a) (unpack t)) = out :=
    ditherColour_fragmentOf fl _ _ _ hc
  have hpack : pack .halfUp out = t := hout ▸ pack_ditherColour_unpack .halfUp _ t
  have hstate := fragState_textured Config.params s fl depth (blend := .rawTexture) (by simp) hc
    (resolveTexel_fragmentOf Config.params s.plane fl .rawTexture htc hcc)
  rw [exec, execFragRaw, hstate, hout]
  simp only [Config.params, hpack]
  rfl

/-- Settles O44: the texture colour is the texel's, modulated (R148). -/
theorem fragModWritesTheModulatedTexel : Obligations.FragModWritesTheModulatedTexel := by
  unfold Obligations.FragModWritesTheModulatedTexel
  intro fl depth a s c tc cc hc htc hcc t d channel out
  have hout : ditherColour (fragmentOf fl .textureBlend depth a) (texturedColour (fragmentOf fl .textureBlend depth a) (unpack t)) = out :=
    ditherColour_fragmentOf fl _ _ _ hc
  have hstate := fragState_textured Config.params s fl depth (blend := .textureBlend) (by simp) hc
    (resolveTexel_fragmentOf Config.params s.plane fl .textureBlend htc hcc)
  rw [exec, execFragMod, hstate, hout]
  rfl

end Sys2Proof.Machine

/-! ## Primitives (R60, R158, R159) -/

namespace Sys2Proof.Machine

/-! ### COVER, INTERP and the pixel order -/

/-- Settles O56: the cover is a function of the two; the common colour is taken where there is one, and every other shade is clamped. -/
theorem coverAndInterpMeetTheirRequirements : Obligations.CoverAndInterpMeetTheirRequirements := by
  unfold Obligations.CoverAndInterpMeetTheirRequirements
  intro P p q xy
  refine ⟨fun hkind hverts => by rw [coverOf, coverOf, hkind, hverts], fun col h0 hall => ?_, ?_⟩
  · rw [interpShade, commonColour_of_all h0 hall]
  · unfold interpShade
    split
    · exact ⟨(channelOfByte_mem _).1, (channelOfByte_mem _).2, (channelOfByte_mem _).1, (channelOfByte_mem _).2, channelOfByte_mem _⟩
    · exact ⟨clamp01_nonneg _, clamp01_le_one _, clamp01_nonneg _, clamp01_le_one _, clamp01_nonneg _, clamp01_le_one _⟩

/-- Sorted by their place in a list without repetitions, its elements come out as that list. -/
theorem insertionSort_idxOf {α : Type} [BEq α] [LawfulBEq α] {l m : List α} (hl : l.Nodup) (h : l.Perm m) :
    m.insertionSort (fun a b => l.idxOf a ≤ l.idxOf b) = l := by
  have htotal : Std.Total fun a b => l.idxOf a ≤ l.idxOf b := ⟨fun a b => le_total _ _⟩
  have htrans : IsTrans α fun a b => l.idxOf a ≤ l.idxOf b := ⟨fun a b c => le_trans⟩
  have hsorted : l.Pairwise fun a b => l.idxOf a ≤ l.idxOf b := by
    rw [List.pairwise_iff_getElem]
    intro i j hi hj hij
    rw [hl.idxOf_getElem, hl.idxOf_getElem]
    exact hij.le
  refine List.Perm.eq_of_pairwise (fun a b _ hb hab hba => ?_) (List.pairwise_insertionSort _ m) hsorted
    ((List.perm_insertionSort _ m).trans h.symm)
  exact ((List.idxOf_inj hb).mp (le_antisymm hba hab)).symm

/-- Settles O55: an arrangement of the cover is the order by the rank of a position in it. -/
theorem everyPixelOrderIsPossible : Obligations.EveryPixelOrderIsPossible := by
  unfold Obligations.EveryPixelOrderIsPossible
  intro P n p pass
  refine ⟨fun l hl => ⟨fun _ _ _ xy => l.idxOf xy, ?_⟩, fun rank => pixelOrder_perm _ n p pass⟩
  exact insertionSort_idxOf (hl.nodup_iff.mpr (List.nodup_dedup _)) hl

/-! ### DRAW on the state -/

/-- The end of a writing operation, field by field (R221, R222). -/
theorem State.finishWrite_eq (s : State) (r : Plane × Option Violation) :
    s.finishWrite r =
      { s with plane := r.1, fault := s.fault || r.2.isSome, lastViolation := r.2.or s.lastViolation } := by
  obtain ⟨V, _ | v⟩ := r
  · simp [State.finishWrite, State.setPlane]
  · simp [State.finishWrite, State.setPlane, State.raise]

/-- The three forms of DRAW are `drawRecord` of their record. -/
theorem exec_draw_form {i : Instr} {a : DrawArgs} (s : State)
    (h : ∃ fl, (∃ d, i = .drawFlat fl d a) ∨ (∃ d, i = .drawRaw fl d a) ∨ (∃ d, i = .drawMod fl d a)) :
    ∃ fl blend depth, exec i s = drawRecord Config.params fl blend depth a s := by
  obtain ⟨fl, ⟨d, rfl⟩ | ⟨d, rfl⟩ | ⟨d, rfl⟩⟩ := h
  · exact ⟨fl, .noTexture, depthUnread, rfl⟩
  · exact ⟨fl, .rawTexture, d, rfl⟩
  · exact ⟨fl, .textureBlend, d, rfl⟩

/-- The order of a DRAW holds the covered positions (R158). -/
theorem mem_pixelOrder_primitiveOf (P : Params) (n : Nat) (fl : DrawFlags) (blend : BlendMode) (depth : DepthMode) (a : DrawArgs)
    (pass : Bool) (xy : Int × Int) :
    xy ∈ pixelOrder P n (primitiveOf fl blend depth a) pass ↔ xy ∈ P.cover a.kind (a.verts.map vertexPos) := by
  rw [mem_pixelOrder, primitiveOf_kind, primitiveOf_positions]

/-- Settles O51: the order is `pixelOrder`, the loop is `drawPixels`, and `State.finishWrite_eq` is its end. -/
theorem drawRunsFragOncePerCoveredPixel : Obligations.DrawRunsFragOncePerCoveredPixel := by
  unfold Obligations.DrawRunsFragOncePerCoveredPixel
  intro fl dshift depth a s h1 h15 i p hip
  have hv : vertexCountOk a.verts = true := by simp [vertexCountOk, h1, h15]
  have hdraw (blend : BlendMode) (depth : DepthMode) (hexec : exec i s = drawRecord Config.params fl blend depth a s)
      (hp : p = primitiveOf fl blend depth a) :
      exec i s = .next (drawState Config.params p fl.pass s) ∧
        ∀ xy, xy ∈ pixelOrder Config.params s.drawCount p fl.pass ↔ xy ∈ Config.cover a.kind (a.verts.map vertexPos) := by
    rw [hexec, drawRecord_eq _ _ _ _ _ _ hv, hp]
    exact ⟨rfl, mem_pixelOrder_primitiveOf Config.params _ fl blend depth a _⟩
  have hform : exec i s = .next (drawState Config.params p fl.pass s) ∧
      ∀ xy, xy ∈ pixelOrder Config.params s.drawCount p fl.pass ↔ xy ∈ Config.cover a.kind (a.verts.map vertexPos) := by
    rcases hip with ⟨rfl, hp⟩ | ⟨rfl, hp⟩ | ⟨rfl, hp⟩
    · exact hdraw _ _ rfl hp
    · exact hdraw _ _ rfl hp
    · exact hdraw _ _ rfl hp
  obtain ⟨hexec, hmem⟩ := hform
  refine ⟨_, pixelOrder_nodup _ _ _ _, hmem, _, _, rfl, ?_⟩
  rw [hexec, drawState, State.finishWrite_eq]
  rfl

/-- Settles O52: the plane by `drawPixels_keeps` over the order, the other fields by the laws of the end of a write. -/
theorem drawFrame : Obligations.DrawFrame := by
  unfold Obligations.DrawFrame
  intro i a s t hi h
  have hfault := exec_fault h
  obtain ⟨fl, blend, depth, hexec⟩ := exec_draw_form s hi
  rw [hexec] at h
  unfold drawRecord at h
  split at h
  · obtain rfl := Host.Outcome.next.inj h
    obtain ⟨hepoch, _, hbytes⟩ := drawPixels_keeps Config.params (primitiveOf fl blend depth a) fl.pass s.plane
      (pixelOrder Config.params s.drawCount (primitiveOf fl blend depth a) fl.pass)
    refine ⟨?_, State.finishWrite_outputs _ _, State.finishWrite_pending _ _, State.finishWrite_drawCount _ _, hfault, fun b hb => ?_⟩
    · rw [drawState, State.finishWrite_plane]
      exact hepoch
    · rw [drawState, State.finishWrite_plane]
      refine hbytes b fun xy hxy c hc => byteOfCell_eq_false.mp (hb xy ?_ c hc)
      exact (mem_pixelOrder_primitiveOf Config.params _ fl blend depth a _ xy).mp hxy
  · cases h

/-! ### A flat primitive -/

/-- Two writing loops whose steps do the same leave the same plane and meet the same violation. -/
theorem writeEach_map_congr {α β γ : Type} {f : Plane → α → Except Violation Plane} {g : Plane → β → Except Violation Plane}
    {a : γ → α} {b : γ → β} {l : List γ} (V : Plane) (h : ∀ V, ∀ x ∈ l, f V (a x) = g V (b x)) :
    writeEach f V (l.map a) = writeEach g V (l.map b) := by
  induction l generalizing V with
  | nil => rfl
  | cons x l ih =>
    simp only [List.map_cons, writeEach, h V x (by simp)]
    split
    · rfl
    · exact ih _ fun W y hy => h W y (by simp [hy])

/-- The cell a flat untextured primitive leaves at a position: its colour, dithered and packed (R142, R149, R152). -/
def flatCell (P : Params) (fl : DrawFlags) (col : Rgb) (xy : Int × Int) : Cell :=
  pack P.roundTie
    { r := clamp01 (channelOfByte col.r + ditherStep fl.dither xy.1 xy.2)
      g := clamp01 (channelOfByte col.g + ditherStep fl.dither xy.1 xy.2)
      b := clamp01 (channelOfByte col.b + ditherStep fl.dither xy.1 xy.2), a := alphaOfBit P.flatAlpha }

/-- One pixel of a flat untextured primitive in pass 0 is one write of `flatCell`. -/
theorem fragOp_flat (P : Params) {fl : DrawFlags} {a : DrawArgs} {col : Rgb} (hpass : fl.pass = false) (hsemi : fl.semi = false)
    (h0 : a.verts ≠ []) (hcol : ∀ v ∈ a.verts, v.colour = col) (V : Plane) {xy : Int × Int} (hin : insidePlane xy.1 xy.2 = true) :
    fragOp P fl.pass V (fragmentAt P (primitiveOf fl .noTexture depthUnread a) xy) = uploadCell P V (xy, flatCell P fl col xy) := by
  obtain ⟨c, hc⟩ := exists_cell_of_insidePlane hin
  have hcommon : commonColour (primitiveOf fl .noTexture depthUnread a).verts = some col := by
    refine commonColour_of_all (by simpa [primitiveOf, vertsRead] using h0) fun v hv => ?_
    obtain ⟨w, hw, rfl⟩ := List.mem_map.mp (show v ∈ a.verts.map vertexUntextured from hv)
    exact hcol w hw
  have hshade : (fragmentAt P (primitiveOf fl .noTexture depthUnread a) xy).shade = shadeOfRgb col := by
    simp only [fragmentAt, interpShade, hcommon]
  have hcell : pack P.roundTie (ditherColour (fragmentAt P (primitiveOf fl .noTexture depthUnread a) xy)
      (flatColour P (fragmentAt P (primitiveOf fl .noTexture depthUnread a) xy))) = flatCell P fl col xy := by
    rw [flatColour, hshade]
    rfl
  rw [fragOp_untextured P fl.pass V rfl hc, hcell, uploadCell, memWrite_of_addr P V _ (addr_of_isCell _ _ hc), hpass]
  exact if_neg (not_not_intro hsemi)

/-- A loop of writes, one per position of the plane: nothing is raised, each cell holds its value, and every other byte stays. -/
theorem writeEach_positions (P : Params) (V : Plane) (g : Int × Int → Cell) {order : List (Int × Int)} (hnd : order.Nodup)
    (hin : ∀ xy ∈ order, insidePlane xy.1 xy.2 = true) :
    (writeEach (uploadCell P) V (order.map fun xy => (xy, g xy))).2 = none ∧
    (∀ xy ∈ order, ∀ c, isCell xy.1 xy.2 c = true →
      readCell P (writeEach (uploadCell P) V (order.map fun xy => (xy, g xy))).1 c = g xy) ∧
    ∀ b, (∀ xy ∈ order, ∀ c, isCell xy.1 xy.2 c = true → byteOfCell c b = false) →
      readByte P (writeEach (uploadCell P) V (order.map fun xy => (xy, g xy))).1 b = readByte P V b := by
  have hinside : ∀ e ∈ order.map fun xy => (xy, g xy), insidePlane e.1.1 e.1.2 = true := by
    simpa only [List.forall_mem_map] using hin
  have hnodup : ((order.map fun xy => (xy, g xy)).map Prod.fst).Nodup := by
    simpa [List.map_map, Function.comp_def] using hnd
  obtain ⟨hnone, hwritten, _⟩ := writeEach_uploadCell P _ V hinside hnodup
  refine ⟨hnone, fun xy hxy c hc => hwritten (xy, g xy) (List.mem_map_of_mem hxy) c hc, fun b hb =>
    readByte_writeEach_uploadCell P V _ b fun e he c hc => ?_⟩
  obtain ⟨xy, hxy, rfl⟩ := List.mem_map.mp he
  obtain ⟨c', hc'⟩ := exists_cell_of_insidePlane (hin xy hxy)
  obtain rfl : c = c' := Except.ok.inj (hc.symm.trans (addr_of_isCell _ _ hc'))
  exact hb xy hxy c hc'

/-- Settles O53: the loop is one of writes at the covered positions, so `writeEach_positions` applies. -/
theorem flatPrimitiveFillsItsCover : Obligations.FlatPrimitiveFillsItsCover := by
  unfold Obligations.FlatPrimitiveFillsItsCover
  intro P fl a col s hpass hsemi h0 hcol hin
  have hmem := mem_pixelOrder_primitiveOf P s.drawCount fl .noTexture depthUnread a fl.pass
  have hin' : ∀ xy ∈ pixelOrder P s.drawCount (primitiveOf fl .noTexture depthUnread a) fl.pass, insidePlane xy.1 xy.2 = true :=
    fun xy hxy => hin xy ((hmem xy).mp hxy)
  obtain ⟨hnone, hwritten, hkept⟩ := writeEach_positions P s.plane (flatCell P fl col) (pixelOrder_nodup _ _ _ _) hin'
  refine ⟨_, ?_, fun xy hxy => hwritten xy ((hmem xy).mpr hxy), fun b hb => hkept b fun xy hxy => hb xy ((hmem xy).mp hxy)⟩
  rw [drawState, drawPixels, writeEach_map_congr s.plane fun V xy hxy => fragOp_flat P hpass hsemi h0 hcol V (hin' xy hxy),
    State.finishWrite, hnone]
  rfl

/-! ### Independence of the order -/

/-- What a position leaves in its cell, from the plane before the DRAW (R152 to R154). -/
def fragmentCell (P : Params) (p : Primitive) (pass : Bool) (V : Plane) (xy : Int × Int) (c : CellAddr) : Cell :=
  match frag P V (fragmentAt P p xy) pass with
  | .ok (some out) => if pass then P.semiBlend (readCell P V c) out else pack P.roundTie out
  | .ok none => readCell P V c
  | .error _ => readCell P V c

/-- Two planes agree on every cell that no position of the list is. -/
def AgreeOff (P : Params) (L : List (Int × Int)) (V W : Plane) : Prop :=
  ∀ c, (∀ xy ∈ L, isCell xy.1 xy.2 c = false) → readCell P W c = readCell P V c

/-- Every fragment of the positions has an answer, and no plane that differs only in their cells changes it: no texel or CLUT cell read is
one of them. -/
def ReadsNoCovered (P : Params) (p : Primitive) (pass : Bool) (L : List (Int × Int)) (V : Plane) : Prop :=
  ∀ xy ∈ L, ∃ o, ∀ W, AgreeOff P L V W → frag P W (fragmentAt P p xy) pass = .ok o

/-- One pixel: it leaves in its cell what `fragmentCell` says, and every other cell as it was. -/
theorem fragOp_fragmentCell {P : Params} {p : Primitive} {pass : Bool} {L : List (Int × Int)} {V W : Plane}
    (hreads : ReadsNoCovered P p pass L V) (hagree : AgreeOff P L V W) {xy : Int × Int} (hxy : xy ∈ L) {c : CellAddr}
    (hc : isCell xy.1 xy.2 c = true) (hold : readCell P W c = readCell P V c) :
    ∃ W', fragOp P pass W (fragmentAt P p xy) = .ok W' ∧ readCell P W' c = fragmentCell P p pass V xy c ∧
      ∀ c', c' ≠ c → readCell P W' c' = readCell P W c' := by
  obtain ⟨o, ho⟩ := hreads xy hxy
  have hV := ho V fun _ _ => rfl
  have hop := fragOp_of_frag P pass W (fragmentAt P p xy) (isCell_iff.mp hc).1 (isCell_iff.mp hc).2
  rw [ho W hagree] at hop
  unfold fragmentCell
  rw [hV]
  cases o with
  | none => exact ⟨W, hop, hold, fun _ _ => rfl⟩
  | some out =>
    refine ⟨_, hop, ?_, fun c' hne => readCell_writeCell_ne _ _ _ hne⟩
    rw [readCell_writeCell_same, hold]

/-- Two positions of the plane that are one cell are one position. -/
theorem position_unique {xy xy' : Int × Int} {c : CellAddr} (h : isCell xy.1 xy.2 c = true) (h' : isCell xy'.1 xy'.2 c = true) :
    xy = xy' := by
  obtain ⟨hx, hy⟩ := isCell_iff.mp h
  obtain ⟨hx', hy'⟩ := isCell_iff.mp h'
  exact Prod.ext (hx.trans hx'.symm) (hy.trans hy'.symm)

/-- The loop over some of the positions, their cells still as in V: nothing is raised, each of these cells holds what `fragmentCell` says,
and every other cell stays. -/
theorem drawPixels_fragmentCell {P : Params} {p : Primitive} {pass : Bool} {L : List (Int × Int)} {V : Plane}
    (hreads : ReadsNoCovered P p pass L V) (hin : ∀ xy ∈ L, insidePlane xy.1 xy.2 = true) (l : List (Int × Int)) (hl : l ⊆ L)
    (hnd : l.Nodup) (W : Plane) (hagree : AgreeOff P L V W)
    (hold : ∀ xy ∈ l, ∀ c, isCell xy.1 xy.2 c = true → readCell P W c = readCell P V c) :
    (drawPixels P p pass W l).2 = none ∧
    (∀ xy ∈ l, ∀ c, isCell xy.1 xy.2 c = true → readCell P (drawPixels P p pass W l).1 c = fragmentCell P p pass V xy c) ∧
    ∀ c, (∀ xy ∈ l, isCell xy.1 xy.2 c = false) → readCell P (drawPixels P p pass W l).1 c = readCell P W c := by
  induction l generalizing W with
  | nil => exact ⟨rfl, by simp, fun _ _ => rfl⟩
  | cons xy l ih =>
    obtain ⟨hxyL, hlL⟩ := List.cons_subset.mp hl
    obtain ⟨hxyl, hndl⟩ := List.nodup_cons.mp hnd
    obtain ⟨c, hc⟩ := exists_cell_of_insidePlane (hin xy hxyL)
    obtain ⟨W', hop, hnew, hrest⟩ := fragOp_fragmentCell hreads hagree hxyL hc (hold xy (by simp) c hc)
    have hloop : drawPixels P p pass W (xy :: l) = drawPixels P p pass W' l := by
      simp only [drawPixels, List.map_cons, writeEach, hop]
    have hother : ∀ xy' ∈ l, isCell xy'.1 xy'.2 c = false := fun xy' h' =>
      Bool.eq_false_of_not_eq_true fun hc' => hxyl (position_unique hc hc' ▸ h')
    have hagree' : AgreeOff P L V W' := fun c' h' => by
      rw [hrest c' ?_, hagree c' h']
      rintro rfl
      simp [h' xy hxyL] at hc
    have hold' : ∀ xy' ∈ l, ∀ c', isCell xy'.1 xy'.2 c' = true → readCell P W' c' = readCell P V c' := fun xy' hxy' c' hc' => by
      rw [hrest c' ?_, hold xy' (by simp [hxy']) c' hc']
      rintro rfl
      simp [hother xy' hxy'] at hc'
    obtain ⟨hnone, hwritten, hkept⟩ := ih hlL hndl W' hagree' hold'
    rw [hloop]
    refine ⟨hnone, fun xy' hxy' c' hc' => ?_, fun c' hc' => ?_⟩
    · rcases List.mem_cons.mp hxy' with rfl | hxy'
      · obtain rfl : c' = c := (cellAt_eq_of_isCell hc').symm.trans (cellAt_eq_of_isCell hc)
        rw [hkept c' hother, hnew]
      · exact hwritten xy' hxy' c' hc'
    · rw [hkept c' fun xy' hxy' => hc' xy' (by simp [hxy']), hrest c' ?_]
      rintro rfl
      simp [hc' xy (by simp)] at hc

/-- A primitive without texture reads no cell; a textured one whose texels resolve from uncovered cells reads none that is covered. -/
theorem readsNoCovered_of_texels {P : Params} {p : Primitive} {pass : Bool} {L : List (Int × Int)} {V : Plane}
    (h : p.blend ≠ .noTexture → ∀ xy ∈ L, (∃ t, resolveTexel P V (fragmentAt P p xy) = .ok t) ∧
      ∀ c ∈ texelReads P V (fragmentAt P p xy), ∀ xy' ∈ L, isCell xy'.1 xy'.2 c = false) : ReadsNoCovered P p pass L V := by
  intro xy hxy
  by_cases hb : p.blend = .noTexture
  · exact ⟨_, fun W _ => frag_untextured P W pass hb⟩
  · obtain ⟨⟨t, ht⟩, hread⟩ := h hb xy hxy
    refine ⟨fragTextured (fragmentAt P p xy) t pass, fun W hW => frag_textured P W (fragmentAt P p xy) pass hb ?_⟩
    rw [resolveTexel_congr P V W _ fun c hc => hW c (hread c hc), ht]

/-- Settles O54: both orders leave in each covered cell what `fragmentCell` says from the first plane, and every other cell as it was. -/
theorem pixelOrderIsUnobservableWithoutOverlap : Obligations.PixelOrderIsUnobservableWithoutOverlap := by
  unfold Obligations.PixelOrderIsUnobservableWithoutOverlap
  intro P p pass V l₁ l₂ hnd hperm hin htexels
  have hreads : ReadsNoCovered P p pass l₁ V := readsNoCovered_of_texels htexels
  obtain ⟨hnone₁, hwritten₁, hkept₁⟩ := drawPixels_fragmentCell hreads hin l₁ (List.Subset.refl _) hnd V (fun _ _ => rfl)
    fun _ _ _ _ => rfl
  obtain ⟨hnone₂, hwritten₂, hkept₂⟩ := drawPixels_fragmentCell hreads hin l₂ hperm.symm.subset (hperm.nodup_iff.mp hnd) V
    (fun _ _ => rfl) fun _ _ _ _ => rfl
  refine ⟨hnone₁, hnone₂, fun c => ?_⟩
  by_cases hc : ∃ xy ∈ l₁, isCell xy.1 xy.2 c = true
  · obtain ⟨xy, hxy, hc⟩ := hc
    rw [hwritten₁ xy hxy c hc, hwritten₂ xy (hperm.subset hxy) c hc]
  · have huncovered : ∀ xy ∈ l₁, isCell xy.1 xy.2 c = false := by simpa using hc
    rw [hkept₁ c huncovered, hkept₂ c fun xy hxy => huncovered xy (hperm.symm.subset hxy)]

end Sys2Proof.Machine

/-! ## The display (R200 to R209) -/

namespace Sys2Proof.Machine

theorem exec_disp15_of_ok {origin : Coord} {size : Size} {fade : Byte} {s : State} {rows : List (List Pixel)}
    (h : imageOf (pixel15 Config.params s.plane origin fade) size = .ok rows) :
    exec (.disp15 origin size fade) s = .next { s with outputs := s.outputs ++ [.image rows] } := by
  rw [exec, execDisp15, display15, h]
  rfl

theorem exec_disp24_of_ok {origin : Coord} {size : Size} {fade : Byte} {s : State} {rows : List (List Pixel)}
    (h : imageOf (pixel24 Config.params s.plane origin fade) size = .ok rows) :
    exec (.disp24 origin size fade) s = .next { s with outputs := s.outputs ++ [.image rows] } := by
  rw [exec, execDisp24, display24, h]
  rfl

/-- Settles O57: every pixel of the region has its cell, so `imageOf_ok` applies. -/
theorem disp15ReturnsTheRegion : Obligations.Disp15ReturnsTheRegion := by
  unfold Obligations.Disp15ReturnsTheRegion
  intro origin size fade s hin
  have hcell (i j : Nat) (hi : i < size.w.toNat) (hj : j < size.h.toNat) :
      isCell (origin.x.toNat + i) (origin.y.toNat + j) (cellAt (origin.x.toNat + i, origin.y.toNat + j)) = true :=
    isCell_cellAt (insidePlane_of_rectInside hin ((mem_rectCells origin size _).mpr ⟨j, hj, i, hi, rfl⟩))
  obtain ⟨rows, himage, hheight, hwidth, hpixel⟩ := imageOf_ok (pixel := pixel15 Config.params s.plane origin fade) (size := size)
    (g := fun ij => pixelOfCell fade (readCell Config.params s.plane (cellAt (origin.x.toNat + ij.1, origin.y.toNat + ij.2))))
    fun i j hi hj => pixel15_inside _ _ _ _ (isCell_iff.mp (hcell i j hi hj)).1 (isCell_iff.mp (hcell i j hi hj)).2
  refine ⟨rows, exec_disp15_of_ok himage, hheight, hwidth, fun i j c hi hj hc => ?_⟩
  rw [hpixel i j hi hj]
  dsimp only
  rw [cellAt_eq_of_isCell hc]
  rfl

/-- A pixel of the 24-bit mode is three bytes one after another: from the low byte of the first cell for an even column, from its high
byte for an odd one (R206, R208). -/
theorem pixelOfBits_recombine (P : Params) (V : Plane) (fade : Byte) (i : Nat) {c c' : CellAddr} (hx : c'.x.val = c.x.val + 1)
    (hy : c'.y.val = c.y.val) :
    pixelOfBits fade (recombine i (readCell P V c) (readCell P V c')) =
      { r := channelOfByte (readByte P V (byteAddr c + i % 2)), g := channelOfByte (readByte P V (byteAddr c + i % 2 + 1))
        b := channelOfByte (readByte P V (byteAddr c + i % 2 + 2)), alpha := channelOfByte fade } := by
  have hnext : byteAddr c' = byteAddr c + 2 := by
    simp only [byteAddr, hx, hy]
    omega
  obtain ⟨hlo, hhi⟩ := readCell_bytes P V c
  obtain ⟨hlo', hhi'⟩ := readCell_bytes P V c'
  rw [hnext] at hlo' hhi'
  rcases Nat.mod_two_eq_zero_or_one i with hi | hi
  · obtain ⟨h0, h1, h2⟩ := recombine_even hi (readCell P V c) (readCell P V c')
    rw [pixelOfBits, h0, h1, h2, hlo, hhi, hlo', hi]
    rfl
  · obtain ⟨h0, h1, h2⟩ := recombine_odd hi (readCell P V c) (readCell P V c')
    rw [pixelOfBits, h0, h1, h2, hhi, hlo', hhi', hi]

/-- The pixel of three bytes of the region row, from byte 3 × x24 on (R208). -/
def byteStreamPixel (P : Params) (V : Plane) (o : Coord) (fade : Byte) (ij : Nat × Nat) : Pixel :=
  { r := channelOfByte (readByte P V (2048 * (o.y.toNat + ij.2) + 2 * o.x.toNat + 3 * ij.1))
    g := channelOfByte (readByte P V (2048 * (o.y.toNat + ij.2) + 2 * o.x.toNat + 3 * ij.1 + 1))
    b := channelOfByte (readByte P V (2048 * (o.y.toNat + ij.2) + 2 * o.x.toNat + 3 * ij.1 + 2)), alpha := channelOfByte fade }

/-- A pixel of the 24-bit mode whose two cells lie in the plane is that of its three bytes. -/
theorem pixel24_eq_byteStreamPixel (P : Params) (V : Plane) (o : Coord) (fade : Byte) {i j : Nat}
    (hx : o.x.toNat + firstColumn i + 1 < 1024) (hy : o.y.toNat + j < 512) :
    pixel24 P V o fade (i, j) = .ok (byteStreamPixel P V o fade (i, j)) := by
  obtain ⟨c, hc⟩ : ∃ c : CellAddr, c = ⟨⟨o.x.toNat + firstColumn i, by omega⟩, ⟨o.y.toNat + j, hy⟩⟩ := ⟨_, rfl⟩
  obtain ⟨c', hc'⟩ : ∃ c : CellAddr, c = ⟨⟨o.x.toNat + firstColumn i + 1, hx⟩, ⟨o.y.toNat + j, hy⟩⟩ := ⟨_, rfl⟩
  have haddr : byteAddr c + i % 2 = 2048 * (o.y.toNat + j) + 2 * o.x.toNat + 3 * i := by
    simp only [hc, byteAddr, firstColumn]
    omega
  rw [pixel24_inside P V o fade (c := c) (c' := c') (by simp [hc]) (by simp [hc]) (by simp [hc']) (by simp [hc']),
    pixelOfBits_recombine P V fade i (by simp [hc, hc']) (by simp [hc, hc']), haddr]
  rfl

/-- Settles O58: every pixel is its three bytes by `pixel24_eq_byteStreamPixel`, so `imageOf_ok` applies. -/
theorem disp24ReturnsTheByteStream : Obligations.Disp24ReturnsTheByteStream := by
  unfold Obligations.Disp24ReturnsTheByteStream
  intro origin size fade s _ hwidth24 hheight24
  obtain ⟨rows, himage, hheight, hwidth, hpixel⟩ := imageOf_ok (size := size) (g := byteStreamPixel Config.params s.plane origin fade)
    fun i j hi hj => pixel24_eq_byteStreamPixel Config.params s.plane origin fade (i := i) (j := j)
      (by simp only [firstColumn]; omega) (by omega)
  exact ⟨rows, exec_disp24_of_ok himage, hheight, hwidth, hpixel⟩

/-! ### The mask bit -/

/-- A field of the low 15 bits of a cell. -/
theorem field_of_low15 (v : Cell) {k n : Nat} (h : k + n ≤ 15) : (v.extractLsb' 0 15).extractLsb' k n = v.extractLsb' k n := by
  apply BitVec.eq_of_getLsbD_eq
  intro i hi
  have hlt : k + i < 15 := by omega
  simp [hi, hlt]

/-- The three levels of a cell lie in its low 15 bits, so its pixel does not see the mask bit (R202). -/
theorem pixelOfCell_congr (fade : Byte) {v w : Cell} (h : v.extractLsb' 0 15 = w.extractLsb' 0 15) :
    pixelOfCell fade v = pixelOfCell fade w := by
  have field {k n : Nat} (hkn : k + n ≤ 15) : v.extractLsb' k n = w.extractLsb' k n := by
    rw [← field_of_low15 v hkn, h, field_of_low15 w hkn]
  simp only [pixelOfCell, unpack, redLevel, greenLevel, blueLevel, field (k := 0) (n := 5) (by omega),
    field (k := 5) (n := 5) (by omega), field (k := 10) (n := 5) (by omega)]

theorem pixel15_congr {P : Params} {V W : Plane} (h : ∀ c, (readCell P V c).extractLsb' 0 15 = (readCell P W c).extractLsb' 0 15)
    (o : Coord) (fade : Byte) : pixel15 P V o fade = pixel15 P W o fade := by
  funext ij
  unfold pixel15 memRead
  cases addr P.oobPolicy .display ((o.x.toNat : Int) + ij.1) ((o.y.toNat : Int) + ij.2) with
  | error v => rfl
  | ok c => exact congrArg Except.ok (pixelOfCell_congr fade (h c))

/-- Settles O59: the pixels are the same by `pixel15_congr`, and so is what the read appends. -/
theorem disp15IgnoresTheMaskBit : Obligations.Disp15IgnoresTheMaskBit := by
  unfold Obligations.Disp15IgnoresTheMaskBit
  intro origin size fade s s' h
  have himage : display15 Config.params s.plane origin size fade = display15 Config.params s'.plane origin size fade := by
    rw [display15, display15, pixel15_congr h]
  refine ⟨himage, fun t t' ht ht' hout => ?_⟩
  obtain ⟨returned, hreturned⟩ := State.finishRead_outputs ((display15 Config.params s.plane origin size fade).map .image)
  rw [exec, execDisp15] at ht ht'
  obtain rfl := Host.Outcome.next.inj ht
  obtain rfl := Host.Outcome.next.inj ht'
  rw [← himage, hreturned, hreturned, hout]

/-! ### Where the display raises -/

/-- A read that answers under the policy `fault` was inside the plane (R49). -/
theorem insidePlane_of_memRead_ok {P : Params} (hP : P.oobPolicy = .fault) {V : Plane} {kind : Access} {x y : Int} {v : Cell}
    (h : memRead P V kind x y = .ok v) : insidePlane x y = true := by
  by_contra hout
  cases (memRead_fault_outside hP V kind (Bool.eq_false_of_not_eq_true hout)).symm.trans h

/-- A pixel of the 15-bit mode raises at its cell, outside the plane (R203). -/
theorem pixel15_error {P : Params} {V : Plane} {o : Coord} {fade : Byte} {i j : Nat} {v : Violation}
    (h : pixel15 P V o fade (i, j) = .error v) :
    insidePlane (o.x.toNat + i : Nat) (o.y.toNat + j : Nat) = false ∧
      v = .outOfBounds .display (o.x.toNat + i : Nat) (o.y.toNat + j : Nat) := by
  unfold pixel15 at h
  push_cast
  split at h
  · next hread =>
    cases h
    exact memRead_error hread
  · cases h

theorem insidePlane_of_pixel15_ok {P : Params} (hP : P.oobPolicy = .fault) {V : Plane} {o : Coord} {fade : Byte} {i j : Nat} {p : Pixel}
    (h : pixel15 P V o fade (i, j) = .ok p) : insidePlane (o.x.toNat + i : Nat) (o.y.toNat + j : Nat) = true := by
  unfold pixel15 at h
  push_cast
  split at h
  · cases h
  · next hread => exact insidePlane_of_memRead_ok hP hread

/-- A pixel of the 24-bit mode raises at its first cell, or at its second with the first in the plane (R207, R224). -/
theorem pixel24_error {P : Params} (hP : P.oobPolicy = .fault) {V : Plane} {o : Coord} {fade : Byte} {i j : Nat} {v : Violation}
    (h : pixel24 P V o fade (i, j) = .error v) :
    ∃ k, insidePlane (o.x.toNat + k : Nat) (o.y.toNat + j : Nat) = false ∧
      (k = i * 3 / 2 ∨ k = i * 3 / 2 + 1 ∧ insidePlane (o.x.toNat + i * 3 / 2 : Nat) (o.y.toNat + j : Nat) = true) ∧
      v = .outOfBounds .display (o.x.toNat + k : Nat) (o.y.toNat + j : Nat) := by
  unfold pixel24 firstColumn at h
  dsimp only at h
  split at h
  · next hread =>
    cases h
    obtain ⟨hout, hv⟩ := memRead_error hread
    exact ⟨i * 3 / 2, by exact_mod_cast hout, .inl rfl, by exact_mod_cast hv⟩
  · next hread0 =>
    split at h
    · next hread =>
      cases h
      obtain ⟨hout, hv⟩ := memRead_error hread
      have hin := insidePlane_of_memRead_ok hP hread0
      refine ⟨i * 3 / 2 + 1, ?_, .inr ⟨rfl, by exact_mod_cast hin⟩, ?_⟩
      · rw [← Nat.add_assoc]
        exact_mod_cast hout
      · rw [← Nat.add_assoc]
        exact_mod_cast hv
    · cases h

theorem insidePlane_of_pixel24_ok {P : Params} (hP : P.oobPolicy = .fault) {V : Plane} {o : Coord} {fade : Byte} {i j : Nat} {p : Pixel}
    (h : pixel24 P V o fade (i, j) = .ok p) :
    insidePlane (o.x.toNat + i * 3 / 2 : Nat) (o.y.toNat + j : Nat) = true ∧
      insidePlane (o.x.toNat + (i * 3 / 2 + 1) : Nat) (o.y.toNat + j : Nat) = true := by
  unfold pixel24 firstColumn at h
  dsimp only at h
  split at h
  · cases h
  · next hread0 =>
    split at h
    · cases h
    · next hread1 =>
      have hin0 := insidePlane_of_memRead_ok hP hread0
      have hin1 := insidePlane_of_memRead_ok hP hread1
      rw [← Nat.add_assoc]
      exact ⟨by exact_mod_cast hin0, by exact_mod_cast hin1⟩

/-- Settles O60: some pixel raises, so `imageOf_error` gives the first one that does, and the laws above say at which cell. -/
theorem displayOutsideThePlaneReturnsNothing : Obligations.DisplayOutsideThePlaneReturnsNothing := by
  unfold Obligations.DisplayOutsideThePlaneReturnsNothing
  intro P origin size fade s hP col row raised
  constructor
  · rintro ⟨i, j, hi, hj, hout⟩
    obtain ⟨v, hv⟩ : ∃ v, pixel15 P s.plane origin fade (i, j) = .error v := by
      cases h : pixel15 P s.plane origin fade (i, j) with
      | error v => exact ⟨v, rfl⟩
      | ok p => exact absurd (hout.symm.trans (insidePlane_of_pixel15_ok hP h)) (by simp)
    obtain ⟨i₀, j₀, v₀, hi₀, hj₀, hfirst, hbefore, himage⟩ := imageOf_error hi hj hv
    obtain ⟨hout₀, rfl⟩ := pixel15_error hfirst
    refine ⟨i₀, j₀, hi₀, hj₀, hout₀, fun i' j' hi' hlt => ?_, ?_⟩
    · obtain ⟨p, hp⟩ := hbefore i' j' hi' hlt
      exact insidePlane_of_pixel15_ok hP hp
    · rw [display15, himage]
      rfl
  · rintro ⟨i, j, hi, hj, hout⟩
    obtain ⟨v, hv⟩ : ∃ v, pixel24 P s.plane origin fade (i, j) = .error v := by
      cases h : pixel24 P s.plane origin fade (i, j) with
      | error v => exact ⟨v, rfl⟩
      | ok p =>
        obtain ⟨hin0, hin1⟩ := insidePlane_of_pixel24_ok hP h
        rcases hout with hout | hout
        · exact absurd (hout.symm.trans hin0) (by simp)
        · exact absurd (hout.symm.trans hin1) (by simp)
    obtain ⟨i₀, j₀, v₀, hi₀, hj₀, hfirst, hbefore, himage⟩ := imageOf_error hi hj hv
    obtain ⟨k, hout₀, hk, rfl⟩ := pixel24_error hP hfirst
    refine ⟨i₀, j₀, k, hi₀, hj₀, hout₀, hk, fun i' j' hi' hlt => ?_, ?_⟩
    · obtain ⟨p, hp⟩ := hbefore i' j' hi' hlt
      exact insidePlane_of_pixel24_ok hP hp
    · rw [display24, himage]
      rfl

end Sys2Proof.Machine
